-- ==== Sys2Proof/Word.lean ====
section
/-!
DEFINITION. The bit-vector types of the core (00_scope.md rules R10, R11): a byte, the 16-bit and 32-bit registers,
and the 40-bit command word. All quantities are unsigned; there is no signed value in the core (R11).
-/

namespace Sys2Proof

/-- A byte, an unsigned number 0 to 255 (R11). -/
abbrev Byte := BitVec 8

/-- A 16-bit value: `segrem` and the length field of a stored block (R10, R30). -/
abbrev Half := BitVec 16

/-- A 32-bit register, operand or table entry (R8, R10). -/
abbrev Word := BitVec 32

/-- A command word (R10, R70). -/
abbrev CmdWord := BitVec 40

end Sys2Proof
end

