-- ==== Sys2Proof/Syntax.lean ====
section
/-!
DEFINITION. The commands of the core: one constructor per row of the opcode map (30_encoding.md rule R78). Operands
have the width of their format (R72 to R76), so an operand that does not fit its format cannot be written.
-/

namespace Sys2Proof

/-- The 17 commands (R78). Format N: no operand. Format B: a byte. Format W: a 32-bit number. Format T: the four bytes
of a type tag, in the order they are emitted (R76). -/
inductive Instr where
  /-- CRC_INIT (R105), format N. -/
  | crcInit
  /-- CRC_BYTE x (R106), format B. -/
  | crcByte (x : Byte)
  /-- CRC_FINAL (R107), format N. -/
  | crcFinal
  /-- ADLER_INIT (R113), format N. -/
  | adlerInit
  /-- ADLER_BYTE x (R114), format B. -/
  | adlerByte (x : Byte)
  /-- ADLER_FINAL (R115), format N. -/
  | adlerFinal
  /-- PUT_BYTE x (R131), format B. -/
  | putByte (x : Byte)
  /-- PUT_BE32 v (R132), format W. -/
  | putBe32 (v : Word)
  /-- PUT_LEN16C v (R133), format W. -/
  | putLen16c (v : Word)
  /-- CHUNK_OPEN L (R151), format W. -/
  | chunkOpen (len : Word)
  /-- CHUNK_TAG t (R152), format T. -/
  | chunkTag (t0 t1 t2 t3 : Byte)
  /-- CHUNK_CLOSE (R153), format N. -/
  | chunkClose
  /-- ZLIB_OPEN (R171), format N. -/
  | zlibOpen
  /-- ROW_OPEN n (R172), format W. -/
  | rowOpen (n : Word)
  /-- ROW_OPEN_LAST n (R174), format W. -/
  | rowOpenLast (n : Word)
  /-- ROW_DATA x (R175), format B. -/
  | rowData (x : Byte)
  /-- ZLIB_CLOSE (R176), format N. -/
  | zlibClose
  deriving DecidableEq, Repr

end Sys2Proof
end

