-- ==== Sys2Proof/WellFormed.lean ====
section
/-!
DEFINITION. Which command words are well formed (30_encoding.md rules R70, R72 to R76, R86), said without the decoder:
the opcode is one of the map's, and the operand bits its format reserves are zero. An `Instr` needs no check of its
own: its operands have exactly the width of their format, so every `Instr` is well formed by its type.
-/

namespace Sys2Proof

/-- The four operand formats (R72). -/
inductive Format where
  /-- No operand: all 32 operand bits must be zero (R73). -/
  | n
  /-- A byte in operand[7:0]: operand[31:8] must be zero (R74). -/
  | b
  /-- A 32-bit number: every bit pattern is legal (R75). -/
  | w
  /-- A 4-byte tag: every bit pattern is legal (R76). -/
  | t
  deriving DecidableEq, Repr

/-- The format of an opcode, by the opcode map (R78); none where the map has no row for it. -/
def formatOf (opcode : Byte) : Option Format :=
  match opcode.toNat with
  | 0x10 => some .n
  | 0x11 => some .b
  | 0x12 => some .n
  | 0x20 => some .n
  | 0x21 => some .b
  | 0x22 => some .n
  | 0x30 => some .b
  | 0x31 => some .w
  | 0x32 => some .w
  | 0x40 => some .w
  | 0x41 => some .t
  | 0x42 => some .n
  | 0x50 => some .n
  | 0x51 => some .w
  | 0x52 => some .w
  | 0x53 => some .b
  | 0x54 => some .n
  | _ => none

/-- The reserved operand bits of a format are zero (R73, R74); formats W and T reserve none (R75, R76). -/
def Format.reservedZero (f : Format) (operand : Word) : Bool :=
  match f with
  | .n => operand.toNat == 0
  | .b => decide (operand.toNat < 256)
  | .w => true
  | .t => true

/-- A legal command word: the negation of rule R86. -/
def wellFormedWord (w : CmdWord) : Bool :=
  match formatOf (w.extractLsb' 32 8) with
  | some f => f.reservedZero (w.extractLsb' 0 32)
  | none => false

end Sys2Proof
end

