-- ==== Sys2Proof/Decode.lean ====
section
/-!
DEFINITION. Decoding and encoding of command words (30_encoding.md rules R70 to R79, R86 to R89), the listing form of a
word as bytes (R77), and the opcode map as rows of match and mask (R78).
-/

namespace Sys2Proof

/-! ### Fields of a command word -/

/-- Bits [39:32] of a command word (R70). -/
def opcodeOf (w : CmdWord) : Byte := w.extractLsb' 32 8

/-- Bits [31:0] of a command word (R70). -/
def operandOf (w : CmdWord) : Word := w.extractLsb' 0 32

/-- The format-B operand: operand[7:0] (R74). -/
def byteOperand (operand : Word) : Byte := operand.extractLsb' 0 8

/-- Tag byte `k` of a format-T operand, the first byte highest (R76). -/
def tagOperand (operand : Word) (k : Nat) : Byte := operand.extractLsb' (8 * (3 - k)) 8

/-! ### Decoding -/

/-- Why a word is illegal (R86): the names under which the decoder rejects. All of them raise the one fault ILLEGAL. -/
inductive IllegalWord where
  /-- The opcode is not one of the 17 of the map. -/
  | unknownOpcode
  /-- A format-N opcode with a non-zero operand (R73). -/
  | operandNotZero
  /-- A format-B opcode with a bit of operand[31:8] set (R74). -/
  | reservedOperandBits
  deriving DecidableEq, Repr

/-- Format N: no operand, all its bits zero (R73). -/
def decodeN (operand : Word) (i : Instr) : Except IllegalWord Instr :=
  if operand = 0#32 then .ok i else .error .operandNotZero

/-- Format B: one byte, the bits above it zero (R74). -/
def decodeB (operand : Word) (mk : Byte → Instr) : Except IllegalWord Instr :=
  if operand.extractLsb' 8 24 = 0#24 then .ok (mk (byteOperand operand)) else .error .reservedOperandBits

/-- Format W: a 32-bit number (R75). -/
def decodeW (operand : Word) (mk : Word → Instr) : Except IllegalWord Instr := .ok (mk operand)

/-- Format T: the four tag bytes (R76). -/
def decodeT (operand : Word) (mk : Byte → Byte → Byte → Byte → Instr) : Except IllegalWord Instr :=
  .ok (mk (tagOperand operand 0) (tagOperand operand 1) (tagOperand operand 2) (tagOperand operand 3))

/-- Decoding is total and reads no state: split the word, look the opcode up, check the reserved operand bits, extract
the operand, in that order (R89). -/
def decodeNamed (w : CmdWord) : Except IllegalWord Instr :=
  match (opcodeOf w).toNat with
  | 0x10 => decodeN (operandOf w) .crcInit
  | 0x11 => decodeB (operandOf w) .crcByte
  | 0x12 => decodeN (operandOf w) .crcFinal
  | 0x20 => decodeN (operandOf w) .adlerInit
  | 0x21 => decodeB (operandOf w) .adlerByte
  | 0x22 => decodeN (operandOf w) .adlerFinal
  | 0x30 => decodeB (operandOf w) .putByte
  | 0x31 => decodeW (operandOf w) .putBe32
  | 0x32 => decodeW (operandOf w) .putLen16c
  | 0x40 => decodeW (operandOf w) .chunkOpen
  | 0x41 => decodeT (operandOf w) .chunkTag
  | 0x42 => decodeN (operandOf w) .chunkClose
  | 0x50 => decodeN (operandOf w) .zlibOpen
  | 0x51 => decodeW (operandOf w) .rowOpen
  | 0x52 => decodeW (operandOf w) .rowOpenLast
  | 0x53 => decodeB (operandOf w) .rowData
  | 0x54 => decodeN (operandOf w) .zlibClose
  | _ => .error .unknownOpcode

/-- The command a word stands for; none when the word is illegal (R86). -/
def decode (w : CmdWord) : Option Instr :=
  match decodeNamed w with
  | .ok i => some i
  | .error _ => none

/-! ### Encoding -/

/-- A word from its opcode and operand (R70). -/
def assembleWord (opcode : Byte) (operand : Word) : CmdWord := opcode ++ operand

/-- The format-B operand of a byte: the bits above it zero (R74). -/
def operandB (x : Byte) : Word := x.setWidth 32

/-- The format-T operand of four tag bytes, the first highest (R76). -/
def operandT (t0 t1 t2 t3 : Byte) : Word := t0 ++ t1 ++ t2 ++ t3

/-- The word of a command, by the opcode map (R78). -/
def encode (i : Instr) : CmdWord :=
  match i with
  | .crcInit => assembleWord 0x10 0
  | .crcByte x => assembleWord 0x11 (operandB x)
  | .crcFinal => assembleWord 0x12 0
  | .adlerInit => assembleWord 0x20 0
  | .adlerByte x => assembleWord 0x21 (operandB x)
  | .adlerFinal => assembleWord 0x22 0
  | .putByte x => assembleWord 0x30 (operandB x)
  | .putBe32 v => assembleWord 0x31 v
  | .putLen16c v => assembleWord 0x32 v
  | .chunkOpen len => assembleWord 0x40 len
  | .chunkTag t0 t1 t2 t3 => assembleWord 0x41 (operandT t0 t1 t2 t3)
  | .chunkClose => assembleWord 0x42 0
  | .zlibOpen => assembleWord 0x50 0
  | .rowOpen n => assembleWord 0x51 n
  | .rowOpenLast n => assembleWord 0x52 n
  | .rowData x => assembleWord 0x53 (operandB x)
  | .zlibClose => assembleWord 0x54 0

/-! ### The opcode map as match and mask -/

/-- One row of the opcode map (R78). -/
structure OpcodeRow where
  mnemonic : String
  matchBits : CmdWord
  maskBits : CmdWord
  deriving DecidableEq, Repr

/-- The opcode map of rule R78, row by row in its order. -/
def opcodeRows : List OpcodeRow :=
  [⟨"CRC_INIT", 0x1000000000, 0xFFFFFFFFFF⟩,
   ⟨"CRC_BYTE", 0x1100000000, 0xFFFFFFFF00⟩,
   ⟨"CRC_FINAL", 0x1200000000, 0xFFFFFFFFFF⟩,
   ⟨"ADLER_INIT", 0x2000000000, 0xFFFFFFFFFF⟩,
   ⟨"ADLER_BYTE", 0x2100000000, 0xFFFFFFFF00⟩,
   ⟨"ADLER_FINAL", 0x2200000000, 0xFFFFFFFFFF⟩,
   ⟨"PUT_BYTE", 0x3000000000, 0xFFFFFFFF00⟩,
   ⟨"PUT_BE32", 0x3100000000, 0xFF00000000⟩,
   ⟨"PUT_LEN16C", 0x3200000000, 0xFF00000000⟩,
   ⟨"CHUNK_OPEN", 0x4000000000, 0xFF00000000⟩,
   ⟨"CHUNK_TAG", 0x4100000000, 0xFF00000000⟩,
   ⟨"CHUNK_CLOSE", 0x4200000000, 0xFFFFFFFFFF⟩,
   ⟨"ZLIB_OPEN", 0x5000000000, 0xFFFFFFFFFF⟩,
   ⟨"ROW_OPEN", 0x5100000000, 0xFF00000000⟩,
   ⟨"ROW_OPEN_LAST", 0x5200000000, 0xFF00000000⟩,
   ⟨"ROW_DATA", 0x5300000000, 0xFFFFFFFF00⟩,
   ⟨"ZLIB_CLOSE", 0x5400000000, 0xFFFFFFFFFF⟩]

/-- The mnemonic of a command (R78). -/
def mnemonicOf (i : Instr) : String :=
  match i with
  | .crcInit => "CRC_INIT"
  | .crcByte _ => "CRC_BYTE"
  | .crcFinal => "CRC_FINAL"
  | .adlerInit => "ADLER_INIT"
  | .adlerByte _ => "ADLER_BYTE"
  | .adlerFinal => "ADLER_FINAL"
  | .putByte _ => "PUT_BYTE"
  | .putBe32 _ => "PUT_BE32"
  | .putLen16c _ => "PUT_LEN16C"
  | .chunkOpen _ => "CHUNK_OPEN"
  | .chunkTag _ _ _ _ => "CHUNK_TAG"
  | .chunkClose => "CHUNK_CLOSE"
  | .zlibOpen => "ZLIB_OPEN"
  | .rowOpen _ => "ROW_OPEN"
  | .rowOpenLast _ => "ROW_OPEN_LAST"
  | .rowData _ => "ROW_DATA"
  | .zlibClose => "ZLIB_CLOSE"

/-- A word is a row's command exactly when `w & mask = match` (R78). -/
def OpcodeRow.covers (r : OpcodeRow) (w : CmdWord) : Bool := (w &&& r.maskBits) == r.matchBits

/-! ### Words as bytes, and the host's table words -/

/-- The listing form of a word: 5 bytes, most significant first (R77). The core itself receives whole words (R60). -/
def listingBytes (w : CmdWord) : List Byte :=
  [w.extractLsb' 32 8, w.extractLsb' 24 8, w.extractLsb' 16 8, w.extractLsb' 8 8, w.extractLsb' 0 8]

/-- The word five listing bytes spell (R77). -/
def wordOfListing (b0 b1 b2 b3 b4 : Byte) : CmdWord := b0 ++ b1 ++ b2 ++ b3 ++ b4

/-- Decode the first command of a byte listing: the command and the bytes after it; none when fewer than five bytes are
left or the word is illegal. Total on any bytes. -/
def decodeListing (bytes : List Byte) : Option (Instr × List Byte) :=
  match bytes with
  | b0 :: b1 :: b2 :: b3 :: b4 :: rest =>
    match decode (wordOfListing b0 b1 b2 b3 b4) with
    | some i => some (i, rest)
    | none => none
  | _ => none

/-- The 40-bit word whose low `nbits` bits are those of `w` and whose other bits are 0; none when that needs more than
40 bits. -/
def tableWord (nbits w : Nat) : Option CmdWord :=
  if w % 2 ^ nbits < 2 ^ 40 then some (BitVec.ofNat 40 (w % 2 ^ nbits)) else none

/-- The instruction the decoder reads from the `nbits` bits of `w`, numbered as spec/opcode_table.json numbers them: a
row has ONE 40-bit word, bit 0 its least significant bit. -/
def decodeTableWord (nbits w : Nat) : Option Instr :=
  match tableWord nbits w with
  | some cw => decode cw
  | none => none

end Sys2Proof
end

