-- ==== Sys2Proof/Machine/Codes.lean ====
section
/-!
DEFINITION. The two registers of the core that hold one of a fixed set of names: `phase` (10_state.md rule R27) and
`fault` (10_state.md rule R31, 60_exceptions.md rule R231). Codes that are never held cannot be written
(93_implementation_defined.md U11).
-/

namespace Sys2Proof.Machine

/-- Where the core stands in the chunk and stream grammar (R27). -/
inductive Phase where
  /-- Outside any chunk, code 0. -/
  | idle
  /-- Length written, type tag awaited, code 1. -/
  | tag
  /-- Inside a chunk's payload, no zlib stream open, code 2. -/
  | payload
  /-- Inside a zlib stream, between rows, code 3. -/
  | zstream
  /-- Inside a row buffer, code 4. -/
  | row
  deriving DecidableEq, Repr, Inhabited

/-- The fault codes (R31, R231). -/
inductive FaultCode where
  /-- No fault, code 0. -/
  | none
  /-- The word is not a command, code 1 (R232). -/
  | illegal
  /-- The command is not legal in the current phase, code 2 (R233). -/
  | phase
  /-- The operand does not fit the field or the use, code 3 (R234). -/
  | range
  /-- The bytes emitted do not agree with the declared chunk length, code 4 (R235). -/
  | length
  /-- The sink fails on a byte, code 5 (R237). -/
  | io
  deriving DecidableEq, Repr, Inhabited

/-- The number STATUS[2:0] shows for a phase (R27, R33). -/
def phaseCode (p : Phase) : Nat :=
  match p with
  | .idle => 0
  | .tag => 1
  | .payload => 2
  | .zstream => 3
  | .row => 4

/-- The number STATUS[7:5] shows for a fault code (R31, R33). -/
def faultNumber (c : FaultCode) : Nat :=
  match c with
  | .none => 0
  | .illegal => 1
  | .phase => 2
  | .range => 3
  | .length => 4
  | .io => 5

end Sys2Proof.Machine
end

