-- ==== Sys2Proof/Config.lean ====
section
/-!
DEFINITION. The constants the document fixes (00_scope.md rule R8), the parameters it leaves open (R9), and the free
values of the model: values the spec leaves unspecified (93_implementation_defined.md U3), which no proof can see.
-/

namespace Sys2Proof

/-! ### Constants (R8) -/

/-- The standard reflected polynomial (R8, R101). -/
def crcPoly : Word := 0xEDB88320

/-- The CRC-32 seed, all ones (R8, R21). -/
def crcSeed : Word := 0xFFFFFFFF

/-- The modulus of both Adler sums (R8, R112). -/
def adlerMod : Nat := 65521

/-- The Adler seed of `a` (R8, R22). -/
def adlerA0 : Word := 1

/-- The Adler seed of `b` (R8, R22). -/
def adlerB0 : Word := 0

/-- The largest payload of one stored block (R8). -/
def maxBlock : Nat := 65535

/-- The bytes a stored block adds to its data: the flag byte and the length header (R8). -/
def blockOverhead : Nat := 5

/-- The filter byte of every row the driver sends (R8). -/
def filterByte : Byte := 0

/-- Bytes of one pixel (R8). -/
def bytesPerPixel : Nat := 4

/-- The PNG signature (R8, R85). -/
def signature : List Byte := [137, 80, 78, 71, 13, 10, 26, 10]

/-! ### Parameters (R9) -/

/-- The parameters of the core and of its sink (R9). They are data of the State that no step writes, so a statement about
every state holds for every value of them. -/
structure Config where
  /-- ZHDR0, the first zlib header byte (R9, R171). -/
  zhdr0 : Byte
  /-- ZHDR1, the second zlib header byte (R9, R171). -/
  zhdr1 : Byte
  /-- The byte positions the sink refuses: `sink_accepts(i)` is "i is not listed" (R9, R58). -/
  sinkRefuses : List Nat
  deriving DecidableEq, Repr

/-- The defaults of rule R9: header 0x78, 0x01 and a sink that always accepts. -/
def Config.default : Config := { zhdr0 := 0x78, zhdr1 := 0x01, sinkRefuses := [] }

/-- The parameter BKGD of the driver's ENCODE macro: three values of two bytes, red, green, blue, each as given (R9,
R211). The core never sees it except as six payload bytes. -/
structure Bkgd where
  red0 : Byte
  red1 : Byte
  green0 : Byte
  green1 : Byte
  blue0 : Byte
  blue1 : Byte
  deriving DecidableEq, Repr

/-- The spec's placeholder value of BKGD (R9). -/
def Bkgd.default : Bkgd := { red0 := 0xFF, red1 := 0, green0 := 0xFF, green1 := 0, blue0 := 0xFF, blue1 := 0 }

/-! ### Free values (U3; assumption log entry 4) -/

/-- A 32-bit value nothing constrains, one per index. -/
opaque Config.freeWord : Nat → Word

/-- A 16-bit value nothing constrains, one per index. -/
opaque Config.freeHalf : Nat → Half

/-- A bit nothing constrains, one per index. -/
opaque Config.freeBit : Nat → Bool

/-- A phase nothing constrains, one per index. -/
opaque Config.freePhase : Nat → Machine.Phase

end Sys2Proof
end

