-- ==== Sys2Proof/Machine/Adler.lean ====
section
/-!
DEFINITION. The Adler-32 engine (40_checksum.md section 3): the step function (rule R112), the packing of the two sums
(R115) and the running state and checksum of a byte sequence (R116).
-/

namespace Sys2Proof.Machine

/-- The pair of Adler sums (R110). -/
structure AdlerPair where
  a : Word
  b : Word
  deriving DecidableEq, Repr

/-- The seeds (R110). -/
def adlerSeed : AdlerPair := { a := adlerA0, b := adlerB0 }

/-- The new low sum: `(a + x) mod 65521` on natural numbers (R112). -/
def adlerLow (a : Word) (x : Byte) : Nat := (a.toNat + x.toNat) % adlerMod

/-- The new high sum: `(b + a') mod 65521`, with the NEW low sum (R112). -/
def adlerHigh (a b : Word) (x : Byte) : Nat := (b.toNat + adlerLow a x) % adlerMod

/-- `adler_step(a, b, x)` (R112). The sums are natural numbers; both results are below 65521 and fit (R111). -/
def adlerStep (s : AdlerPair) (x : Byte) : AdlerPair :=
  { a := BitVec.ofNat 32 (adlerLow s.a x), b := BitVec.ofNat 32 (adlerHigh s.a s.b x) }

/-- `arun((a, b), s)`: the sums after feeding a byte sequence (R116). -/
def adlerRun (s : AdlerPair) (bytes : List Byte) : AdlerPair :=
  match bytes with
  | [] => s
  | x :: rest => adlerRun (adlerStep s x) rest

/-- Finalize packs `(b << 16) | a` on 32 bits (R115). -/
def adlerPack (s : AdlerPair) : Word := (s.b <<< 16) ||| s.a

/-- `adler32(s)`: the checksum of a byte sequence (R116). -/
def adler32 (bytes : List Byte) : Word := adlerPack (adlerRun adlerSeed bytes)

end Sys2Proof.Machine
end

