-- ==== Sys2Proof/Machine/Operands.lean ====
section
/-!
DEFINITION. The byte sequences operands and registers are emitted as (30_encoding.md rules R76, R80, R81, R82), and the
arithmetic on lengths (00_scope.md rule R12, 43_stream.md rules R172, R173).
-/

namespace Sys2Proof.Machine

/-- `BE32(v)`: four bytes, most significant first (R80). -/
def be32 (v : Word) : List Byte :=
  [v.extractLsb' 24 8, v.extractLsb' 16 8, v.extractLsb' 8 8, v.extractLsb' 0 8]

/-- `LEN16C(v)`: the length low byte first, then the complement `255 - x` of each of the two bytes (R81). -/
def len16c (v : Half) : List Byte :=
  [v.extractLsb' 0 8, v.extractLsb' 8 8, 255 - v.extractLsb' 0 8, 255 - v.extractLsb' 8 8]

/-- The number a big-endian byte sequence spells (R134). -/
def be32Value (bytes : List Byte) : Nat :=
  match bytes with
  | [] => 0
  | x :: rest => 256 ^ rest.length * x.toNat + be32Value rest

/-- `ceil(x / y)` for `y > 0` (R12). -/
def ceilDiv (x y : Nat) : Nat := (x + y - 1) / y

/-- The number of stored blocks of a row of `n` bytes (R172, R177). -/
def rowBlocks (n : Nat) : Nat := ceilDiv n maxBlock

/-- The bytes a row of `n` bytes takes in the output, with its block headers: `n + 5 * ceil(n / 65535)`, a natural number
that is not reduced to 32 bits (R172, R118 (viii)). -/
def rowNeed (n : Nat) : Nat := n + blockOverhead * rowBlocks n

/-- The length of the next stored block of a row that still owes `rowrem` bytes: `min(rowrem, 65535)` (R173). -/
def segLength (rowrem : Nat) : Nat := min rowrem maxBlock

/-- The five bytes before a stored block's data: the flag byte, then LEN16C of the length (R82, R173). -/
def blockHeader (final : Bool) (len : Nat) : List Byte :=
  (if final then 1 else 0) :: len16c (BitVec.ofNat 16 len)

end Sys2Proof.Machine
end

