-- ==== Sys2Proof/Machine/State.lean ====
section
/-!
DEFINITION. The state of the machine as plain data (10_state.md rules R20, R26, R35; 20_memory.md rule R51), the reasons a
step can stop, and the state right after reset (10_state.md rule R39, 70_reset_and_hazards.md rule R260).
-/

namespace Sys2Proof.Machine

/-- The eleven registers of rule R20, the environment state of rules R26, R35 and R51, the parameters of rule R9, and the
model's own counter of free values. -/
structure State where
  /-- Running CRC-32 state, before the final complement (R21). -/
  crc : Word
  /-- Adler-32 low sum (R22, R23). -/
  a : Word
  /-- Adler-32 high sum (R22, R23). -/
  b : Word
  /-- The last finalized checksum (R24). -/
  result : Word
  /-- Position in the output grammar (R27). -/
  phase : Phase
  /-- A final-block header has been emitted since the last ZLIB_OPEN (R28). -/
  zfinal : Bool
  /-- The row open or last opened was opened by ROW_OPEN_LAST (R28). -/
  rowlast : Bool
  /-- Payload bytes the open chunk still owes (R29). -/
  remain : Word
  /-- Row bytes the open row still owes (R30). -/
  rowrem : Word
  /-- Row bytes the open stored block still owes (R30). -/
  segrem : Half
  /-- The fault code, sticky (R31). -/
  fault : FaultCode
  /-- The number of commands completed since reset: the index of the next one (R26). -/
  pc : Nat
  /-- The bytes the sink has accepted since reset, first byte first (R35). -/
  out : List Byte
  /-- The command words the host has issued since reset, in order (R51). -/
  prog : List CmdWord
  /-- The parameters of the core and its sink (R9); no step writes them. -/
  cfg : Config
  /-- The model's own field: the index of the next free value (assumption log entry 4). -/
  draws : Nat
  deriving DecidableEq, Repr

/-- Reasons the model stops a step. The faults of the spec are NOT here: the core records those in `State.fault` and the
step answers a next state (60_exceptions.md rules R240, R243). -/
inductive Fault where
  /-- ROW_DATA met a counter (`remain`, `rowrem` or `segrem`) at 0, where the spec's arithmetic has no result
  (40_checksum.md rule R118 (vii): a counter is decremented only where a rule has shown it is at least 1). Raised by
  ROW_DATA alone, only in states no run from reset reaches (10_state.md rule R40). Safe: the model stops. -/
  | counterUnderflow
  deriving DecidableEq, Repr

/-- Reasons the model gives an instruction no meaning. -/
inductive Refusal where
  /-- An instruction without a meaning yet, by its mnemonic. Raised by no arm of `exec` now. Safe. -/
  | notModelled (mnemonic : String)
  deriving DecidableEq, Repr

/-- The machine right after reset (R39, R260), with the parameters of rule R9 at their defaults and no command issued. -/
def State.reset : State where
  crc := crcSeed
  a := adlerA0
  b := adlerB0
  result := 0
  phase := .idle
  zfinal := false
  rowlast := false
  remain := 0
  rowrem := 0
  segrem := 0
  fault := .none
  pc := 0
  out := []
  prog := []
  cfg := Config.default
  draws := 0

end Sys2Proof.Machine
end

