-- ==== Sys2Proof/Machine/Flags.lean ====
section
/-!
DEFINITION. The flag computations of the core: the phase conditions of the matrix (60_exceptions.md rule R233), the
final-block flag (43_stream.md rule R173), and the packing of STATUS (10_state.md rule R33). There are no arithmetic
condition codes (R28).
-/

namespace Sys2Proof.Machine

/-- The direct checksum commands and CHUNK_OPEN are legal in IDLE only (R104, R233). -/
def inIdle (s : State) : Bool := decide (s.phase = .idle)

/-- CHUNK_TAG is legal in TAG only (R233). -/
def inTag (s : State) : Bool := decide (s.phase = .tag)

/-- CHUNK_CLOSE and ZLIB_OPEN are legal in PAYLOAD only (R233). -/
def inPayload (s : State) : Bool := decide (s.phase = .payload)

/-- The PUT commands are legal in IDLE and PAYLOAD (R135, R233). -/
def mayPut (s : State) : Bool := decide (s.phase = .idle ∨ s.phase = .payload)

/-- The row-open commands are legal in ZSTREAM before the final block (R172, R233). -/
def mayOpenRow (s : State) : Bool := decide (s.phase = .zstream ∧ s.zfinal = false)

/-- ZLIB_CLOSE is legal in ZSTREAM after the final block (R176, R233). -/
def mayCloseStream (s : State) : Bool := decide (s.phase = .zstream ∧ s.zfinal = true)

/-- ROW_DATA is legal in ROW only (R233). -/
def inRow (s : State) : Bool := decide (s.phase = .row)

/-- `remain = 0`: the chunk owes no payload byte (R235). -/
def owesNothing (s : State) : Bool := decide (s.remain = 0#32)

/-- `remain >= n`: the chunk still owes at least `n` payload bytes (R235). -/
def owesAtLeast (n : Nat) (s : State) : Bool := decide (n ≤ s.remain.toNat)

/-- The final-block flag of the block about to be opened: the row was opened by ROW_OPEN_LAST and this block takes all
the bytes it still owes (R173). -/
def finalFlag (s : State) : Bool := s.rowlast && decide (s.rowrem.toNat ≤ maxBlock)

/-- STATUS: PHASE in [2:0], ZFINAL in [3], ROWLAST in [4], FAULT in [7:5], zero above (R33). -/
def statusWord (s : State) : Word :=
  BitVec.ofNat 32
    (phaseCode s.phase + (if s.zfinal then 8 else 0) + (if s.rowlast then 16 else 0) + 32 * faultNumber s.fault)

end Sys2Proof.Machine
end

