-- ==== Sys2Proof/Machine/Ops.lean ====
section
/-!
DEFINITION. The named operations the commands are written over: the flow of a command's pseudocode (00_scope.md rule
R13), raising a fault (60_exceptions.md rules R240 to R243), the emit primitives (20_memory.md rules R55 to R58), the
stored-block header (43_stream.md rule R173), `put` (41_serializer.md rule R135), and taking a word from the command
stream (20_memory.md rule R51). There is no return from a fault (R244): only the host's reset leaves one.
-/

namespace Sys2Proof.Machine

/-! ### Named updates of the state -/

/-- The effect of a command that completes on `pc`: exactly 1 is added (R26). -/
def advancePc (s : State) : State := { s with pc := s.pc + 1 }

/-- A byte the sink has accepted is appended to `out` (R55). -/
def appendByte (x : Byte) (s : State) : State := { s with out := s.out ++ [x] }

/-- A payload byte feeds `crc` and is counted in `remain` (R56). -/
def countPayload (x : Byte) (s : State) : State :=
  { s with crc := crcStep s.crc x, remain := s.remain - 1#32 }

/-- A tag byte feeds `crc` and is not counted (R152). -/
def feedCrc (x : Byte) (s : State) : State := { s with crc := crcStep s.crc x }

/-- Start a new CRC-32: `crc` takes the seed (R105, R152). -/
def seedCrc (s : State) : State := { s with crc := crcSeed }

/-- Write `result` (R24). -/
def setResult (v : Word) (s : State) : State := { s with result := v }

/-- The Adler registers as a pair. -/
def adlerOf (s : State) : AdlerPair := { a := s.a, b := s.b }

/-- Write both Adler registers. -/
def setAdler (p : AdlerPair) (s : State) : State := { s with a := p.a, b := p.b }

/-- A fault of code 1 to 4 changes `fault` and nothing else (R240, R241). -/
def recordCode (c : FaultCode) (s : State) : State := { s with fault := c }

/-- An IO fault records code 5; `out`, `pc` and the environment stay; every other register is unspecified (R242, R34):
each takes a free value of its own, and the model's counter moves past those used (assumption log entry 4). -/
def recordIo (s : State) : State :=
  { s with
    fault := .io
    crc := Config.freeWord s.draws
    a := Config.freeWord (s.draws + 1)
    b := Config.freeWord (s.draws + 2)
    result := Config.freeWord (s.draws + 3)
    remain := Config.freeWord (s.draws + 4)
    rowrem := Config.freeWord (s.draws + 5)
    segrem := Config.freeHalf s.draws
    phase := Config.freePhase s.draws
    zfinal := Config.freeBit s.draws
    rowlast := Config.freeBit (s.draws + 1)
    draws := s.draws + 6 }

/-- `raise F(code)`: what is recorded (R240 to R242). -/
def recordFault (c : FaultCode) (s : State) : State :=
  match c with
  | .io => recordIo s
  | _ => recordCode c s

/-! ### The flow of a command -/

/-- Where the pseudocode of a command stands: it goes on from a state, a fault has been raised and the command is over
(R240), or it has met a decrement that has no result (R118 (vii)). -/
inductive Flow where
  | go (s : State)
  | raised (s : State)
  | stuck (r : Fault)
  deriving DecidableEq, Repr

/-- Sequence: nothing after a `raise` is executed (R240). -/
def Flow.andThen (m : Flow) (k : State → Flow) : Flow :=
  match m with
  | .go s => k s
  | .raised s => .raised s
  | .stuck r => .stuck r

/-- `raise F(code)` in pseudocode (R240). -/
def raise (c : FaultCode) (s : State) : Flow := .raised (recordFault c s)

/-- A check: go on when it holds, raise the code when it does not (R239). -/
def check (ok : Bool) (c : FaultCode) (s : State) : Flow := if ok then .go s else raise c s

/-- The end of a command: `pc` advances when it completed, and does not when it raised (R26, R240). -/
def Flow.finish (m : Flow) : Host.Outcome State Fault Refusal :=
  match m with
  | .go s => .next (advancePc s)
  | .raised s => .next s
  | .stuck r => .fault r

/-- The core is halted while a fault is recorded (R243). -/
def halted (s : State) : Bool := decide (s.fault ≠ .none)

/-- Execute one command with the given pseudocode; a halted core accepts the command and ignores it: the step is the
identity (R239 step 1, R243). -/
def command (s : State) (body : State → Flow) : Host.Outcome State Fault Refusal :=
  if halted s then .next s else (body s).finish

/-! ### The emit primitives -/

/-- The sink's answer for byte position `i` (R58). -/
def sinkAccepts (s : State) (i : Nat) : Bool := !s.cfg.sinkRefuses.contains i

/-- `emit_raw(x)` (R55): ask the sink for position `len(out)`; append, or raise IO. -/
def emitRaw (x : Byte) (s : State) : Flow :=
  if sinkAccepts s s.out.length then .go (appendByte x s) else raise .io s

/-- `emit_pay(x)` (R56): a raw byte that feeds `crc` and is counted. At `remain = 0` the decrement has no result. -/
def emitPay (x : Byte) (s : State) : Flow :=
  (emitRaw x s).andThen fun s =>
    if s.remain = 0#32 then .stuck .counterUnderflow else .go (countPayload x s)

/-- `emit_row(x)` (R57): a payload byte that also feeds the Adler-32. -/
def emitRow (x : Byte) (s : State) : Flow :=
  (emitPay x s).andThen fun s => .go (setAdler (adlerStep (adlerOf s) x) s)

/-- A tag byte: raw, plus an explicit CRC step, not counted in `remain` (R152). -/
def emitTag (x : Byte) (s : State) : Flow :=
  (emitRaw x s).andThen fun s => .go (feedCrc x s)

/-- `for each x of bytes in order: emit(x)`. -/
def emitAll (emit : Byte → State → Flow) (bytes : List Byte) (s : State) : Flow :=
  match bytes with
  | [] => .go s
  | x :: rest => (emit x s).andThen (emitAll emit rest)

/-! ### Shared pieces of command pseudocode -/

/-- `put(s)` (R135): raw bytes in IDLE; in PAYLOAD one LENGTH check for the whole sequence, then payload bytes; PHASE
elsewhere. -/
def put (bytes : List Byte) (s : State) : Flow :=
  (check (mayPut s) .phase s).andThen fun s =>
    if inIdle s then emitAll emitRaw bytes s
    else (check (owesAtLeast bytes.length s) .length s).andThen (emitAll emitPay bytes)

/-- The registers `seg_header()` writes once its five bytes are out (R173). -/
def openBlock (final : Bool) (len : Nat) (s : State) : State :=
  { s with segrem := BitVec.ofNat 16 len, zfinal := final || s.zfinal }

/-- `seg_header()` (R173): open the next stored block of the open row. -/
def segHeader (s : State) : Flow :=
  (emitAll emitPay (blockHeader (finalFlag s) (segLength s.rowrem.toNat)) s).andThen fun t =>
    .go (openBlock (finalFlag s) (segLength s.rowrem.toNat) t)

/-- The registers a row-open writes before the first header (R172, R174). -/
def beginRow (last : Bool) (n : Word) (s : State) : State := { s with rowrem := n, rowlast := last }

/-- Write `phase`. -/
def setPhase (p : Phase) (s : State) : State := { s with phase := p }

/-- The pseudocode ROW_OPEN and ROW_OPEN_LAST share (R172, R174); they differ in what `rowlast` becomes. -/
def openRow (last : Bool) (n : Word) (s : State) : Flow :=
  (check (mayOpenRow s) .phase s).andThen fun s =>
    (check (decide (n ≠ 0#32)) .range s).andThen fun s =>
      (check (owesAtLeast (rowNeed n.toNat) s) .length s).andThen fun s =>
        (segHeader (beginRow last n s)).andThen fun s => .go (setPhase .row s)

/-- One byte less is owed by the open row and by the open block (R175). -/
def countRow (s : State) : State := { s with rowrem := s.rowrem - 1#32, segrem := s.segrem - 1#16 }

/-- The decrements of ROW_DATA; at 0 they have no result (R118 (vii)). -/
def takeRowByte (s : State) : Flow :=
  if s.rowrem = 0#32 ∨ s.segrem = 0#16 then .stuck .counterUnderflow else .go (countRow s)

/-- What CHUNK_OPEN writes once the length field is out: the declared length and the phase (R151). -/
def declareChunk (len : Word) (s : State) : State := { s with remain := len, phase := .tag }

/-- What ZLIB_OPEN writes before its bytes: the Adler seeds, and `zfinal` cleared (R171). -/
def beginStream (s : State) : State := { s with a := adlerA0, b := adlerB0, zfinal := false }

/-! ### The command stream -/

/-- The next command word: word number `pc` of the stream (R26, R51); none when the host has issued no further one. -/
def fetch (s : State) : Option CmdWord := s.prog[s.pc]?

/-- Executing an illegal word: fault ILLEGAL and nothing else (R86, R232). -/
def illegalWord (s : State) : Host.Outcome State Fault Refusal := command s (raise .illegal)

/-- Put `w` at index `i` of a command stream; a stream that is too short is filled with the all-zero word, which is
illegal (R86). -/
def placeWord (w : CmdWord) (i : Nat) (prog : List CmdWord) : List CmdWord :=
  match i, prog with
  | 0, [] => [w]
  | 0, _ :: rest => w :: rest
  | k + 1, [] => 0 :: placeWord w k []
  | k + 1, v :: rest => v :: placeWord w k rest

end Sys2Proof.Machine
end

