-- ==== Sys2Proof/Machine/Checksum.lean ====
section
/-!
DEFINITION. The direct checksum commands (40_checksum.md rules R104 to R107, R113 to R115). All six are legal in phase
IDLE only (R104) and emit nothing.
-/

namespace Sys2Proof.Machine

/-- CRC_INIT (R105). -/
def execCrcInit (s : State) : Host.Outcome State Fault Refusal :=
  command s fun s => (check (inIdle s) .phase s).andThen fun s => .go (seedCrc s)

/-- CRC_BYTE x (R106). -/
def execCrcByte (x : Byte) (s : State) : Host.Outcome State Fault Refusal :=
  command s fun s => (check (inIdle s) .phase s).andThen fun s => .go (feedCrc x s)

/-- CRC_FINAL (R107): `result` takes the complement; `crc` is not changed. -/
def execCrcFinal (s : State) : Host.Outcome State Fault Refusal :=
  command s fun s => (check (inIdle s) .phase s).andThen fun s => .go (setResult (crcFinalize s.crc) s)

/-- ADLER_INIT (R113). -/
def execAdlerInit (s : State) : Host.Outcome State Fault Refusal :=
  command s fun s => (check (inIdle s) .phase s).andThen fun s => .go (setAdler adlerSeed s)

/-- ADLER_BYTE x (R114). -/
def execAdlerByte (x : Byte) (s : State) : Host.Outcome State Fault Refusal :=
  command s fun s => (check (inIdle s) .phase s).andThen fun s => .go (setAdler (adlerStep (adlerOf s) x) s)

/-- ADLER_FINAL (R115): `result` takes the packed sums; `a`, `b` are not changed. -/
def execAdlerFinal (s : State) : Host.Outcome State Fault Refusal :=
  command s fun s => (check (inIdle s) .phase s).andThen fun s => .go (setResult (adlerPack (adlerOf s)) s)

end Sys2Proof.Machine
end

