-- ==== Sys2Proof/Machine/Chunk.lean ====
section
/-!
DEFINITION. The PNG chunk assembler commands (42_chunk.md rules R151 to R153).
-/

namespace Sys2Proof.Machine

/-- CHUNK_OPEN L (R151): the length as four raw bytes; `remain` takes it; `crc` is not touched. -/
def execChunkOpen (len : Word) (s : State) : Host.Outcome State Fault Refusal :=
  command s fun s =>
    (check (inIdle s) .phase s).andThen fun s =>
      (emitAll emitRaw (be32 len) s).andThen fun s => .go (declareChunk len s)

/-- CHUNK_TAG t (R152): `crc` is seeded, then fed the four tag bytes as they are emitted; they are not counted. -/
def execChunkTag (t0 t1 t2 t3 : Byte) (s : State) : Host.Outcome State Fault Refusal :=
  command s fun s =>
    (check (inTag s) .phase s).andThen fun s =>
      (emitAll emitTag [t0, t1, t2, t3] (seedCrc s)).andThen fun s => .go (setPhase .payload s)

/-- CHUNK_CLOSE (R153): the declared length must have been met; the complement of `crc` as four raw bytes; `crc` keeps
the running value. -/
def execChunkClose (s : State) : Host.Outcome State Fault Refusal :=
  command s fun s =>
    (check (inPayload s) .phase s).andThen fun s =>
      (check (owesNothing s) .length s).andThen fun s =>
        (emitAll emitRaw (be32 (crcFinalize s.crc)) s).andThen fun s => .go (setPhase .idle s)

end Sys2Proof.Machine
end

