-- ==== Sys2Proof/Machine/Serializer.lean ====
section
/-!
DEFINITION. The integer serializer commands (41_serializer.md rules R131 to R133), over `put` (R135).
-/

namespace Sys2Proof.Machine

/-- PUT_BYTE x (R131). -/
def execPutByte (x : Byte) (s : State) : Host.Outcome State Fault Refusal := command s (put [x])

/-- PUT_BE32 v (R132). -/
def execPutBe32 (v : Word) (s : State) : Host.Outcome State Fault Refusal := command s (put (be32 v))

/-- PUT_LEN16C v (R133): PHASE is checked before RANGE, RANGE before LENGTH (R239). -/
def execPutLen16c (v : Word) (s : State) : Host.Outcome State Fault Refusal :=
  command s fun s =>
    (check (mayPut s) .phase s).andThen fun s =>
      (check (decide (v.toNat ≤ 65535)) .range s).andThen (put (len16c (v.setWidth 16)))

end Sys2Proof.Machine
end

