-- ==== Sys2Proof/Machine/Stream.lean ====
section
/-!
DEFINITION. The DEFLATE stored-block framer and zlib envelope commands (43_stream.md rules R171 to R176).
-/

namespace Sys2Proof.Machine

/-- ZLIB_OPEN (R171): seed the Adler-32, clear `zfinal`, emit the two header bytes as payload. -/
def execZlibOpen (s : State) : Host.Outcome State Fault Refusal :=
  command s fun s =>
    (check (inPayload s) .phase s).andThen fun s =>
      (check (owesAtLeast 2 s) .length s).andThen fun s =>
        (emitAll emitPay [s.cfg.zhdr0, s.cfg.zhdr1] (beginStream s)).andThen fun s =>
          .go (setPhase .zstream s)

/-- ROW_OPEN n (R172). -/
def execRowOpen (n : Word) (s : State) : Host.Outcome State Fault Refusal := command s (openRow false n)

/-- ROW_OPEN_LAST n (R174). -/
def execRowOpenLast (n : Word) (s : State) : Host.Outcome State Fault Refusal := command s (openRow true n)

/-- ROW_DATA x (R175): one row byte; the row ends when it owes nothing more, else a full block is followed at once by
the next block's header. -/
def execRowData (x : Byte) (s : State) : Host.Outcome State Fault Refusal :=
  command s fun s =>
    (check (inRow s) .phase s).andThen fun s =>
      (emitRow x s).andThen fun s =>
        (takeRowByte s).andThen fun s =>
          if s.rowrem = 0#32 then .go (setPhase .zstream s)
          else if s.segrem = 0#16 then segHeader s
          else .go s

/-- ZLIB_CLOSE (R176): the packed Adler sums as four payload bytes, most significant first. -/
def execZlibClose (s : State) : Host.Outcome State Fault Refusal :=
  command s fun s =>
    (check (mayCloseStream s) .phase s).andThen fun s =>
      (check (owesAtLeast 4 s) .length s).andThen fun s =>
        (emitAll emitPay (be32 (adlerPack (adlerOf s))) s).andThen fun s => .go (setPhase .payload s)

end Sys2Proof.Machine
end

