-- ==== Sys2Proof/Machine/Dispatch.lean ====
section
/-!
DEFINITION. One arm per command (30_encoding.md rule R78), each one direct call of its meaning.
-/

namespace Sys2Proof.Machine

def exec (i : Instr) (s : State) : Host.Outcome State Fault Refusal :=
  match i with
  | .crcInit => Sys2Proof.Machine.execCrcInit s
  | .crcByte x => Sys2Proof.Machine.execCrcByte x s
  | .crcFinal => Sys2Proof.Machine.execCrcFinal s
  | .adlerInit => Sys2Proof.Machine.execAdlerInit s
  | .adlerByte x => Sys2Proof.Machine.execAdlerByte x s
  | .adlerFinal => Sys2Proof.Machine.execAdlerFinal s
  | .putByte x => Sys2Proof.Machine.execPutByte x s
  | .putBe32 v => Sys2Proof.Machine.execPutBe32 v s
  | .putLen16c v => Sys2Proof.Machine.execPutLen16c v s
  | .chunkOpen len => Sys2Proof.Machine.execChunkOpen len s
  | .chunkTag t0 t1 t2 t3 => Sys2Proof.Machine.execChunkTag t0 t1 t2 t3 s
  | .chunkClose => Sys2Proof.Machine.execChunkClose s
  | .zlibOpen => Sys2Proof.Machine.execZlibOpen s
  | .rowOpen n => Sys2Proof.Machine.execRowOpen n s
  | .rowOpenLast n => Sys2Proof.Machine.execRowOpenLast n s
  | .rowData x => Sys2Proof.Machine.execRowData x s
  | .zlibClose => Sys2Proof.Machine.execZlibClose s

end Sys2Proof.Machine
end

