-- ==== Sys2Proof/Machine/Step.lean ====
section
/-!
DEFINITION. One step of the machine: fetch, decode, execute (70_reset_and_hazards.md rules R272, R276; 60_exceptions.md
rules R239, R243), and placing a word where the next step fetches.
-/

namespace Sys2Proof.Machine

/-- One step. A halted core does not decode (R243); a core whose host has issued no further word holds its registers
(R252); an illegal word raises ILLEGAL (R86); a command is executed. -/
def step (s : State) : Host.Outcome State Fault Refusal :=
  if halted s then .next s
  else
    match fetch s with
    | none => .next s
    | some w =>
      match decode w with
      | none => illegalWord s
      | some i => exec i s

/-- `s` with the command word of `w`'s low `nbits` bits as the next word of the command stream: the host issues it
(assumption log entry 1). A value of more than 40 bits is no command word and changes nothing. -/
def State.withFetchWord (s : State) (nbits w : Nat) : State :=
  match tableWord nbits w with
  | some cw => { s with prog := placeWord cw s.pc s.prog }
  | none => s

end Sys2Proof.Machine
end

