-- ==== Sys2Proof/Machine/Format.lean ====
section
/-!
DEFINITION. The byte layouts of what the core emits (30_encoding.md Part B, rules R82 to R85; 43_stream.md rule R177),
as functions from data to bytes, written without the command semantics.
-/

namespace Sys2Proof.Machine

/-- A type tag: exactly four bytes (R16, R76). -/
structure Tag where
  t0 : Byte
  t1 : Byte
  t2 : Byte
  t3 : Byte
  deriving DecidableEq, Repr

/-- The tag's bytes in the order they are emitted (R76). -/
def Tag.bytes (t : Tag) : List Byte := [t.t0, t.t1, t.t2, t.t3]

/-- The tags of the image (R14): 'IHDR', 'sRGB', 'bKGD', 'IDAT', 'IEND'. -/
def tagIHDR : Tag := { t0 := 0x49, t1 := 0x48, t2 := 0x44, t3 := 0x52 }

/-- 'sRGB' (R14). -/
def tagSRGB : Tag := { t0 := 0x73, t1 := 0x52, t2 := 0x47, t3 := 0x42 }

/-- 'bKGD' (R14). -/
def tagBKGD : Tag := { t0 := 0x62, t1 := 0x4B, t2 := 0x47, t3 := 0x44 }

/-- 'IDAT' (R14). -/
def tagIDAT : Tag := { t0 := 0x49, t1 := 0x44, t2 := 0x41, t3 := 0x54 }

/-- 'IEND' (R14). -/
def tagIEND : Tag := { t0 := 0x49, t1 := 0x45, t2 := 0x4E, t3 := 0x44 }

/-- A stored DEFLATE block: flag byte, length header, data verbatim (R82). -/
def storedBlock (final : Bool) (data : List Byte) : List Byte := blockHeader final data.length ++ data

/-- The stored blocks of a row, at most `k` of them: every block but the last carries 65535 bytes, the last the rest; only
the last block of a last row is final (R177). -/
def rowBlocksBytes (last : Bool) (k : Nat) (row : List Byte) : List Byte :=
  match k with
  | 0 => []
  | j + 1 =>
    if row.length ≤ maxBlock then storedBlock last row
    else storedBlock false (row.take maxBlock) ++ rowBlocksBytes last j (row.drop maxBlock)

/-- A row as it is emitted: its `ceil(n / 65535)` stored blocks (R177). -/
def rowBytes (last : Bool) (row : List Byte) : List Byte := rowBlocksBytes last (rowBlocks row.length) row

/-- The rows of a stream as they are emitted; the last row of the list is the last of the stream (R84, R174). -/
def rowsBytes (rows : List (List Byte)) : List Byte :=
  match rows with
  | [] => []
  | [row] => rowBytes true row
  | row :: rest => rowBytes false row ++ rowsBytes rest

/-- The zlib stream of a list of rows: header, blocks, big-endian Adler-32 of the row bytes (R84, R178). -/
def zlibBytes (zhdr0 zhdr1 : Byte) (rows : List (List Byte)) : List Byte :=
  [zhdr0, zhdr1] ++ rowsBytes rows ++ be32 (adler32 rows.flatten)

/-- The conditions a header pair must meet for the stream to be a valid zlib stream (R84, from general knowledge there):
method 8, window nibble at most 7, no dictionary, the pair a multiple of 31. -/
def validZlibHeader (zhdr0 zhdr1 : Byte) : Bool :=
  (zhdr0.extractLsb' 0 4).toNat == 8 && decide ((zhdr0.extractLsb' 4 4).toNat ≤ 7) && !zhdr1.getLsbD 5 &&
    (256 * zhdr0.toNat + zhdr1.toNat) % 31 == 0

/-- A PNG chunk: length, tag, payload, CRC-32 of tag and payload (R83). -/
def chunkBytes (tag : Tag) (payload : List Byte) : List Byte :=
  be32 (BitVec.ofNat 32 payload.length) ++ tag.bytes ++ payload ++ be32 (crc32 (tag.bytes ++ payload))

end Sys2Proof.Machine
end

