-- ==== Sys2Proof/Machine/HostPort.lean ====
section
/-!
DEFINITION. What the host can do to the core (70_reset_and_hazards.md rule R276): read a register by number, issue a
command word, assert reset.
-/

namespace Sys2Proof.Machine

/-- The host register file (10_state.md rules R32, R33): eight 32-bit registers by number; 8 and above read 0. A read has
no side effect. After an IO fault everything but FAULT is a free value, because the registers are (R34, R242). -/
def hostRead (number : Nat) (s : State) : Word :=
  match number with
  | 0 => statusWord s
  | 1 => s.result
  | 2 => s.crc
  | 3 => s.a
  | 4 => s.b
  | 5 => s.remain
  | 6 => s.rowrem
  | 7 => s.segrem.setWidth 32
  | _ => 0

/-- Issue one command word: it joins the end of the command stream (R51). -/
def hostIssue (w : CmdWord) (s : State) : State := { s with prog := s.prog ++ [w] }

/-- Issue a sequence of command words in order (R51, R200). -/
def hostIssueAll (ws : List CmdWord) (s : State) : State := { s with prog := s.prog ++ ws }

/-- Assert reset between two commands (R260, R261): every register takes its reset value, `pc` becomes 0, `out` becomes
empty, and a new run with a new command stream begins. The parameters are no state and stay; the model's counter of free
values stays, so that a later draw is a new one. -/
def hostReset (s : State) : State := { State.reset with cfg := s.cfg, draws := s.draws }

end Sys2Proof.Machine
end

