-- ==== Sys2Proof/Machine/Driver.lean ====
section
/-!
DEFINITION. The macro-operations of the host driver (44_macros.md): functions from arguments to a finite list of
commands, with the preconditions checked on the arguments alone (rule R200). `none` is the driver's refusal
(PreconditionViolation): no command is issued. Then the driver's issue of them, one command at a time. They are not hardware; they have no encoding of their own (R91).
-/

namespace Sys2Proof.Machine

/-- The largest number a 32-bit field holds (R203, R205). -/
def maxWord : Nat := 4294967295

/-! ### CRC32, ADLER32, CHUNK -/

/-- `CRC32(s)` (R201). -/
def crc32Macro (bytes : List Byte) : List Instr := .crcInit :: bytes.map .crcByte ++ [.crcFinal]

/-- `ADLER32(s)` (R202). -/
def adler32Macro (bytes : List Byte) : List Instr := .adlerInit :: bytes.map .adlerByte ++ [.adlerFinal]

/-- The commands of `CHUNK(t, p)` once its precondition holds (R203). -/
def chunkCommands (t : Tag) (payload : List Byte) : List Instr :=
  .chunkOpen (BitVec.ofNat 32 payload.length) :: .chunkTag t.t0 t.t1 t.t2 t.t3 :: payload.map .putByte ++ [.chunkClose]

/-- `CHUNK(t, p)` (R203): refused when the payload length does not fit 32 bits. -/
def chunkMacro (t : Tag) (payload : List Byte) : Option (List Instr) :=
  if payload.length ≤ maxWord then some (chunkCommands t payload) else none

/-! ### The raster (R215) -/

/-- The raster as the driver sees it: width, height and a flat byte sequence (R215). -/
structure Raster where
  width : Nat
  height : Nat
  flat : List Byte
  deriving DecidableEq, Repr

/-- The stride invariant: `len(flat) = 4 * W * H` (R215). -/
def Raster.contiguous (r : Raster) : Bool := r.flat.length == bytesPerPixel * r.width * r.height

/-- `px(r, c)`: the four bytes of `flat` at offset `4 * (r * W + c)`, in the order r, g, b, a (R215). -/
def Raster.pixel (r : Raster) (row col : Nat) : List Byte :=
  (r.flat.drop (bytesPerPixel * (row * r.width + col))).take bytesPerPixel

/-- A row buffer: the filter byte, then the row's pixel bytes (R16, R206). -/
def Raster.rowBuffer (r : Raster) (row : Nat) : List Byte :=
  filterByte :: (List.range r.width).flatMap (r.pixel row)

/-- All row buffers, top to bottom (R206). -/
def Raster.rowBuffers (r : Raster) : List (List Byte) := (List.range r.height).map r.rowBuffer

/-- `bpr = 4 * W + 1` (R204). -/
def Raster.bytesPerRow (r : Raster) : Nat := bytesPerPixel * r.width + 1

/-- `k = ceil(bpr / 65535)` (R204). -/
def Raster.blocksPerRow (r : Raster) : Nat := rowBlocks r.bytesPerRow

/-- `L = 2 + H * (bpr + 5 * k) + 4` (R204). -/
def Raster.idatLength (r : Raster) : Nat :=
  2 + r.height * (r.bytesPerRow + blockOverhead * r.blocksPerRow) + 4

/-- The preconditions of `IDAT` (R205): non-empty, contiguous, the row length and the payload length fit 32 bits. -/
def Raster.accepted (r : Raster) : Bool :=
  decide (1 ≤ r.width) && decide (1 ≤ r.height) && r.contiguous && decide (r.bytesPerRow ≤ maxWord) &&
    decide (r.idatLength ≤ maxWord)

/-! ### IDAT and ENCODE -/

/-- The commands of one row: ROW_OPEN or ROW_OPEN_LAST, then a ROW_DATA a byte (R206). -/
def rowCommands (last : Bool) (row : List Byte) : List Instr :=
  (if last then Instr.rowOpenLast (BitVec.ofNat 32 row.length) else Instr.rowOpen (BitVec.ofNat 32 row.length)) ::
    row.map .rowData

/-- The commands of a list of rows, the last one opened by ROW_OPEN_LAST (R179, R206). -/
def rowsCommands (rows : List (List Byte)) : List Instr :=
  match rows with
  | [] => []
  | [row] => rowCommands true row
  | row :: rest => rowCommands false row ++ rowsCommands rest

/-- The commands of a zlib stream: ZLIB_OPEN, the rows, ZLIB_CLOSE (R179). -/
def streamCommands (rows : List (List Byte)) : List Instr := .zlibOpen :: rowsCommands rows ++ [.zlibClose]

/-- The commands of `IDAT(W, H, px)` once its preconditions hold (R206). -/
def idatCommands (r : Raster) : List Instr :=
  [.chunkOpen (BitVec.ofNat 32 r.idatLength), .chunkTag tagIDAT.t0 tagIDAT.t1 tagIDAT.t2 tagIDAT.t3] ++
    streamCommands r.rowBuffers ++ [.chunkClose]

/-- `IDAT(W, H, px)` (R205, R206). -/
def idatMacro (r : Raster) : Option (List Instr) := if r.accepted then some (idatCommands r) else none

/-- `IHDR(W, H)` (R210). -/
def ihdrCommands (width height : Nat) : List Instr :=
  [.chunkOpen 13, .chunkTag tagIHDR.t0 tagIHDR.t1 tagIHDR.t2 tagIHDR.t3, .putBe32 (BitVec.ofNat 32 width),
    .putBe32 (BitVec.ofNat 32 height), .putByte 8, .putByte 6, .putByte 0, .putByte 0, .putByte 0, .chunkClose]

/-- The IHDR payload (R85, R210). -/
def ihdrPayload (width height : Nat) : List Byte :=
  be32 (BitVec.ofNat 32 width) ++ be32 (BitVec.ofNat 32 height) ++ [8, 6, 0, 0, 0]

/-- The six bytes of BKGD in the order given (R211). -/
def bkgdBytes (k : Bkgd) : List Byte := [k.red0, k.red1, k.green0, k.green1, k.blue0, k.blue1]

/-- The commands of `ENCODE(W, H, px)` once its preconditions hold (R209). -/
def encodeCommands (k : Bkgd) (r : Raster) : List Instr :=
  signature.map .putByte ++ ihdrCommands r.width r.height ++ chunkCommands tagSRGB [0] ++
    chunkCommands tagBKGD (bkgdBytes k) ++ idatCommands r ++ chunkCommands tagIEND []

/-- `ENCODE(W, H, px)` (R208, R209): its preconditions are those of `IDAT`, and the height fits its field. -/
def encodeMacro (k : Bkgd) (r : Raster) : Option (List Instr) :=
  if r.accepted && decide (r.height ≤ maxWord) then some (encodeCommands k r) else none

/-- The command words the driver issues for a list of commands (R200). -/
def wordsOf (cmds : List Instr) : List CmdWord := cmds.map encode

/-- The driver issues command words in order, one at a time (R200 (c)): a word, then the step that executes it (R276: no
second command before the first has completed), then STATUS; it stops at the first command that raises a fault, and the
words after that one are never issued. The answer is the state it leaves; where the model itself stops (assumption log
entry 6), that stop. -/
def issueInOrder (ws : List CmdWord) (s : State) : Host.Outcome State Fault Refusal :=
  match ws with
  | [] => .next s
  | w :: rest =>
    match step (hostIssue w s) with
    | .next t => if halted t then .next t else issueInOrder rest t
    | .fault r => .fault r
    | .refused r => .refused r

/-- The driver runs a macro-operation (R200): when a precondition fails it issues no command and reports
PreconditionViolation, here `none`; else it issues the listed commands in order. -/
def driverIssue (expansion : Option (List Instr)) (s : State) : Option (Host.Outcome State Fault Refusal) :=
  expansion.map fun cmds => issueInOrder (wordsOf cmds) s

/-! ### What the macros are to produce (R85, R204) -/

/-- The bytes of the IDAT chunk of a raster (R84, R207). -/
def idatBytes (zhdr0 zhdr1 : Byte) (r : Raster) : List Byte := chunkBytes tagIDAT (zlibBytes zhdr0 zhdr1 r.rowBuffers)

/-- The bytes of the whole image (R85). -/
def imageBytes (zhdr0 zhdr1 : Byte) (k : Bkgd) (r : Raster) : List Byte :=
  signature ++ chunkBytes tagIHDR (ihdrPayload r.width r.height) ++ chunkBytes tagSRGB [0] ++
    chunkBytes tagBKGD (bkgdBytes k) ++ idatBytes zhdr0 zhdr1 r ++ chunkBytes tagIEND []

end Sys2Proof.Machine
end

