-- ==== Sys2Proof/Safety.lean ====
section
/-!
DEFINITION. The terms claims about the core are stated in: the sink's answers ahead (20_memory.md rule R58), what an IO
fault leaves (60_exceptions.md rule R242), the invariant of reachable states (10_state.md rule R40), running a list of
commands, and the end of a run with its observation (70_reset_and_hazards.md rule R275).
-/

namespace Sys2Proof.Machine

/-! ### The sink -/

/-- The sink accepts the next `n` bytes (R58). -/
def SinkTakes (n : Nat) (s : State) : Prop := ∀ k, k < n → sinkAccepts s (s.out.length + k) = true

/-- The sink accepts the next `k` bytes and refuses the one after them (R58). -/
def SinkFailsAt (k : Nat) (s : State) : Prop :=
  SinkTakes k s ∧ sinkAccepts s (s.out.length + k) = false

/-- The sink accepts every byte from here on (R58). -/
def SinkTakesAll (s : State) : Prop := ∀ n, SinkTakes n s

/-! ### Faults -/

/-- What a fault of code 1 to 4 leaves: `fault` alone has changed (R241). -/
def trapped (c : FaultCode) (s : State) : State := { s with fault := c }

/-- What an IO fault leaves defined, after `bytes` were accepted: fault 5, the accepted bytes, `pc`, and what is not the
core's. It says NOTHING of the other registers (R242). -/
def IoStopped (bytes : List Byte) (s t : State) : Prop :=
  t.fault = .io ∧ t.out = s.out ++ bytes ∧ t.pc = s.pc ∧ t.prog = s.prog ∧ t.cfg = s.cfg

/-- Instruction `i` at `s` emits `bytes`: where the sink takes them all it answers `good`; where the sink refuses one, it
answers a state stopped by IO with the bytes before that one (R55, R62, R242). -/
def EmitsOrStops (i : Instr) (s : State) (bytes : List Byte) (good : State) : Prop :=
  (SinkTakes bytes.length s → exec i s = .next good) ∧
    ∀ k, k < bytes.length → SinkFailsAt k s → ∃ t, exec i s = .next t ∧ IoStopped (bytes.take k) s t

/-! ### What a run of emitted bytes leaves -/

/-- `bytes` accepted as raw bytes: only `out` changes (R55). -/
def sentRaw (bytes : List Byte) (s : State) : State := { s with out := s.out ++ bytes }

/-- `bytes` accepted as tag bytes: `crc` is fed, nothing is counted (R152). -/
def sentTag (bytes : List Byte) (s : State) : State :=
  { s with out := s.out ++ bytes, crc := crcRun s.crc bytes }

/-- `bytes` accepted as payload bytes: `crc` is fed and `remain` counts each (R56). -/
def sentPay (bytes : List Byte) (s : State) : State :=
  { s with
    out := s.out ++ bytes
    crc := crcRun s.crc bytes
    remain := s.remain - BitVec.ofNat 32 bytes.length }

/-! ### The invariant of reachable states -/

/-- Rule R40, for every state the core can be in whose registers are specified (no IO fault), with the bound of `pc`
(R275). Clause (ii), the five phases, holds by the type. -/
structure Inv (s : State) : Prop where
  /-- R40 (i), R23. -/
  adlerRange : s.fault ≠ .io → s.a.toNat ≤ 65520 ∧ s.b.toNat ≤ 65520
  /-- R40 (iii), the open block lies inside the open row. -/
  segInRow : s.fault ≠ .io → s.phase = .row → 1 ≤ s.segrem.toNat ∧ s.segrem.toNat ≤ s.rowrem.toNat
  /-- R40 (iii), the chunk owes at least the row and its headers to come. -/
  rowFits : s.fault ≠ .io → s.phase = .row →
    s.rowrem.toNat + 5 * ceilDiv (s.rowrem.toNat - s.segrem.toNat) 65535 ≤ s.remain.toNat
  /-- R40 (iv). -/
  noRowOpen : s.fault ≠ .io → s.phase ≠ .row → s.rowrem = 0#32 ∧ s.segrem = 0#16
  /-- R40 (v). -/
  finalSeen : s.fault ≠ .io → s.phase = .row →
    (s.zfinal = true ↔ (s.rowlast = true ∧ s.rowrem.toNat - s.segrem.toNat = 0))
  /-- R40 (vi), for every state in IDLE: `remain` is 0 from reset and after each CHUNK_CLOSE. -/
  idleOwesNothing : s.fault ≠ .io → s.phase = .idle → s.remain = 0#32
  /-- The index of the next command is inside the stream or at its end (R275). -/
  pcInStream : s.pc ≤ s.prog.length

/-! ### The fault tables of the spec, written apart from the meanings -/

/-- The matrix of rule R233, row by row: whether the command passes the phase check. -/
def phaseAllows (i : Instr) (p : Phase) (zfinal : Bool) : Bool :=
  match i with
  | .crcInit | .crcByte _ | .crcFinal | .adlerInit | .adlerByte _ | .adlerFinal => decide (p = .idle)
  | .putByte _ | .putBe32 _ | .putLen16c _ => decide (p = .idle ∨ p = .payload)
  | .chunkOpen _ => decide (p = .idle)
  | .chunkTag _ _ _ _ => decide (p = .tag)
  | .chunkClose => decide (p = .payload)
  | .zlibOpen => decide (p = .payload)
  | .rowOpen _ | .rowOpenLast _ => decide (p = .zstream ∧ zfinal = false)
  | .rowData _ => decide (p = .row)
  | .zlibClose => decide (p = .zstream ∧ zfinal = true)

/-- The two cases of rule R234. -/
def rangeRefuses (i : Instr) : Bool :=
  match i with
  | .putLen16c v => decide (65535 < v.toNat)
  | .rowOpen n | .rowOpenLast n => decide (n.toNat = 0)
  | .crcInit | .crcByte _ | .crcFinal | .adlerInit | .adlerByte _ | .adlerFinal | .putByte _ | .putBe32 _
  | .chunkOpen _ | .chunkTag _ _ _ _ | .chunkClose | .zlibOpen | .rowData _ | .zlibClose => false

/-- The table of rule R235. -/
def lengthRefuses (i : Instr) (s : State) : Bool :=
  match i with
  | .putByte _ => decide (s.phase = .payload ∧ s.remain.toNat < 1)
  | .putBe32 _ | .putLen16c _ => decide (s.phase = .payload ∧ s.remain.toNat < 4)
  | .zlibOpen => decide (s.remain.toNat < 2)
  | .rowOpen n | .rowOpenLast n => decide (s.remain.toNat < n.toNat + 5 * ceilDiv n.toNat 65535)
  | .zlibClose => decide (s.remain.toNat < 4)
  | .chunkClose => decide (s.remain.toNat ≠ 0)
  | .crcInit | .crcByte _ | .crcFinal | .adlerInit | .adlerByte _ | .adlerFinal | .chunkOpen _
  | .chunkTag _ _ _ _ | .rowData _ => false

/-- The code the checks made before any emission report, in the order PHASE, RANGE, LENGTH (R239); none when all pass. -/
def precheck (i : Instr) (s : State) : FaultCode :=
  if phaseAllows i s.phase s.zfinal = false then .phase
  else if rangeRefuses i then .range
  else if lengthRefuses i s then .length
  else .none

/-! ### The bytes of a command -/

/-- The header ROW_DATA opens when it fills a block and the row goes on (R173, R175): its length and flag come from the
bytes the row still owes after this one. -/
def nextHeader (s : State) : List Byte :=
  blockHeader (s.rowlast && decide (s.rowrem.toNat - 1 ≤ 65535)) (min (s.rowrem.toNat - 1) 65535)

/-- The bytes a command appends to `out` when it completes (R78, and each command's rule), the first at position
`len(out)`. -/
def emittedBytes (i : Instr) (s : State) : List Byte :=
  match i with
  | .crcInit | .crcByte _ | .crcFinal | .adlerInit | .adlerByte _ | .adlerFinal => []
  | .putByte x => [x]
  | .putBe32 v => be32 v
  | .putLen16c v => len16c (v.setWidth 16)
  | .chunkOpen len => be32 len
  | .chunkTag t0 t1 t2 t3 => [t0, t1, t2, t3]
  | .chunkClose => be32 (~~~s.crc)
  | .zlibOpen => [s.cfg.zhdr0, s.cfg.zhdr1]
  | .rowOpen n => blockHeader false (min n.toNat 65535)
  | .rowOpenLast n => blockHeader (decide (n.toNat ≤ 65535)) (min n.toNat 65535)
  | .rowData x => x :: (if 2 ≤ s.rowrem.toNat ∧ s.segrem.toNat = 1 then nextHeader s else [])
  | .zlibClose => be32 ((s.b <<< 16) ||| s.a)

/-- The "emits" column of rule R78. -/
def emitCounts (i : Instr) : List Nat :=
  match i with
  | .crcInit | .crcByte _ | .crcFinal | .adlerInit | .adlerByte _ | .adlerFinal => [0]
  | .putByte _ => [1]
  | .putBe32 _ | .putLen16c _ | .chunkOpen _ | .chunkTag _ _ _ _ | .chunkClose | .zlibClose => [4]
  | .zlibOpen => [2]
  | .rowOpen _ | .rowOpenLast _ => [5]
  | .rowData _ => [1, 6]

/-! ### Running a list of commands -/

/-- Execute a list of commands in order (R51, R65). A command after a fault is ignored by the halted core (R243). -/
def execAll (cmds : List Instr) (s : State) : Host.Outcome State Fault Refusal :=
  match cmds with
  | [] => .next s
  | i :: rest =>
    match exec i s with
    | .next t => execAll rest t
    | .fault r => .fault r
    | .refused r => .refused r

/-! ### The end of a run (R275) -/

/-- The run has completed: every command has taken effect. -/
def Completed (s : State) : Prop := s.pc = s.prog.length ∧ s.fault = .none

/-- The run has faulted. -/
def Faulted (s : State) : Prop := s.fault ≠ .none

/-- The run has completed and no chunk is left open. -/
def WellFormedRun (s : State) : Prop := Completed s ∧ s.phase = .idle

/-- How a run stands: still going, completed, or faulted with its code and command index. -/
inductive RunEnd where
  | running
  | completed
  | faulted (code : FaultCode) (pc : Nat)
  deriving DecidableEq, Repr

/-- The observation of a run (R19, R275): the output, the eight host registers, and how it stands. -/
structure Observation where
  out : List Byte
  registers : List Word
  ended : RunEnd
  deriving DecidableEq, Repr

/-- The observation of the run that has reached `s`. -/
def observe (s : State) : Observation where
  out := s.out
  registers := (List.range 8).map (hostRead · s)
  ended := if s.fault ≠ .none then .faulted s.fault s.pc else if s.pc = s.prog.length then .completed else .running

end Sys2Proof.Machine
end

