-- ==== Sys2Proof/Certificates/Slice0/Obligations.lean ====
section
/-!
DEFINITION. The statements for the provers, one `def Obligations.<Name> : Prop` each. Each docstring names the rule of
spec/ it formalises.
-/

open Sys2Proof Sys2Proof.Machine

/-! ### Encoding -/

/-- Words of the listings of 95_test_vectors.md (rule R77's form), one or more a family, decode to the commands they stand
for: a sanity statement. -/
def Obligations.ListedWordsDecode : Prop :=
  decode 0x1000000000#40 = some .crcInit ∧ decode 0x1100000031#40 = some (.crcByte 0x31#8) ∧
    decode 0x1200000000#40 = some .crcFinal ∧ decode 0x21000000FF#40 = some (.adlerByte 0xFF#8) ∧
    decode 0x2200000000#40 = some .adlerFinal ∧ decode 0x3000000089#40 = some (.putByte 0x89#8) ∧
    decode 0x310A0B0C0D#40 = some (.putBe32 0x0A0B0C0D#32) ∧ decode 0x3200010000#40 = some (.putLen16c 0x10000#32) ∧
    decode 0x400000000D#40 = some (.chunkOpen 13#32) ∧
    decode 0x4149484452#40 = some (.chunkTag 0x49#8 0x48#8 0x44#8 0x52#8) ∧
    decode 0x4200000000#40 = some .chunkClose ∧ decode 0x5000000000#40 = some .zlibOpen ∧
    decode 0x5100000009#40 = some (.rowOpen 9#32) ∧ decode 0x5200000009#40 = some (.rowOpenLast 9#32) ∧
    decode 0x53000000FF#40 = some (.rowData 0xFF#8) ∧ decode 0x5400000000#40 = some .zlibClose

/-- Decoding an encoded command gives it back, for every command and every operand (R70 to R79). -/
def Obligations.DecodeOfEncode : Prop := ∀ i : Instr, decode (encode i) = some i

/-- Every word has at most one meaning: a word that decodes to a command is that command's word (R78, R87). -/
def Obligations.EncodeOfDecode : Prop := ∀ (w : CmdWord) (i : Instr), decode w = some i → encode i = w

/-- The decoder is the match and mask map: a word is the command of a row exactly when `w & mask = match`, and the rows are
pairwise disjoint; a command that completes appends the number of bytes its row says (R78). -/
def Obligations.DecoderIsTheOpcodeMap : Prop :=
  (∀ (w : CmdWord) (r : OpcodeRow), r ∈ opcodeRows →
    (r.covers w = true ↔ ∃ i, decode w = some i ∧ mnemonicOf i = r.mnemonic)) ∧
  (∀ w : CmdWord, (∀ r ∈ opcodeRows, r.covers w = false) → decode w = none) ∧
  (∀ (w : CmdWord) (r q : OpcodeRow), r ∈ opcodeRows → q ∈ opcodeRows → r.covers w = true → q.covers w = true → r = q) ∧
  ∀ (i : Instr) (s t : State), s.fault = .none → exec i s = .next t → t.fault = .none →
    ∃ n ∈ emitCounts i, t.out.length = s.out.length + n

/-- A word is illegal exactly when its opcode is not one of the 17 or it has a reserved operand bit set, and executing an
illegal word raises ILLEGAL and does nothing else, in every phase (R86, R232). -/
def Obligations.IllegalWords : Prop :=
  (∀ w : CmdWord, decode w = none ↔ wellFormedWord w = false) ∧
  (∀ (s : State) (w : CmdWord), s.fault = .none → fetch s = some w → decode w = none →
    step s = .next { s with fault := .illegal }) ∧
  decode 0x0000000000#40 = none ∧ decode 0xFFFFFFFFFF#40 = none ∧ decode 0xFF00000000#40 = none ∧
    decode 0x1000000001#40 = none ∧ decode 0x1100000100#40 = none

/-- `BE32` is most significant byte first, `LEN16C` is low byte first and then the complements, byte by byte (R80, R81);
the bytes read back as the number, and each length byte and its complement add to 255 (R134). -/
def Obligations.SerializedBytes : Prop :=
  (∀ v : Word, (be32 v).map BitVec.toNat =
    [v.toNat / 256 ^ 3 % 256, v.toNat / 256 ^ 2 % 256, v.toNat / 256 % 256, v.toNat % 256]) ∧
  (∀ v : Half, (len16c v).map BitVec.toNat =
    [v.toNat % 256, v.toNat / 256 % 256, 255 - v.toNat % 256, 255 - v.toNat / 256 % 256]) ∧
  be32 13#32 = [0x00#8, 0x00#8, 0x00#8, 0x0D#8] ∧ be32 0xCBF43926#32 = [0xCB#8, 0xF4#8, 0x39#8, 0x26#8] ∧
  len16c 9#16 = [0x09#8, 0x00#8, 0xF6#8, 0xFF#8] ∧ len16c 0x1234#16 = [0x34#8, 0x12#8, 0xCB#8, 0xED#8] ∧
  (∀ (v : Word) (s0 s1 s2 s3 : Byte), be32 v = [s0, s1, s2, s3] →
    256 ^ 3 * s0.toNat + 256 ^ 2 * s1.toNat + 256 * s2.toNat + s3.toNat = v.toNat) ∧
  ∀ (v : Half) (s0 s1 s2 s3 : Byte), len16c v = [s0, s1, s2, s3] →
    s0.toNat + 256 * s1.toNat = v.toNat ∧ s0.toNat + s2.toNat = 255 ∧ s1.toNat + s3.toNat = 255


/-! ### Steps, reset, the host -/

/-- When the word at `pc` decodes to a command, step is exec of it, and nothing is added around it; an illegal word
and (model's choice, log entry 8) a core without a further word are the other cases. -/
def Obligations.StepRunsTheDecodedCommand : Prop :=
  (∀ (s : State) (w : CmdWord) (i : Instr), s.prog[s.pc]? = some w → decode w = some i → step s = exec i s) ∧
  (∀ (s : State) (w : CmdWord), s.prog[s.pc]? = some w → decode w = none → s.fault = .none →
    step s = .next { s with fault := .illegal }) ∧
  (∀ s : State, s.prog[s.pc]? = none → step s = .next s)

/-- While `fault` is not NONE every command is accepted and ignored: the step is the identity (R243). -/
def Obligations.HaltedCoreIgnoresCommands : Prop :=
  ∀ s : State, s.fault ≠ .none → step s = .next s ∧ ∀ i : Instr, exec i s = .next s

/-- Every register after reset, and the first command executed is the first the host issues (R39). -/
def Obligations.ResetValues : Prop :=
  State.reset.crc = 0xFFFFFFFF#32 ∧ State.reset.a = 1#32 ∧ State.reset.b = 0#32 ∧ State.reset.result = 0#32 ∧
    State.reset.phase = .idle ∧ State.reset.zfinal = false ∧ State.reset.rowlast = false ∧
    State.reset.remain = 0#32 ∧ State.reset.rowrem = 0#32 ∧ State.reset.segrem = 0#16 ∧
    State.reset.fault = .none ∧ State.reset.pc = 0 ∧ State.reset.out = [] ∧
    ∀ (w : CmdWord) (ws : List CmdWord) (i : Instr), decode w = some i →
      step (hostIssueAll (w :: ws) State.reset) = exec i (hostIssueAll (w :: ws) State.reset)

/-- The host's reset is total and unconditional: from every state, also a faulted one, every register takes its reset
value, `pc` becomes 0 and `out` empty (R260). That the parameters stay and the command stream is empty is the model's
choice (log entries 1, 2, 3, 10). -/
def Obligations.HostResetIsTotal : Prop :=
  ∀ s : State, hostReset s = { State.reset with cfg := s.cfg, draws := s.draws } ∧ (hostReset s).fault = .none ∧
    (hostReset s).pc = 0 ∧ (hostReset s).out = [] ∧ (hostReset s).crc = 0xFFFFFFFF#32 ∧ (hostReset s).a = 1#32 ∧
    (hostReset s).b = 0#32 ∧ (hostReset s).result = 0#32 ∧ (hostReset s).phase = .idle ∧
    (hostReset s).zfinal = false ∧ (hostReset s).rowlast = false ∧ (hostReset s).remain = 0#32 ∧
    (hostReset s).rowrem = 0#32 ∧ (hostReset s).segrem = 0#16

/-- STATUS, all fields, its value after reset and the two examples of the rule (R33). The FAULT field in every state; the
other fields wherever they are specified, that is in every state but after an IO fault (R34). -/
def Obligations.StatusFields : Prop :=
  (∀ s : State,
    (s.fault = .none → (hostRead 0 s).extractLsb' 5 3 = 0#3) ∧ (s.fault = .illegal → (hostRead 0 s).extractLsb' 5 3 = 1#3) ∧
    (s.fault = .phase → (hostRead 0 s).extractLsb' 5 3 = 2#3) ∧ (s.fault = .range → (hostRead 0 s).extractLsb' 5 3 = 3#3) ∧
    (s.fault = .length → (hostRead 0 s).extractLsb' 5 3 = 4#3) ∧ (s.fault = .io → (hostRead 0 s).extractLsb' 5 3 = 5#3)) ∧
  (∀ s : State, s.fault ≠ .io →
    (s.phase = .idle → (hostRead 0 s).extractLsb' 0 3 = 0#3) ∧ (s.phase = .tag → (hostRead 0 s).extractLsb' 0 3 = 1#3) ∧
    (s.phase = .payload → (hostRead 0 s).extractLsb' 0 3 = 2#3) ∧
    (s.phase = .zstream → (hostRead 0 s).extractLsb' 0 3 = 3#3) ∧ (s.phase = .row → (hostRead 0 s).extractLsb' 0 3 = 4#3) ∧
    (hostRead 0 s).getLsbD 3 = s.zfinal ∧ (hostRead 0 s).getLsbD 4 = s.rowlast ∧
    (hostRead 0 s).extractLsb' 8 24 = 0#24) ∧
  hostRead 0 State.reset = 0#32 ∧
  (∀ s : State, s.phase = .row → s.zfinal = true → s.rowlast = true → s.fault = .none → hostRead 0 s = 0x1C#32) ∧
  ∀ s : State, s.phase = .idle → s.zfinal = false → s.rowlast = false → s.fault = .range → hostRead 0 s = 0x60#32

/-- The host registers 1 to 7 and the numbers above (the table of R32). That they show the registers after an IO fault too,
where both are unspecified (R34), and SEGREM zeros above bit 15 there, is the model's choice (log entry 4). -/
def Obligations.HostRegisterNumbers : Prop :=
  ∀ s : State, hostRead 1 s = s.result ∧ hostRead 2 s = s.crc ∧ hostRead 3 s = s.a ∧ hostRead 4 s = s.b ∧
    hostRead 5 s = s.remain ∧ hostRead 6 s = s.rowrem ∧ (hostRead 7 s).toNat = s.segrem.toNat ∧
    ∀ n, 8 ≤ n → hostRead n s = 0#32

/-! ### The checksum engines -/

/-- Every entry of the table ROM is the one the loop of rule R101 derives. -/
def Obligations.TableIsDerived : Prop := ∀ i : Byte, tableEntry i = derivedEntry i

/-- `crc_step` is the table formula, equals the eight conditional shifts of `c ^ x` without the table, and has the values
of the rule's examples (R103). -/
def Obligations.CrcStepWithoutTable : Prop :=
  (∀ (c : Word) (x : Byte), crcStep c x = tableEntry (c.setWidth 8 ^^^ x) ^^^ (c >>> 8)) ∧
  (∀ (c : Word) (x : Byte), crcStep c x = crcShifts 8 (c ^^^ x.setWidth 32)) ∧
  crcStep 0xFFFFFFFF#32 0x31#8 = 0x7C231048#32 ∧ crcStep 0#32 0#8 = 0#32 ∧ crcStep 0#32 1#8 = 0x77073096#32 ∧
  crcStep 0xFFFFFFFF#32 0#8 = 0x2DFD1072#32 ∧ crcStep 0xFFFFFFFF#32 0xFF#8 = 0x00FFFFFF#32 ∧
  crcStep 0x12345678#32 0x9A#8 = 0x4E16B702#32

/-- The CRC32 macro: CRC_INIT, a CRC_BYTE a byte, CRC_FINAL leaves `result = crc32(s)`, `crc` the running state, and
nothing else changed; feeding in pieces is feeding whole (R108, R201). -/
def Obligations.Crc32OfByteSequence : Prop :=
  (∀ (s : State) (bytes : List Byte), s.fault = .none → s.phase = .idle →
    execAll (crc32Macro bytes) s =
      .next { s with
        crc := crcRun 0xFFFFFFFF#32 bytes
        result := ~~~(crcRun 0xFFFFFFFF#32 bytes)
        pc := s.pc + bytes.length + 2 }) ∧
  (∀ bytes : List Byte, (crc32Macro bytes).length = bytes.length + 2) ∧
  wordsOf (crc32Macro [0x31#8, 0x32#8]) = [0x1000000000#40, 0x1100000031#40, 0x1100000032#40, 0x1200000000#40] ∧
  crc32 [0x31#8, 0x32#8, 0x33#8, 0x34#8, 0x35#8, 0x36#8, 0x37#8, 0x38#8, 0x39#8] = 0xCBF43926#32 ∧
  (∀ bytes : List Byte, crc32 bytes = ~~~(crcRun 0xFFFFFFFF#32 bytes)) ∧
  (∀ c : Word, crcRun c [] = c) ∧
  (∀ (c : Word) (x : Byte) (t : List Byte), crcRun c (x :: t) = crcRun (crcStep c x) t) ∧
  ∀ (c : Word) (s t : List Byte), crcRun c (s ++ t) = crcRun (crcRun c s) t

/-- One Adler step on sums in range is the two sums modulo 65521, the second with the new first; the results are in range
and no intermediate wraps (R111, R112). -/
def Obligations.AdlerStepInRange : Prop :=
  ∀ (a b : Word) (x : Byte), a.toNat ≤ 65520 → b.toNat ≤ 65520 →
    (adlerStep { a := a, b := b } x).a.toNat = (a.toNat + x.toNat) % 65521 ∧
    (adlerStep { a := a, b := b } x).b.toNat = (b.toNat + (adlerStep { a := a, b := b } x).a.toNat) % 65521 ∧
    (adlerStep { a := a, b := b } x).a.toNat ≤ 65520 ∧ (adlerStep { a := a, b := b } x).b.toNat ≤ 65520 ∧
    a.toNat + x.toNat ≤ 65775 ∧ b.toNat + (adlerStep { a := a, b := b } x).a.toNat ≤ 131040 ∧
    adlerStep { a := 65520#32, b := 65520#32 } 255#8 = { a := 254#32, b := 253#32 } ∧
    adlerStep { a := 65266#32, b := 65520#32 } 255#8 = { a := 0#32, b := 65520#32 }

/-- The ADLER32 macro: ADLER_INIT, an ADLER_BYTE a byte, ADLER_FINAL leaves `result = adler32(s)`, the sums in `a`, `b`,
and nothing else changed (R202). -/
def Obligations.Adler32OfByteSequence : Prop :=
  (∀ (s : State) (bytes : List Byte), s.fault = .none → s.phase = .idle →
    execAll (adler32Macro bytes) s =
      .next { s with
        a := (adlerRun { a := 1#32, b := 0#32 } bytes).a
        b := (adlerRun { a := 1#32, b := 0#32 } bytes).b
        result := adler32 bytes
        pc := s.pc + bytes.length + 2 }) ∧
  (∀ bytes : List Byte, (adler32Macro bytes).length = bytes.length + 2) ∧
  adler32 [0#8, 255#8, 0#8, 0#8, 255#8, 0#8, 255#8, 0#8, 255#8] = 0x10F803FD#32 ∧
  adlerRun { a := 1#32, b := 0#32 } [0#8, 255#8, 0#8, 0#8, 255#8, 0#8, 255#8, 0#8, 255#8] =
    { a := 1021#32, b := 4344#32 }

/-- The Adler-32 of a byte sequence (R116): the sums fold the step over the bytes; the closed form of the sums (`a` is one
plus the sum of the bytes, `b` is the length plus the bytes weighted by how many are left, both modulo 65521); the checksum
is `65536 * b + a`, and the three commands leave it in `result`; feeding in pieces is feeding whole. -/
def Obligations.AdlerClosedForm : Prop :=
  (∀ p : AdlerPair, adlerRun p [] = p) ∧
  (∀ (p : AdlerPair) (x : Byte) (t : List Byte), adlerRun p (x :: t) = adlerRun (adlerStep p x) t) ∧
  (∀ (p : AdlerPair) (s t : List Byte), adlerRun p (s ++ t) = adlerRun (adlerRun p s) t) ∧
  (∀ (s : State) (bytes : List Byte), s.fault = .none → s.phase = .idle →
    ∃ t, execAll (.adlerInit :: bytes.map .adlerByte ++ [.adlerFinal]) s = .next t ∧ t.result = adler32 bytes) ∧
  ∀ bytes : List Byte,
    (adlerRun { a := 1#32, b := 0#32 } bytes).a.toNat = (1 + (bytes.map BitVec.toNat).sum) % 65521 ∧
    (adlerRun { a := 1#32, b := 0#32 } bytes).b.toNat =
      (bytes.length +
        ((List.range bytes.length).map fun k => (bytes.length - k) * (bytes.getD k 0#8).toNat).sum) % 65521 ∧
    (adler32 bytes).toNat =
      65536 * (adlerRun { a := 1#32, b := 0#32 } bytes).b.toNat + (adlerRun { a := 1#32, b := 0#32 } bytes).a.toNat

/-! ### The direct checksum commands -/

/-- A format-N opcode with a non-zero operand is illegal (R73). -/
def Sys2Proof.NeedsZeroOperand (opcode : Byte) : Prop :=
  ∀ operand : Word, operand ≠ 0#32 → decode (opcode ++ operand) = none

/-- A format-B opcode with a bit of operand[31:8] set is illegal (R74). -/
def Sys2Proof.NeedsByteOperand (opcode : Byte) : Prop :=
  ∀ operand : Word, 256 ≤ operand.toNat → decode (opcode ++ operand) = none

/-- CRC_INIT (R105): its word, its effect in IDLE, PHASE elsewhere, ILLEGAL with an operand. -/
def Obligations.CrcInitCommand : Prop :=
  encode .crcInit = 0x1000000000#40 ∧ decode 0x1000000000#40 = some .crcInit ∧ NeedsZeroOperand 0x10#8 ∧
  (∀ s : State, s.fault = .none → s.phase = .idle →
    exec .crcInit s = .next { s with crc := 0xFFFFFFFF#32, pc := s.pc + 1 }) ∧
  ∀ s : State, s.fault = .none → s.phase ≠ .idle → exec .crcInit s = .next { s with fault := .phase }

/-- CRC_BYTE x (R106). -/
def Obligations.CrcByteCommand : Prop :=
  (∀ x : Byte, encode (.crcByte x) = 0x11#8 ++ 0#24 ++ x ∧ decode (0x11#8 ++ 0#24 ++ x) = some (.crcByte x)) ∧
  NeedsByteOperand 0x11#8 ∧
  (∀ (s : State) (x : Byte), s.fault = .none → s.phase = .idle →
    exec (.crcByte x) s = .next { s with crc := crcStep s.crc x, pc := s.pc + 1 }) ∧
  crcStep 0xFFFFFFFF#32 0x31#8 = 0x7C231048#32 ∧ crcStep 0xFFFFFFFF#32 0#8 = 0x2DFD1072#32 ∧
  ∀ (s : State) (x : Byte), s.fault = .none → s.phase ≠ .idle →
    exec (.crcByte x) s = .next { s with fault := .phase }

/-- CRC_FINAL (R107): `result` takes the complement, `crc` stays. -/
def Obligations.CrcFinalCommand : Prop :=
  encode .crcFinal = 0x1200000000#40 ∧ decode 0x1200000000#40 = some .crcFinal ∧ NeedsZeroOperand 0x12#8 ∧
  (∀ s : State, s.fault = .none → s.phase = .idle →
    exec .crcFinal s = .next { s with result := ~~~s.crc, pc := s.pc + 1 }) ∧
  ∀ s : State, s.fault = .none → s.phase ≠ .idle → exec .crcFinal s = .next { s with fault := .phase }

/-- ADLER_INIT (R113). -/
def Obligations.AdlerInitCommand : Prop :=
  encode .adlerInit = 0x2000000000#40 ∧ decode 0x2000000000#40 = some .adlerInit ∧ NeedsZeroOperand 0x20#8 ∧
  (∀ s : State, s.fault = .none → s.phase = .idle →
    exec .adlerInit s = .next { s with a := 1#32, b := 0#32, pc := s.pc + 1 }) ∧
  ∀ s : State, s.fault = .none → s.phase ≠ .idle → exec .adlerInit s = .next { s with fault := .phase }

/-- ADLER_BYTE x (R114), the step said on natural numbers for sums in range (R112), and as the model's step in every
state. -/
def Obligations.AdlerByteCommand : Prop :=
  (∀ x : Byte, encode (.adlerByte x) = 0x21#8 ++ 0#24 ++ x ∧ decode (0x21#8 ++ 0#24 ++ x) = some (.adlerByte x)) ∧
  NeedsByteOperand 0x21#8 ∧
  (∀ (s : State) (x : Byte), s.fault = .none → s.phase = .idle → s.a.toNat ≤ 65520 → s.b.toNat ≤ 65520 →
    exec (.adlerByte x) s =
      .next { s with
        a := BitVec.ofNat 32 ((s.a.toNat + x.toNat) % 65521)
        b := BitVec.ofNat 32 ((s.b.toNat + (s.a.toNat + x.toNat) % 65521) % 65521)
        pc := s.pc + 1 }) ∧
  ∀ (s : State) (x : Byte), s.fault = .none → s.phase ≠ .idle →
    exec (.adlerByte x) s = .next { s with fault := .phase }

/-- ADLER_FINAL (R115): `result` is `(b << 16) | a`; for sums in range it is the number `65536 * b + a`. -/
def Obligations.AdlerFinalCommand : Prop :=
  encode .adlerFinal = 0x2200000000#40 ∧ decode 0x2200000000#40 = some .adlerFinal ∧ NeedsZeroOperand 0x22#8 ∧
  (∀ s : State, s.fault = .none → s.phase = .idle →
    exec .adlerFinal s = .next { s with result := (s.b <<< 16) ||| s.a, pc := s.pc + 1 }) ∧
  (∀ s : State, s.a.toNat ≤ 65520 → s.b.toNat ≤ 65520 →
    ((s.b <<< 16) ||| s.a).toNat = 65536 * s.b.toNat + s.a.toNat) ∧
  ∀ s : State, s.fault = .none → s.phase ≠ .idle → exec .adlerFinal s = .next { s with fault := .phase }

/-! ### The serializer commands -/

/-- What R135 says of a command that puts `bytes`: raw in IDLE; payload in PAYLOAD when the chunk owes them; LENGTH there
when it does not; PHASE elsewhere. -/
def Sys2Proof.PutsBytes (i : Instr) (bytes : List Byte) : Prop :=
  (∀ s : State, s.fault = .none → s.phase = .idle →
    EmitsOrStops i s bytes { s with out := s.out ++ bytes, pc := s.pc + 1 }) ∧
  (∀ s : State, s.fault = .none → s.phase = .payload → bytes.length ≤ s.remain.toNat →
    EmitsOrStops i s bytes
      { s with
        out := s.out ++ bytes
        crc := crcRun s.crc bytes
        remain := BitVec.ofNat 32 (s.remain.toNat - bytes.length)
        pc := s.pc + 1 }) ∧
  (∀ s : State, s.fault = .none → s.phase = .payload → s.remain.toNat < bytes.length →
    exec i s = .next { s with fault := .length }) ∧
  ∀ s : State, s.fault = .none → s.phase ≠ .idle → s.phase ≠ .payload → exec i s = .next { s with fault := .phase }

/-- PUT_BYTE x (R131, R135). -/
def Obligations.PutByteCommand : Prop :=
  (∀ x : Byte, encode (.putByte x) = 0x30#8 ++ 0#24 ++ x ∧ decode (0x30#8 ++ 0#24 ++ x) = some (.putByte x)) ∧
  NeedsByteOperand 0x30#8 ∧ ∀ x : Byte, PutsBytes (.putByte x) [x]

/-- PUT_BE32 v (R132, R135): the four bytes of `v`, most significant first. -/
def Obligations.PutBe32Command : Prop :=
  (∀ v : Word, encode (.putBe32 v) = 0x31#8 ++ v ∧ decode (0x31#8 ++ v) = some (.putBe32 v)) ∧
  ∀ v : Word, PutsBytes (.putBe32 v)
    [v.extractLsb' 24 8, v.extractLsb' 16 8, v.extractLsb' 8 8, v.extractLsb' 0 8]

/-- PUT_LEN16C v (R133): for `v` up to 65535 the length and its complement; above, RANGE where the phase allows the
command and PHASE where it does not. -/
def Obligations.PutLen16cCommand : Prop :=
  (∀ v : Word, encode (.putLen16c v) = 0x32#8 ++ v ∧ decode (0x32#8 ++ v) = some (.putLen16c v)) ∧
  (∀ v : Word, v.toNat ≤ 65535 → PutsBytes (.putLen16c v)
    [v.extractLsb' 0 8, v.extractLsb' 8 8, 255#8 - v.extractLsb' 0 8, 255#8 - v.extractLsb' 8 8]) ∧
  (∀ (s : State) (v : Word), s.fault = .none → (s.phase = .idle ∨ s.phase = .payload) → 65535 < v.toNat →
    exec (.putLen16c v) s = .next { s with fault := .range }) ∧
  ∀ (s : State) (v : Word), s.fault = .none → s.phase ≠ .idle → s.phase ≠ .payload →
    exec (.putLen16c v) s = .next { s with fault := .phase }

/-! ### The chunk commands -/

/-- CHUNK_OPEN L (R151). -/
def Obligations.ChunkOpenCommand : Prop :=
  (∀ len : Word, encode (.chunkOpen len) = 0x40#8 ++ len ∧ decode (0x40#8 ++ len) = some (.chunkOpen len)) ∧
  (∀ (s : State) (len : Word), s.fault = .none → s.phase = .idle →
    EmitsOrStops (.chunkOpen len) s (be32 len)
      { s with out := s.out ++ be32 len, remain := len, phase := .tag, pc := s.pc + 1 }) ∧
  ∀ (s : State) (len : Word), s.fault = .none → s.phase ≠ .idle →
    exec (.chunkOpen len) s = .next { s with fault := .phase }

/-- CHUNK_TAG t (R152): the tag bytes are emitted first byte first and fed to a freshly seeded `crc`; `remain` does not
count them. -/
def Obligations.ChunkTagCommand : Prop :=
  (∀ t0 t1 t2 t3 : Byte, encode (.chunkTag t0 t1 t2 t3) = 0x41#8 ++ t0 ++ t1 ++ t2 ++ t3 ∧
    decode (0x41#8 ++ t0 ++ t1 ++ t2 ++ t3) = some (.chunkTag t0 t1 t2 t3)) ∧
  (∀ (s : State) (t0 t1 t2 t3 : Byte), s.fault = .none → s.phase = .tag →
    EmitsOrStops (.chunkTag t0 t1 t2 t3) s [t0, t1, t2, t3]
      { s with
        out := s.out ++ [t0, t1, t2, t3]
        crc := crcStep (crcStep (crcStep (crcStep 0xFFFFFFFF#32 t0) t1) t2) t3
        phase := .payload
        pc := s.pc + 1 }) ∧
  ∀ (s : State) (t0 t1 t2 t3 : Byte), s.fault = .none → s.phase ≠ .tag →
    exec (.chunkTag t0 t1 t2 t3) s = .next { s with fault := .phase }

/-- CHUNK_CLOSE (R153): the complement of `crc`, big-endian, as raw bytes; `crc` and `result` stay. -/
def Obligations.ChunkCloseCommand : Prop :=
  encode .chunkClose = 0x4200000000#40 ∧ decode 0x4200000000#40 = some .chunkClose ∧ NeedsZeroOperand 0x42#8 ∧
  (∀ s : State, s.fault = .none → s.phase = .payload → s.remain.toNat = 0 →
    EmitsOrStops .chunkClose s (be32 (~~~s.crc))
      { s with out := s.out ++ be32 (~~~s.crc), phase := .idle, pc := s.pc + 1 }) ∧
  (∀ s : State, s.fault = .none → s.phase = .payload → s.remain.toNat ≠ 0 →
    exec .chunkClose s = .next { s with fault := .length }) ∧
  ∀ s : State, s.fault = .none → s.phase ≠ .payload → exec .chunkClose s = .next { s with fault := .phase }

/-! ### The stream commands -/

/-- ZLIB_OPEN (R171), for every value of the parameters ZHDR0, ZHDR1 (R9). -/
def Obligations.ZlibOpenCommand : Prop :=
  encode .zlibOpen = 0x5000000000#40 ∧ decode 0x5000000000#40 = some .zlibOpen ∧ NeedsZeroOperand 0x50#8 ∧
  (∀ s : State, s.fault = .none → s.phase = .payload → 2 ≤ s.remain.toNat →
    EmitsOrStops .zlibOpen s [s.cfg.zhdr0, s.cfg.zhdr1]
      { s with
        out := s.out ++ [s.cfg.zhdr0, s.cfg.zhdr1]
        crc := crcStep (crcStep s.crc s.cfg.zhdr0) s.cfg.zhdr1
        a := 1#32
        b := 0#32
        zfinal := false
        remain := BitVec.ofNat 32 (s.remain.toNat - 2)
        phase := .zstream
        pc := s.pc + 1 }) ∧
  (∀ s : State, s.fault = .none → s.phase = .payload → s.remain.toNat < 2 →
    exec .zlibOpen s = .next { s with fault := .length }) ∧
  ∀ s : State, s.fault = .none → s.phase ≠ .payload → exec .zlibOpen s = .next { s with fault := .phase }


/-- What R172 and R174 say of a row-open `i` of `n` bytes; they differ in `last` alone. -/
def Sys2Proof.OpensRow (i : Instr) (last : Bool) (n : Word) : Prop :=
  (∀ s : State, s.fault = .none → s.phase = .zstream → s.zfinal = false → n.toNat ≠ 0 →
    n.toNat + 5 * ((n.toNat + 65534) / 65535) ≤ s.remain.toNat →
    EmitsOrStops i s (blockHeader (last && decide (n.toNat ≤ 65535)) (min n.toNat 65535))
      { s with
        out := s.out ++ blockHeader (last && decide (n.toNat ≤ 65535)) (min n.toNat 65535)
        crc := crcRun s.crc (blockHeader (last && decide (n.toNat ≤ 65535)) (min n.toNat 65535))
        remain := BitVec.ofNat 32 (s.remain.toNat - 5)
        rowrem := n
        rowlast := last
        segrem := BitVec.ofNat 16 (min n.toNat 65535)
        zfinal := last && decide (n.toNat ≤ 65535)
        phase := .row
        pc := s.pc + 1 }) ∧
  (∀ s : State, s.fault = .none → s.phase = .zstream → s.zfinal = false → n.toNat ≠ 0 →
    s.remain.toNat < n.toNat + 5 * ((n.toNat + 65534) / 65535) → exec i s = .next { s with fault := .length }) ∧
  (∀ s : State, s.fault = .none → s.phase = .zstream → s.zfinal = false → n.toNat = 0 →
    exec i s = .next { s with fault := .range }) ∧
  ∀ s : State, s.fault = .none → (s.phase ≠ .zstream ∨ s.zfinal = true) →
    exec i s = .next { s with fault := .phase }

/-- ROW_OPEN n (R172). -/
def Obligations.RowOpenCommand : Prop :=
  (∀ n : Word, encode (.rowOpen n) = 0x51#8 ++ n ∧ decode (0x51#8 ++ n) = some (.rowOpen n)) ∧
  ∀ n : Word, OpensRow (.rowOpen n) false n

/-- ROW_OPEN_LAST n (R174). -/
def Obligations.RowOpenLastCommand : Prop :=
  (∀ n : Word, encode (.rowOpenLast n) = 0x52#8 ++ n ∧ decode (0x52#8 ++ n) = some (.rowOpenLast n)) ∧
  ∀ n : Word, OpensRow (.rowOpenLast n) true n

/-- ROW_DATA x (R175) in the states rule R40 allows (the premise `Inv`, stated and kept by its own statements): a byte
inside a block, the last byte of the row, the byte that fills a block of a row that goes on; PHASE outside a row. -/
def Obligations.RowDataCommand : Prop :=
  (∀ x : Byte, encode (.rowData x) = 0x53#8 ++ 0#24 ++ x ∧ decode (0x53#8 ++ 0#24 ++ x) = some (.rowData x)) ∧
  NeedsByteOperand 0x53#8 ∧
  (∀ (s : State) (x : Byte), Inv s → s.fault = .none → s.phase = .row → 2 ≤ s.rowrem.toNat → 2 ≤ s.segrem.toNat →
    EmitsOrStops (.rowData x) s [x]
      { s with
        out := s.out ++ [x]
        crc := crcStep s.crc x
        a := BitVec.ofNat 32 ((s.a.toNat + x.toNat) % 65521)
        b := BitVec.ofNat 32 ((s.b.toNat + (s.a.toNat + x.toNat) % 65521) % 65521)
        remain := BitVec.ofNat 32 (s.remain.toNat - 1)
        rowrem := BitVec.ofNat 32 (s.rowrem.toNat - 1)
        segrem := BitVec.ofNat 16 (s.segrem.toNat - 1)
        pc := s.pc + 1 }) ∧
  (∀ (s : State) (x : Byte), Inv s → s.fault = .none → s.phase = .row → s.rowrem.toNat = 1 →
    EmitsOrStops (.rowData x) s [x]
      { s with
        out := s.out ++ [x]
        crc := crcStep s.crc x
        a := BitVec.ofNat 32 ((s.a.toNat + x.toNat) % 65521)
        b := BitVec.ofNat 32 ((s.b.toNat + (s.a.toNat + x.toNat) % 65521) % 65521)
        remain := BitVec.ofNat 32 (s.remain.toNat - 1)
        rowrem := 0#32
        segrem := 0#16
        phase := .zstream
        pc := s.pc + 1 }) ∧
  (∀ (s : State) (x : Byte), Inv s → s.fault = .none → s.phase = .row → 2 ≤ s.rowrem.toNat → s.segrem.toNat = 1 →
    EmitsOrStops (.rowData x) s (x :: nextHeader s)
      { s with
        out := s.out ++ x :: nextHeader s
        crc := crcRun s.crc (x :: nextHeader s)
        a := BitVec.ofNat 32 ((s.a.toNat + x.toNat) % 65521)
        b := BitVec.ofNat 32 ((s.b.toNat + (s.a.toNat + x.toNat) % 65521) % 65521)
        remain := BitVec.ofNat 32 (s.remain.toNat - 6)
        rowrem := BitVec.ofNat 32 (s.rowrem.toNat - 1)
        segrem := BitVec.ofNat 16 (min (s.rowrem.toNat - 1) 65535)
        zfinal := s.rowlast && decide (s.rowrem.toNat - 1 ≤ 65535)
        pc := s.pc + 1 }) ∧
  ∀ (s : State) (x : Byte), s.fault = .none → s.phase ≠ .row →
    exec (.rowData x) s = .next { s with fault := .phase }

/-- ZLIB_CLOSE (R176): the packed sums, big-endian, as payload bytes; `a`, `b`, `zfinal`, `result` stay. -/
def Obligations.ZlibCloseCommand : Prop :=
  encode .zlibClose = 0x5400000000#40 ∧ decode 0x5400000000#40 = some .zlibClose ∧ NeedsZeroOperand 0x54#8 ∧
  (∀ s : State, s.fault = .none → s.phase = .zstream → s.zfinal = true → 4 ≤ s.remain.toNat →
    EmitsOrStops .zlibClose s (be32 ((s.b <<< 16) ||| s.a))
      { s with
        out := s.out ++ be32 ((s.b <<< 16) ||| s.a)
        crc := crcRun s.crc (be32 ((s.b <<< 16) ||| s.a))
        remain := BitVec.ofNat 32 (s.remain.toNat - 4)
        phase := .payload
        pc := s.pc + 1 }) ∧
  (∀ s : State, s.fault = .none → s.phase = .zstream → s.zfinal = true → s.remain.toNat < 4 →
    exec .zlibClose s = .next { s with fault := .length }) ∧
  ∀ s : State, s.fault = .none → (s.phase ≠ .zstream ∨ s.zfinal = false) →
    exec .zlibClose s = .next { s with fault := .phase }

/-! ### Faults of all commands -/

/-- PHASE is raised exactly where the matrix of R233 says so, and changes `fault` alone. -/
def Obligations.PhaseMatrix : Prop :=
  ∀ (i : Instr) (s : State), s.fault = .none →
    (phaseAllows i s.phase s.zfinal = false → exec i s = .next { s with fault := .phase }) ∧
    (phaseAllows i s.phase s.zfinal = true → ∀ t, exec i s = .next t → t.fault ≠ .phase)

/-- RANGE is raised in the two cases of R234 and no others. -/
def Obligations.RangeFaults : Prop :=
  ∀ (i : Instr) (s : State), s.fault = .none →
    (phaseAllows i s.phase s.zfinal = true → rangeRefuses i = true → exec i s = .next { s with fault := .range }) ∧
    (rangeRefuses i = false → ∀ t, exec i s = .next t → t.fault ≠ .range)

/-- LENGTH is raised exactly where the table of R235 says so, before the first byte. -/
def Obligations.LengthFaults : Prop :=
  ∀ (i : Instr) (s : State), s.fault = .none →
    (phaseAllows i s.phase s.zfinal = true → rangeRefuses i = false → lengthRefuses i s = true →
      exec i s = .next { s with fault := .length }) ∧
    (lengthRefuses i s = false → ∀ t, exec i s = .next t → t.fault ≠ .length)

/-- The fixed order of checks: halted, ILLEGAL, PHASE, RANGE, LENGTH, and IO only in emission (R239). -/
def Obligations.ChecksInOrder : Prop :=
  ∀ (s : State) (w : CmdWord), fetch s = some w →
    (s.fault ≠ .none → step s = .next s) ∧
    (s.fault = .none → decode w = none → step s = .next { s with fault := .illegal }) ∧
    (∀ i, s.fault = .none → decode w = some i → precheck i s ≠ .none →
      step s = .next { s with fault := precheck i s }) ∧
    ∀ i t, s.fault = .none → decode w = some i → precheck i s = .none → step s = .next t →
      t.fault = .none ∨ t.fault = .io

/-- Faults of codes 1 to 4 are precise: nothing but `fault` has changed, `pc` and `out` among what has not (R241). -/
def Obligations.PreciseFaults : Prop :=
  ∀ s t : State, s.fault = .none → step s = .next t → t.fault ≠ .none → t.fault ≠ .io →
    t = { s with fault := t.fault }

/-- An IO fault: the sink took the bytes now at the end of `out` and refused the one after them; those bytes are a proper
beginning of the command's bytes; `pc` is unchanged. Nothing is said of the registers (R237, R242). -/
def Obligations.IoFaults : Prop :=
  ∀ (i : Instr) (s t : State), s.fault = .none → exec i s = .next t → t.fault = .io →
    ∃ k, k < (emittedBytes i s).length ∧ SinkFailsAt k s ∧ IoStopped ((emittedBytes i s).take k) s t

/-- A command that completes adds exactly 1 to `pc`; one that raises a fault leaves it (R26). -/
def Obligations.PcCountsCompletedCommands : Prop :=
  ∀ (i : Instr) (s t : State), s.fault = .none → exec i s = .next t →
    (t.fault = .none → t.pc = s.pc + 1) ∧ (t.fault ≠ .none → t.pc = s.pc)

/-! ### Frames -/

/-- The output: bytes already out never change; a completed command has appended exactly its bytes, the first at position
`len(out)`; a command stopped by IO a beginning of them; every other command nothing (R52, R55, R62, R78). The command
stream and the parameters are changed by no command (R51, R9), and the model's counter of free values (log entry 4) by an
IO fault alone. -/
def Obligations.OutputFrame : Prop :=
  ∀ (i : Instr) (s t : State), exec i s = .next t →
    (∀ k, k < s.out.length → t.out[k]? = s.out[k]?) ∧
    (s.fault = .none → t.fault = .none → t.out = s.out ++ emittedBytes i s) ∧
    (s.fault = .none → t.fault = .io → ∃ k, k < (emittedBytes i s).length ∧ t.out = s.out ++ (emittedBytes i s).take k) ∧
    (s.fault ≠ .none ∨ (t.fault ≠ .none ∧ t.fault ≠ .io) → t.out = s.out) ∧
    t.prog = s.prog ∧ t.cfg = s.cfg ∧ (s.fault ≠ .none ∨ t.fault ≠ .io → t.draws = s.draws)


/-- The six direct checksum commands: what each leaves unchanged in every next state (R41). They raise no IO fault. -/
def Obligations.ChecksumFrame : Prop :=
  ∀ (s t : State) (x : Byte) (i : Instr),
    (i = .crcInit ∨ i = .crcByte x ∨ i = .crcFinal ∨ i = .adlerInit ∨ i = .adlerByte x ∨ i = .adlerFinal) →
    exec i s = .next t →
    t.phase = s.phase ∧ t.zfinal = s.zfinal ∧ t.rowlast = s.rowlast ∧ t.remain = s.remain ∧ t.rowrem = s.rowrem ∧
    t.segrem = s.segrem ∧ t.out = s.out ∧ t.prog = s.prog ∧ t.cfg = s.cfg ∧ t.draws = s.draws ∧
    (i ≠ .crcInit → i ≠ .crcByte x → t.crc = s.crc) ∧
    (i ≠ .adlerInit → i ≠ .adlerByte x → t.a = s.a ∧ t.b = s.b) ∧
    (i ≠ .crcFinal → i ≠ .adlerFinal → t.result = s.result)

/-- The three PUT commands, in every next state but one stopped by IO, whose registers are unspecified (R41, R242). -/
def Obligations.SerializerFrame : Prop :=
  ∀ (s t : State) (x : Byte) (v : Word) (i : Instr),
    (i = .putByte x ∨ i = .putBe32 v ∨ i = .putLen16c v) → exec i s = .next t → (s.fault ≠ .none ∨ t.fault ≠ .io) →
    t.a = s.a ∧ t.b = s.b ∧ t.result = s.result ∧ t.phase = s.phase ∧ t.zfinal = s.zfinal ∧ t.rowlast = s.rowlast ∧
    t.rowrem = s.rowrem ∧ t.segrem = s.segrem ∧ (s.phase ≠ .payload → t.crc = s.crc ∧ t.remain = s.remain)

/-- The three chunk commands, in every next state but one stopped by IO (R41, R242). -/
def Obligations.ChunkFrame : Prop :=
  ∀ (s t : State) (len : Word) (t0 t1 t2 t3 : Byte) (i : Instr),
    (i = .chunkOpen len ∨ i = .chunkTag t0 t1 t2 t3 ∨ i = .chunkClose) → exec i s = .next t →
    (s.fault ≠ .none ∨ t.fault ≠ .io) →
    t.a = s.a ∧ t.b = s.b ∧ t.result = s.result ∧ t.zfinal = s.zfinal ∧ t.rowlast = s.rowlast ∧
    t.rowrem = s.rowrem ∧ t.segrem = s.segrem ∧ (i ≠ .chunkOpen len → t.remain = s.remain) ∧
    (i ≠ .chunkTag t0 t1 t2 t3 → t.crc = s.crc)

/-- The five stream commands, in every next state but one stopped by IO (R41, R242). -/
def Obligations.StreamFrame : Prop :=
  ∀ (s t : State) (n : Word) (x : Byte) (i : Instr),
    (i = .zlibOpen ∨ i = .rowOpen n ∨ i = .rowOpenLast n ∨ i = .rowData x ∨ i = .zlibClose) → exec i s = .next t →
    (s.fault ≠ .none ∨ t.fault ≠ .io) →
    t.result = s.result ∧
    (i ≠ .zlibOpen → i ≠ .rowData x → t.a = s.a ∧ t.b = s.b) ∧
    (i ≠ .zlibOpen → i ≠ .rowOpenLast n → i ≠ .rowData x → t.zfinal = s.zfinal) ∧
    (i ≠ .rowOpen n → i ≠ .rowOpenLast n → t.rowlast = s.rowlast) ∧
    (i = .zlibOpen ∨ i = .zlibClose → t.rowrem = s.rowrem ∧ t.segrem = s.segrem)

/-! ### Invariants -/

/-- The invariant of rule R40 holds right after reset. -/
def Obligations.InvariantAtReset : Prop := Inv State.reset

/-- Every step keeps the invariant of rule R40, from every state that meets it. -/
def Obligations.InvariantKeptByStep : Prop :=
  ∀ s t : State, Inv s → step s = .next t → Inv t

/-- From every state that meets the invariant a step answers a next state: the model never stops there, so no counter is
ever decremented at 0 (R118 (vii), R271). -/
def Obligations.StepAlwaysAnswers : Prop := ∀ s : State, Inv s → ∃ t, step s = .next t

/-- The first fault sticks, and the output only grows, over any number of steps (R243, R261). -/
def Obligations.FaultSticksOverRuns : Prop :=
  ∀ (n : Nat) (s t : State), Sys2Proof.core.run n s = .next t →
    s.out <+: t.out ∧ (s.fault ≠ .none → t = s) ∧ s.pc ≤ t.pc ∧ t.pc ≤ s.pc + n


/-! ### Laws of the framing -/

/-- Inside a chunk every byte a command other than CHUNK_CLOSE emits feeds `crc` and is counted against the declared length
(R56, R154). -/
def Obligations.PayloadIsSummedAndCounted : Prop :=
  ∀ (i : Instr) (s t : State), s.fault = .none → (s.phase = .payload ∨ s.phase = .zstream ∨ s.phase = .row) →
    i ≠ .chunkClose → exec i s = .next t → t.fault = .none →
    t.out = s.out ++ emittedBytes i s ∧ t.crc = crcRun s.crc (emittedBytes i s) ∧
    t.remain.toNat + (emittedBytes i s).length = s.remain.toNat ∧
    (t.phase = .payload ∨ t.phase = .zstream ∨ t.phase = .row)

/-- The chunk law with the length invariant, for ANY commands between CHUNK_TAG and the CHUNK_CLOSE that ends the chunk: a
run without a fault has emitted exactly `L` payload bytes and appended `BE32(L) ++ t ++ p ++ BE32(crc32(t ++ p))` (R155,
R156). -/
def Obligations.ChunkLaw : Prop :=
  ∀ (s u : State) (len : Word) (t0 t1 t2 t3 : Byte) (cmds : List Instr),
    s.fault = .none → s.phase = .idle → Instr.chunkClose ∉ cmds →
    execAll (.chunkOpen len :: .chunkTag t0 t1 t2 t3 :: cmds ++ [.chunkClose]) s = .next u → u.fault = .none →
    ∃ payload : List Byte, payload.length = len.toNat ∧
      u.out = s.out ++ be32 len ++ [t0, t1, t2, t3] ++ payload ++ be32 (crc32 ([t0, t1, t2, t3] ++ payload)) ∧
      u.phase = .idle ∧ u.remain = 0#32

/-- The CHUNK macro: from any IDLE state, with a sink that accepts, no command of its expansion faults and it appends the
whole chunk (R203). -/
def Obligations.ChunkMacroCompletes : Prop :=
  ∀ (s : State) (t : Tag) (payload : List Byte), s.fault = .none → s.phase = .idle → SinkTakesAll s →
    (payload.length ≤ 4294967295 →
      chunkMacro t payload = some (chunkCommands t payload) ∧
      execAll (chunkCommands t payload) s =
        .next { s with
          out := s.out ++ (be32 (BitVec.ofNat 32 payload.length) ++ t.bytes ++ payload ++ be32 (crc32 (t.bytes ++ payload)))
          crc := crcRun 0xFFFFFFFF#32 (t.bytes ++ payload)
          remain := 0#32
          phase := .idle
          pc := s.pc + payload.length + 3 }) ∧
    (4294967295 < payload.length → chunkMacro t payload = none)

/-- The segmentation law and the Adler coverage of one row: a row-open and its ROW_DATA commands, from any ZSTREAM state
before the final block, complete; the row is emitted as its stored blocks (`rowBytes`), the Adler-32 has seen its bytes
alone, the CRC all bytes, and `zfinal` is set exactly by a last row (R177, R178). -/
def Obligations.RowLaw : Prop :=
  ∀ (s : State) (last : Bool) (row : List Byte), s.fault = .none → s.phase = .zstream → s.zfinal = false →
    SinkTakesAll s → 1 ≤ row.length → row.length ≤ 4294967295 →
    row.length + 5 * ((row.length + 65534) / 65535) ≤ s.remain.toNat →
    execAll (rowCommands last row) s =
      .next { s with
        out := s.out ++ rowBytes last row
        crc := crcRun s.crc (rowBytes last row)
        a := (adlerRun { a := s.a, b := s.b } row).a
        b := (adlerRun { a := s.a, b := s.b } row).b
        remain := BitVec.ofNat 32 (s.remain.toNat - (rowBytes last row).length)
        rowrem := 0#32
        segrem := 0#16
        rowlast := last
        zfinal := last
        pc := s.pc + row.length + 1 }

/-- What the blocks of a row are: `ceil(n / 65535)` of them carrying consecutive pieces of the row, every one but the last
of 65535 bytes, only the last of a last row flagged final, and `n + 5 * k` bytes in all (R82, R177). -/
def Obligations.RowBlocksShape : Prop :=
  ∀ (last : Bool) (row : List Byte), 1 ≤ row.length →
    (rowBytes last row).length = row.length + 5 * ((row.length + 65534) / 65535) ∧
    ∃ (full : List (List Byte)) (tail : List Byte),
      full.length + 1 = (row.length + 65534) / 65535 ∧ (∀ seg ∈ full, seg.length = 65535) ∧
      1 ≤ tail.length ∧ tail.length ≤ 65535 ∧ row = full.flatten ++ tail ∧
      rowBytes last row = (full.map (storedBlock false)).flatten ++ storedBlock last tail

/-- The stream law: ZLIB_OPEN, rows with ROW_OPEN but the last with ROW_OPEN_LAST, ZLIB_CLOSE, in a chunk that owes exactly
enough or more, raises no fault and appends header, blocks and trailer, every byte fed to `crc` and counted (R179). -/
def Obligations.StreamLaw : Prop :=
  ∀ (s : State) (rows : List (List Byte)), s.fault = .none → s.phase = .payload → SinkTakesAll s → rows ≠ [] →
    (∀ row ∈ rows, 1 ≤ row.length ∧ row.length ≤ 4294967295) →
    2 + (rows.map fun row => row.length + 5 * ((row.length + 65534) / 65535)).sum + 4 ≤ s.remain.toNat →
    ∃ t, execAll (streamCommands rows) s = .next t ∧ t.fault = .none ∧ t.phase = .payload ∧
      t.out = s.out ++ zlibBytes s.cfg.zhdr0 s.cfg.zhdr1 rows ∧
      t.crc = crcRun s.crc (zlibBytes s.cfg.zhdr0 s.cfg.zhdr1 rows) ∧
      t.remain.toNat + (zlibBytes s.cfg.zhdr0 s.cfg.zhdr1 rows).length = s.remain.toNat ∧
      t.pc = s.pc + (streamCommands rows).length

/-- The IDAT macro: for every raster its preconditions accept, from any IDLE state and with a sink that accepts, no command
faults and it appends exactly the IDAT chunk, `12 + L` bytes, in `5 + H * (bpr + 1)` commands (R206, R207). -/
def Obligations.IdatMacroCompletes : Prop :=
  ∀ (s : State) (r : Raster), s.fault = .none → s.phase = .idle → SinkTakesAll s → r.accepted = true →
    idatMacro r = some (idatCommands r) ∧
    (idatCommands r).length = 5 + r.height * (r.bytesPerRow + 1) ∧
    (idatBytes s.cfg.zhdr0 s.cfg.zhdr1 r).length = 12 + r.idatLength ∧
    ∃ t, execAll (idatCommands r) s = .next t ∧ t.fault = .none ∧ t.phase = .idle ∧ t.remain = 0#32 ∧
      t.out = s.out ++ idatBytes s.cfg.zhdr0 s.cfg.zhdr1 r

/-- The ENCODE macro: for every raster its preconditions accept, and every value of the parameters, no command faults and
the bytes appended are the image: signature, IHDR, sRGB, bKGD, IDAT, IEND, `88 + L` bytes (R85, R208, R209). That each of
the last five fields of IHDR is one byte, in that order, is the spec's own general-knowledge item (R85, R210:
"[from general knowledge, not in source]"; log entry 13). -/
def Obligations.EncodeMacroProducesTheImage : Prop :=
  ∀ (s : State) (k : Bkgd) (r : Raster), s.fault = .none → s.phase = .idle → SinkTakesAll s → r.accepted = true →
    encodeMacro k r = some (encodeCommands k r) ∧
    (encodeCommands k r).length = 39 + r.height * (r.bytesPerRow + 1) ∧
    (imageBytes s.cfg.zhdr0 s.cfg.zhdr1 k r).length = 88 + r.idatLength ∧
    ∃ t, execAll (encodeCommands k r) s = .next t ∧ t.fault = .none ∧ t.phase = .idle ∧ t.remain = 0#32 ∧
      t.crc = 0x51BD9F7D#32 ∧ t.out = s.out ++ imageBytes s.cfg.zhdr0 s.cfg.zhdr1 k r

/-- The driver's issue of a macro-operation (R200): a refused one issues nothing; an accepted one is issued one command at a
time, and the stream has grown by exactly the commands up to and with the first that raised a fault, those before it having
completed, or by all of them; it always ends, and where no command faults it leaves what executing the commands in order leaves. The premise on `pc` says
that every command issued before has completed (R276). -/
def Obligations.DriverStopsAtFirstFault : Prop :=
  (∀ s : State, driverIssue none s = none) ∧
  (∀ (s t : State) (cmds : List Instr), s.fault = .none → s.pc = s.prog.length →
    driverIssue (some cmds) s = some (.next t) →
    ∃ n ≤ cmds.length, t.prog = s.prog ++ wordsOf (cmds.take n) ∧
      (t.fault = .none → n = cmds.length ∧ t.pc = t.prog.length) ∧
      (t.fault ≠ .none → t.pc + 1 = t.prog.length ∧
        ∃ u, execAll (cmds.take (n - 1)) s = .next u ∧ u.fault = .none ∧ t.pc = u.pc)) ∧
  (∀ (s : State) (cmds : List Instr), Inv s → ∃ t, driverIssue (some cmds) s = some (.next t)) ∧
  ∀ (s u : State) (cmds : List Instr), s.fault = .none → s.pc = s.prog.length →
    execAll cmds s = .next u → u.fault = .none →
    driverIssue (some cmds) s = some (.next { u with prog := s.prog ++ wordsOf cmds })
end

