-- ==== Sys2Proof/Laws/State.lean ====
section
/-!
SUPPORT. One lemma per field per named update of the state, each true by unfolding, so that no later proof unfolds a
record update.
-/

namespace Sys2Proof.Machine

variable (s : State)

/-! ### advancePc -/

@[simp] theorem advancePc_crc : (advancePc s).crc = s.crc := rfl
@[simp] theorem advancePc_a : (advancePc s).a = s.a := rfl
@[simp] theorem advancePc_b : (advancePc s).b = s.b := rfl
@[simp] theorem advancePc_result : (advancePc s).result = s.result := rfl
@[simp] theorem advancePc_phase : (advancePc s).phase = s.phase := rfl
@[simp] theorem advancePc_zfinal : (advancePc s).zfinal = s.zfinal := rfl
@[simp] theorem advancePc_rowlast : (advancePc s).rowlast = s.rowlast := rfl
@[simp] theorem advancePc_remain : (advancePc s).remain = s.remain := rfl
@[simp] theorem advancePc_rowrem : (advancePc s).rowrem = s.rowrem := rfl
@[simp] theorem advancePc_segrem : (advancePc s).segrem = s.segrem := rfl
@[simp] theorem advancePc_fault : (advancePc s).fault = s.fault := rfl
@[simp] theorem advancePc_pc : (advancePc s).pc = s.pc + 1 := rfl
@[simp] theorem advancePc_out : (advancePc s).out = s.out := rfl
@[simp] theorem advancePc_prog : (advancePc s).prog = s.prog := rfl
@[simp] theorem advancePc_cfg : (advancePc s).cfg = s.cfg := rfl
@[simp] theorem advancePc_draws : (advancePc s).draws = s.draws := rfl

/-! ### appendByte -/

@[simp] theorem appendByte_crc (x : Byte) : (appendByte x s).crc = s.crc := rfl
@[simp] theorem appendByte_a (x : Byte) : (appendByte x s).a = s.a := rfl
@[simp] theorem appendByte_b (x : Byte) : (appendByte x s).b = s.b := rfl
@[simp] theorem appendByte_result (x : Byte) : (appendByte x s).result = s.result := rfl
@[simp] theorem appendByte_phase (x : Byte) : (appendByte x s).phase = s.phase := rfl
@[simp] theorem appendByte_zfinal (x : Byte) : (appendByte x s).zfinal = s.zfinal := rfl
@[simp] theorem appendByte_rowlast (x : Byte) : (appendByte x s).rowlast = s.rowlast := rfl
@[simp] theorem appendByte_remain (x : Byte) : (appendByte x s).remain = s.remain := rfl
@[simp] theorem appendByte_rowrem (x : Byte) : (appendByte x s).rowrem = s.rowrem := rfl
@[simp] theorem appendByte_segrem (x : Byte) : (appendByte x s).segrem = s.segrem := rfl
@[simp] theorem appendByte_fault (x : Byte) : (appendByte x s).fault = s.fault := rfl
@[simp] theorem appendByte_pc (x : Byte) : (appendByte x s).pc = s.pc := rfl
@[simp] theorem appendByte_out (x : Byte) : (appendByte x s).out = s.out ++ [x] := rfl
@[simp] theorem appendByte_prog (x : Byte) : (appendByte x s).prog = s.prog := rfl
@[simp] theorem appendByte_cfg (x : Byte) : (appendByte x s).cfg = s.cfg := rfl
@[simp] theorem appendByte_draws (x : Byte) : (appendByte x s).draws = s.draws := rfl

/-! ### countPayload -/

@[simp] theorem countPayload_crc (x : Byte) : (countPayload x s).crc = crcStep s.crc x := rfl
@[simp] theorem countPayload_a (x : Byte) : (countPayload x s).a = s.a := rfl
@[simp] theorem countPayload_b (x : Byte) : (countPayload x s).b = s.b := rfl
@[simp] theorem countPayload_result (x : Byte) : (countPayload x s).result = s.result := rfl
@[simp] theorem countPayload_phase (x : Byte) : (countPayload x s).phase = s.phase := rfl
@[simp] theorem countPayload_zfinal (x : Byte) : (countPayload x s).zfinal = s.zfinal := rfl
@[simp] theorem countPayload_rowlast (x : Byte) : (countPayload x s).rowlast = s.rowlast := rfl
@[simp] theorem countPayload_remain (x : Byte) : (countPayload x s).remain = s.remain - 1#32 := rfl
@[simp] theorem countPayload_rowrem (x : Byte) : (countPayload x s).rowrem = s.rowrem := rfl
@[simp] theorem countPayload_segrem (x : Byte) : (countPayload x s).segrem = s.segrem := rfl
@[simp] theorem countPayload_fault (x : Byte) : (countPayload x s).fault = s.fault := rfl
@[simp] theorem countPayload_pc (x : Byte) : (countPayload x s).pc = s.pc := rfl
@[simp] theorem countPayload_out (x : Byte) : (countPayload x s).out = s.out := rfl
@[simp] theorem countPayload_prog (x : Byte) : (countPayload x s).prog = s.prog := rfl
@[simp] theorem countPayload_cfg (x : Byte) : (countPayload x s).cfg = s.cfg := rfl
@[simp] theorem countPayload_draws (x : Byte) : (countPayload x s).draws = s.draws := rfl

/-! ### feedCrc -/

@[simp] theorem feedCrc_crc (x : Byte) : (feedCrc x s).crc = crcStep s.crc x := rfl
@[simp] theorem feedCrc_a (x : Byte) : (feedCrc x s).a = s.a := rfl
@[simp] theorem feedCrc_b (x : Byte) : (feedCrc x s).b = s.b := rfl
@[simp] theorem feedCrc_result (x : Byte) : (feedCrc x s).result = s.result := rfl
@[simp] theorem feedCrc_phase (x : Byte) : (feedCrc x s).phase = s.phase := rfl
@[simp] theorem feedCrc_zfinal (x : Byte) : (feedCrc x s).zfinal = s.zfinal := rfl
@[simp] theorem feedCrc_rowlast (x : Byte) : (feedCrc x s).rowlast = s.rowlast := rfl
@[simp] theorem feedCrc_remain (x : Byte) : (feedCrc x s).remain = s.remain := rfl
@[simp] theorem feedCrc_rowrem (x : Byte) : (feedCrc x s).rowrem = s.rowrem := rfl
@[simp] theorem feedCrc_segrem (x : Byte) : (feedCrc x s).segrem = s.segrem := rfl
@[simp] theorem feedCrc_fault (x : Byte) : (feedCrc x s).fault = s.fault := rfl
@[simp] theorem feedCrc_pc (x : Byte) : (feedCrc x s).pc = s.pc := rfl
@[simp] theorem feedCrc_out (x : Byte) : (feedCrc x s).out = s.out := rfl
@[simp] theorem feedCrc_prog (x : Byte) : (feedCrc x s).prog = s.prog := rfl
@[simp] theorem feedCrc_cfg (x : Byte) : (feedCrc x s).cfg = s.cfg := rfl
@[simp] theorem feedCrc_draws (x : Byte) : (feedCrc x s).draws = s.draws := rfl

/-! ### setAdler -/

@[simp] theorem setAdler_crc (p : AdlerPair) : (setAdler p s).crc = s.crc := rfl
@[simp] theorem setAdler_a (p : AdlerPair) : (setAdler p s).a = p.a := rfl
@[simp] theorem setAdler_b (p : AdlerPair) : (setAdler p s).b = p.b := rfl
@[simp] theorem setAdler_result (p : AdlerPair) : (setAdler p s).result = s.result := rfl
@[simp] theorem setAdler_phase (p : AdlerPair) : (setAdler p s).phase = s.phase := rfl
@[simp] theorem setAdler_zfinal (p : AdlerPair) : (setAdler p s).zfinal = s.zfinal := rfl
@[simp] theorem setAdler_rowlast (p : AdlerPair) : (setAdler p s).rowlast = s.rowlast := rfl
@[simp] theorem setAdler_remain (p : AdlerPair) : (setAdler p s).remain = s.remain := rfl
@[simp] theorem setAdler_rowrem (p : AdlerPair) : (setAdler p s).rowrem = s.rowrem := rfl
@[simp] theorem setAdler_segrem (p : AdlerPair) : (setAdler p s).segrem = s.segrem := rfl
@[simp] theorem setAdler_fault (p : AdlerPair) : (setAdler p s).fault = s.fault := rfl
@[simp] theorem setAdler_pc (p : AdlerPair) : (setAdler p s).pc = s.pc := rfl
@[simp] theorem setAdler_out (p : AdlerPair) : (setAdler p s).out = s.out := rfl
@[simp] theorem setAdler_prog (p : AdlerPair) : (setAdler p s).prog = s.prog := rfl
@[simp] theorem setAdler_cfg (p : AdlerPair) : (setAdler p s).cfg = s.cfg := rfl
@[simp] theorem setAdler_draws (p : AdlerPair) : (setAdler p s).draws = s.draws := rfl

/-! ### recordCode -/

@[simp] theorem recordCode_crc (c : FaultCode) : (recordCode c s).crc = s.crc := rfl
@[simp] theorem recordCode_a (c : FaultCode) : (recordCode c s).a = s.a := rfl
@[simp] theorem recordCode_b (c : FaultCode) : (recordCode c s).b = s.b := rfl
@[simp] theorem recordCode_result (c : FaultCode) : (recordCode c s).result = s.result := rfl
@[simp] theorem recordCode_phase (c : FaultCode) : (recordCode c s).phase = s.phase := rfl
@[simp] theorem recordCode_zfinal (c : FaultCode) : (recordCode c s).zfinal = s.zfinal := rfl
@[simp] theorem recordCode_rowlast (c : FaultCode) : (recordCode c s).rowlast = s.rowlast := rfl
@[simp] theorem recordCode_remain (c : FaultCode) : (recordCode c s).remain = s.remain := rfl
@[simp] theorem recordCode_rowrem (c : FaultCode) : (recordCode c s).rowrem = s.rowrem := rfl
@[simp] theorem recordCode_segrem (c : FaultCode) : (recordCode c s).segrem = s.segrem := rfl
@[simp] theorem recordCode_fault (c : FaultCode) : (recordCode c s).fault = c := rfl
@[simp] theorem recordCode_pc (c : FaultCode) : (recordCode c s).pc = s.pc := rfl
@[simp] theorem recordCode_out (c : FaultCode) : (recordCode c s).out = s.out := rfl
@[simp] theorem recordCode_prog (c : FaultCode) : (recordCode c s).prog = s.prog := rfl
@[simp] theorem recordCode_cfg (c : FaultCode) : (recordCode c s).cfg = s.cfg := rfl
@[simp] theorem recordCode_draws (c : FaultCode) : (recordCode c s).draws = s.draws := rfl

/-! ### recordIo -/

@[simp] theorem recordIo_crc : (recordIo s).crc = Config.freeWord s.draws := rfl
@[simp] theorem recordIo_a : (recordIo s).a = Config.freeWord (s.draws + 1) := rfl
@[simp] theorem recordIo_b : (recordIo s).b = Config.freeWord (s.draws + 2) := rfl
@[simp] theorem recordIo_result : (recordIo s).result = Config.freeWord (s.draws + 3) := rfl
@[simp] theorem recordIo_phase : (recordIo s).phase = Config.freePhase s.draws := rfl
@[simp] theorem recordIo_zfinal : (recordIo s).zfinal = Config.freeBit s.draws := rfl
@[simp] theorem recordIo_rowlast : (recordIo s).rowlast = Config.freeBit (s.draws + 1) := rfl
@[simp] theorem recordIo_remain : (recordIo s).remain = Config.freeWord (s.draws + 4) := rfl
@[simp] theorem recordIo_rowrem : (recordIo s).rowrem = Config.freeWord (s.draws + 5) := rfl
@[simp] theorem recordIo_segrem : (recordIo s).segrem = Config.freeHalf s.draws := rfl
@[simp] theorem recordIo_fault : (recordIo s).fault = .io := rfl
@[simp] theorem recordIo_pc : (recordIo s).pc = s.pc := rfl
@[simp] theorem recordIo_out : (recordIo s).out = s.out := rfl
@[simp] theorem recordIo_prog : (recordIo s).prog = s.prog := rfl
@[simp] theorem recordIo_cfg : (recordIo s).cfg = s.cfg := rfl
@[simp] theorem recordIo_draws : (recordIo s).draws = s.draws + 6 := rfl

/-! ### openBlock -/

@[simp] theorem openBlock_crc (f : Bool) (n : Nat) : (openBlock f n s).crc = s.crc := rfl
@[simp] theorem openBlock_a (f : Bool) (n : Nat) : (openBlock f n s).a = s.a := rfl
@[simp] theorem openBlock_b (f : Bool) (n : Nat) : (openBlock f n s).b = s.b := rfl
@[simp] theorem openBlock_result (f : Bool) (n : Nat) : (openBlock f n s).result = s.result := rfl
@[simp] theorem openBlock_phase (f : Bool) (n : Nat) : (openBlock f n s).phase = s.phase := rfl
@[simp] theorem openBlock_zfinal (f : Bool) (n : Nat) : (openBlock f n s).zfinal = (f || s.zfinal) := rfl
@[simp] theorem openBlock_rowlast (f : Bool) (n : Nat) : (openBlock f n s).rowlast = s.rowlast := rfl
@[simp] theorem openBlock_remain (f : Bool) (n : Nat) : (openBlock f n s).remain = s.remain := rfl
@[simp] theorem openBlock_rowrem (f : Bool) (n : Nat) : (openBlock f n s).rowrem = s.rowrem := rfl
@[simp] theorem openBlock_segrem (f : Bool) (n : Nat) : (openBlock f n s).segrem = BitVec.ofNat 16 n := rfl
@[simp] theorem openBlock_fault (f : Bool) (n : Nat) : (openBlock f n s).fault = s.fault := rfl
@[simp] theorem openBlock_pc (f : Bool) (n : Nat) : (openBlock f n s).pc = s.pc := rfl
@[simp] theorem openBlock_out (f : Bool) (n : Nat) : (openBlock f n s).out = s.out := rfl
@[simp] theorem openBlock_prog (f : Bool) (n : Nat) : (openBlock f n s).prog = s.prog := rfl
@[simp] theorem openBlock_cfg (f : Bool) (n : Nat) : (openBlock f n s).cfg = s.cfg := rfl
@[simp] theorem openBlock_draws (f : Bool) (n : Nat) : (openBlock f n s).draws = s.draws := rfl

/-! ### beginRow -/

@[simp] theorem beginRow_crc (l : Bool) (n : Word) : (beginRow l n s).crc = s.crc := rfl
@[simp] theorem beginRow_a (l : Bool) (n : Word) : (beginRow l n s).a = s.a := rfl
@[simp] theorem beginRow_b (l : Bool) (n : Word) : (beginRow l n s).b = s.b := rfl
@[simp] theorem beginRow_result (l : Bool) (n : Word) : (beginRow l n s).result = s.result := rfl
@[simp] theorem beginRow_phase (l : Bool) (n : Word) : (beginRow l n s).phase = s.phase := rfl
@[simp] theorem beginRow_zfinal (l : Bool) (n : Word) : (beginRow l n s).zfinal = s.zfinal := rfl
@[simp] theorem beginRow_rowlast (l : Bool) (n : Word) : (beginRow l n s).rowlast = l := rfl
@[simp] theorem beginRow_remain (l : Bool) (n : Word) : (beginRow l n s).remain = s.remain := rfl
@[simp] theorem beginRow_rowrem (l : Bool) (n : Word) : (beginRow l n s).rowrem = n := rfl
@[simp] theorem beginRow_segrem (l : Bool) (n : Word) : (beginRow l n s).segrem = s.segrem := rfl
@[simp] theorem beginRow_fault (l : Bool) (n : Word) : (beginRow l n s).fault = s.fault := rfl
@[simp] theorem beginRow_pc (l : Bool) (n : Word) : (beginRow l n s).pc = s.pc := rfl
@[simp] theorem beginRow_out (l : Bool) (n : Word) : (beginRow l n s).out = s.out := rfl
@[simp] theorem beginRow_prog (l : Bool) (n : Word) : (beginRow l n s).prog = s.prog := rfl
@[simp] theorem beginRow_cfg (l : Bool) (n : Word) : (beginRow l n s).cfg = s.cfg := rfl
@[simp] theorem beginRow_draws (l : Bool) (n : Word) : (beginRow l n s).draws = s.draws := rfl

/-! ### setPhase -/

@[simp] theorem setPhase_crc (p : Phase) : (setPhase p s).crc = s.crc := rfl
@[simp] theorem setPhase_a (p : Phase) : (setPhase p s).a = s.a := rfl
@[simp] theorem setPhase_b (p : Phase) : (setPhase p s).b = s.b := rfl
@[simp] theorem setPhase_result (p : Phase) : (setPhase p s).result = s.result := rfl
@[simp] theorem setPhase_phase (p : Phase) : (setPhase p s).phase = p := rfl
@[simp] theorem setPhase_zfinal (p : Phase) : (setPhase p s).zfinal = s.zfinal := rfl
@[simp] theorem setPhase_rowlast (p : Phase) : (setPhase p s).rowlast = s.rowlast := rfl
@[simp] theorem setPhase_remain (p : Phase) : (setPhase p s).remain = s.remain := rfl
@[simp] theorem setPhase_rowrem (p : Phase) : (setPhase p s).rowrem = s.rowrem := rfl
@[simp] theorem setPhase_segrem (p : Phase) : (setPhase p s).segrem = s.segrem := rfl
@[simp] theorem setPhase_fault (p : Phase) : (setPhase p s).fault = s.fault := rfl
@[simp] theorem setPhase_pc (p : Phase) : (setPhase p s).pc = s.pc := rfl
@[simp] theorem setPhase_out (p : Phase) : (setPhase p s).out = s.out := rfl
@[simp] theorem setPhase_prog (p : Phase) : (setPhase p s).prog = s.prog := rfl
@[simp] theorem setPhase_cfg (p : Phase) : (setPhase p s).cfg = s.cfg := rfl
@[simp] theorem setPhase_draws (p : Phase) : (setPhase p s).draws = s.draws := rfl

/-! ### countRow -/

@[simp] theorem countRow_crc : (countRow s).crc = s.crc := rfl
@[simp] theorem countRow_a : (countRow s).a = s.a := rfl
@[simp] theorem countRow_b : (countRow s).b = s.b := rfl
@[simp] theorem countRow_result : (countRow s).result = s.result := rfl
@[simp] theorem countRow_phase : (countRow s).phase = s.phase := rfl
@[simp] theorem countRow_zfinal : (countRow s).zfinal = s.zfinal := rfl
@[simp] theorem countRow_rowlast : (countRow s).rowlast = s.rowlast := rfl
@[simp] theorem countRow_remain : (countRow s).remain = s.remain := rfl
@[simp] theorem countRow_rowrem : (countRow s).rowrem = s.rowrem - 1#32 := rfl
@[simp] theorem countRow_segrem : (countRow s).segrem = s.segrem - 1#16 := rfl
@[simp] theorem countRow_fault : (countRow s).fault = s.fault := rfl
@[simp] theorem countRow_pc : (countRow s).pc = s.pc := rfl
@[simp] theorem countRow_out : (countRow s).out = s.out := rfl
@[simp] theorem countRow_prog : (countRow s).prog = s.prog := rfl
@[simp] theorem countRow_cfg : (countRow s).cfg = s.cfg := rfl
@[simp] theorem countRow_draws : (countRow s).draws = s.draws := rfl

/-! ### seedCrc -/

@[simp] theorem seedCrc_crc : (seedCrc s).crc = crcSeed := rfl
@[simp] theorem seedCrc_a : (seedCrc s).a = s.a := rfl
@[simp] theorem seedCrc_b : (seedCrc s).b = s.b := rfl
@[simp] theorem seedCrc_result : (seedCrc s).result = s.result := rfl
@[simp] theorem seedCrc_phase : (seedCrc s).phase = s.phase := rfl
@[simp] theorem seedCrc_zfinal : (seedCrc s).zfinal = s.zfinal := rfl
@[simp] theorem seedCrc_rowlast : (seedCrc s).rowlast = s.rowlast := rfl
@[simp] theorem seedCrc_remain : (seedCrc s).remain = s.remain := rfl
@[simp] theorem seedCrc_rowrem : (seedCrc s).rowrem = s.rowrem := rfl
@[simp] theorem seedCrc_segrem : (seedCrc s).segrem = s.segrem := rfl
@[simp] theorem seedCrc_fault : (seedCrc s).fault = s.fault := rfl
@[simp] theorem seedCrc_pc : (seedCrc s).pc = s.pc := rfl
@[simp] theorem seedCrc_out : (seedCrc s).out = s.out := rfl
@[simp] theorem seedCrc_prog : (seedCrc s).prog = s.prog := rfl
@[simp] theorem seedCrc_cfg : (seedCrc s).cfg = s.cfg := rfl
@[simp] theorem seedCrc_draws : (seedCrc s).draws = s.draws := rfl

/-! ### setResult -/

@[simp] theorem setResult_crc (v : Word) : (setResult v s).crc = s.crc := rfl
@[simp] theorem setResult_a (v : Word) : (setResult v s).a = s.a := rfl
@[simp] theorem setResult_b (v : Word) : (setResult v s).b = s.b := rfl
@[simp] theorem setResult_result (v : Word) : (setResult v s).result = v := rfl
@[simp] theorem setResult_phase (v : Word) : (setResult v s).phase = s.phase := rfl
@[simp] theorem setResult_zfinal (v : Word) : (setResult v s).zfinal = s.zfinal := rfl
@[simp] theorem setResult_rowlast (v : Word) : (setResult v s).rowlast = s.rowlast := rfl
@[simp] theorem setResult_remain (v : Word) : (setResult v s).remain = s.remain := rfl
@[simp] theorem setResult_rowrem (v : Word) : (setResult v s).rowrem = s.rowrem := rfl
@[simp] theorem setResult_segrem (v : Word) : (setResult v s).segrem = s.segrem := rfl
@[simp] theorem setResult_fault (v : Word) : (setResult v s).fault = s.fault := rfl
@[simp] theorem setResult_pc (v : Word) : (setResult v s).pc = s.pc := rfl
@[simp] theorem setResult_out (v : Word) : (setResult v s).out = s.out := rfl
@[simp] theorem setResult_prog (v : Word) : (setResult v s).prog = s.prog := rfl
@[simp] theorem setResult_cfg (v : Word) : (setResult v s).cfg = s.cfg := rfl
@[simp] theorem setResult_draws (v : Word) : (setResult v s).draws = s.draws := rfl

/-! ### declareChunk -/

@[simp] theorem declareChunk_crc (len : Word) : (declareChunk len s).crc = s.crc := rfl
@[simp] theorem declareChunk_a (len : Word) : (declareChunk len s).a = s.a := rfl
@[simp] theorem declareChunk_b (len : Word) : (declareChunk len s).b = s.b := rfl
@[simp] theorem declareChunk_result (len : Word) : (declareChunk len s).result = s.result := rfl
@[simp] theorem declareChunk_phase (len : Word) : (declareChunk len s).phase = .tag := rfl
@[simp] theorem declareChunk_zfinal (len : Word) : (declareChunk len s).zfinal = s.zfinal := rfl
@[simp] theorem declareChunk_rowlast (len : Word) : (declareChunk len s).rowlast = s.rowlast := rfl
@[simp] theorem declareChunk_remain (len : Word) : (declareChunk len s).remain = len := rfl
@[simp] theorem declareChunk_rowrem (len : Word) : (declareChunk len s).rowrem = s.rowrem := rfl
@[simp] theorem declareChunk_segrem (len : Word) : (declareChunk len s).segrem = s.segrem := rfl
@[simp] theorem declareChunk_fault (len : Word) : (declareChunk len s).fault = s.fault := rfl
@[simp] theorem declareChunk_pc (len : Word) : (declareChunk len s).pc = s.pc := rfl
@[simp] theorem declareChunk_out (len : Word) : (declareChunk len s).out = s.out := rfl
@[simp] theorem declareChunk_prog (len : Word) : (declareChunk len s).prog = s.prog := rfl
@[simp] theorem declareChunk_cfg (len : Word) : (declareChunk len s).cfg = s.cfg := rfl
@[simp] theorem declareChunk_draws (len : Word) : (declareChunk len s).draws = s.draws := rfl

/-! ### beginStream -/

@[simp] theorem beginStream_crc : (beginStream s).crc = s.crc := rfl
@[simp] theorem beginStream_a : (beginStream s).a = adlerA0 := rfl
@[simp] theorem beginStream_b : (beginStream s).b = adlerB0 := rfl
@[simp] theorem beginStream_result : (beginStream s).result = s.result := rfl
@[simp] theorem beginStream_phase : (beginStream s).phase = s.phase := rfl
@[simp] theorem beginStream_zfinal : (beginStream s).zfinal = false := rfl
@[simp] theorem beginStream_rowlast : (beginStream s).rowlast = s.rowlast := rfl
@[simp] theorem beginStream_remain : (beginStream s).remain = s.remain := rfl
@[simp] theorem beginStream_rowrem : (beginStream s).rowrem = s.rowrem := rfl
@[simp] theorem beginStream_segrem : (beginStream s).segrem = s.segrem := rfl
@[simp] theorem beginStream_fault : (beginStream s).fault = s.fault := rfl
@[simp] theorem beginStream_pc : (beginStream s).pc = s.pc := rfl
@[simp] theorem beginStream_out : (beginStream s).out = s.out := rfl
@[simp] theorem beginStream_prog : (beginStream s).prog = s.prog := rfl
@[simp] theorem beginStream_cfg : (beginStream s).cfg = s.cfg := rfl
@[simp] theorem beginStream_draws : (beginStream s).draws = s.draws := rfl

/-! ### sentRaw -/

@[simp] theorem sentRaw_crc (bs : List Byte) : (sentRaw bs s).crc = s.crc := rfl
@[simp] theorem sentRaw_a (bs : List Byte) : (sentRaw bs s).a = s.a := rfl
@[simp] theorem sentRaw_b (bs : List Byte) : (sentRaw bs s).b = s.b := rfl
@[simp] theorem sentRaw_result (bs : List Byte) : (sentRaw bs s).result = s.result := rfl
@[simp] theorem sentRaw_phase (bs : List Byte) : (sentRaw bs s).phase = s.phase := rfl
@[simp] theorem sentRaw_zfinal (bs : List Byte) : (sentRaw bs s).zfinal = s.zfinal := rfl
@[simp] theorem sentRaw_rowlast (bs : List Byte) : (sentRaw bs s).rowlast = s.rowlast := rfl
@[simp] theorem sentRaw_remain (bs : List Byte) : (sentRaw bs s).remain = s.remain := rfl
@[simp] theorem sentRaw_rowrem (bs : List Byte) : (sentRaw bs s).rowrem = s.rowrem := rfl
@[simp] theorem sentRaw_segrem (bs : List Byte) : (sentRaw bs s).segrem = s.segrem := rfl
@[simp] theorem sentRaw_fault (bs : List Byte) : (sentRaw bs s).fault = s.fault := rfl
@[simp] theorem sentRaw_pc (bs : List Byte) : (sentRaw bs s).pc = s.pc := rfl
@[simp] theorem sentRaw_out (bs : List Byte) : (sentRaw bs s).out = s.out ++ bs := rfl
@[simp] theorem sentRaw_prog (bs : List Byte) : (sentRaw bs s).prog = s.prog := rfl
@[simp] theorem sentRaw_cfg (bs : List Byte) : (sentRaw bs s).cfg = s.cfg := rfl
@[simp] theorem sentRaw_draws (bs : List Byte) : (sentRaw bs s).draws = s.draws := rfl

/-! ### sentTag -/

@[simp] theorem sentTag_crc (bs : List Byte) : (sentTag bs s).crc = crcRun s.crc bs := rfl
@[simp] theorem sentTag_a (bs : List Byte) : (sentTag bs s).a = s.a := rfl
@[simp] theorem sentTag_b (bs : List Byte) : (sentTag bs s).b = s.b := rfl
@[simp] theorem sentTag_result (bs : List Byte) : (sentTag bs s).result = s.result := rfl
@[simp] theorem sentTag_phase (bs : List Byte) : (sentTag bs s).phase = s.phase := rfl
@[simp] theorem sentTag_zfinal (bs : List Byte) : (sentTag bs s).zfinal = s.zfinal := rfl
@[simp] theorem sentTag_rowlast (bs : List Byte) : (sentTag bs s).rowlast = s.rowlast := rfl
@[simp] theorem sentTag_remain (bs : List Byte) : (sentTag bs s).remain = s.remain := rfl
@[simp] theorem sentTag_rowrem (bs : List Byte) : (sentTag bs s).rowrem = s.rowrem := rfl
@[simp] theorem sentTag_segrem (bs : List Byte) : (sentTag bs s).segrem = s.segrem := rfl
@[simp] theorem sentTag_fault (bs : List Byte) : (sentTag bs s).fault = s.fault := rfl
@[simp] theorem sentTag_pc (bs : List Byte) : (sentTag bs s).pc = s.pc := rfl
@[simp] theorem sentTag_out (bs : List Byte) : (sentTag bs s).out = s.out ++ bs := rfl
@[simp] theorem sentTag_prog (bs : List Byte) : (sentTag bs s).prog = s.prog := rfl
@[simp] theorem sentTag_cfg (bs : List Byte) : (sentTag bs s).cfg = s.cfg := rfl
@[simp] theorem sentTag_draws (bs : List Byte) : (sentTag bs s).draws = s.draws := rfl

/-! ### sentPay -/

@[simp] theorem sentPay_crc (bs : List Byte) : (sentPay bs s).crc = crcRun s.crc bs := rfl
@[simp] theorem sentPay_a (bs : List Byte) : (sentPay bs s).a = s.a := rfl
@[simp] theorem sentPay_b (bs : List Byte) : (sentPay bs s).b = s.b := rfl
@[simp] theorem sentPay_result (bs : List Byte) : (sentPay bs s).result = s.result := rfl
@[simp] theorem sentPay_phase (bs : List Byte) : (sentPay bs s).phase = s.phase := rfl
@[simp] theorem sentPay_zfinal (bs : List Byte) : (sentPay bs s).zfinal = s.zfinal := rfl
@[simp] theorem sentPay_rowlast (bs : List Byte) : (sentPay bs s).rowlast = s.rowlast := rfl
@[simp] theorem sentPay_remain (bs : List Byte) : (sentPay bs s).remain = s.remain - BitVec.ofNat 32 bs.length := rfl
@[simp] theorem sentPay_rowrem (bs : List Byte) : (sentPay bs s).rowrem = s.rowrem := rfl
@[simp] theorem sentPay_segrem (bs : List Byte) : (sentPay bs s).segrem = s.segrem := rfl
@[simp] theorem sentPay_fault (bs : List Byte) : (sentPay bs s).fault = s.fault := rfl
@[simp] theorem sentPay_pc (bs : List Byte) : (sentPay bs s).pc = s.pc := rfl
@[simp] theorem sentPay_out (bs : List Byte) : (sentPay bs s).out = s.out ++ bs := rfl
@[simp] theorem sentPay_prog (bs : List Byte) : (sentPay bs s).prog = s.prog := rfl
@[simp] theorem sentPay_cfg (bs : List Byte) : (sentPay bs s).cfg = s.cfg := rfl
@[simp] theorem sentPay_draws (bs : List Byte) : (sentPay bs s).draws = s.draws := rfl

/-! ### trapped -/

@[simp] theorem trapped_crc (c : FaultCode) : (trapped c s).crc = s.crc := rfl
@[simp] theorem trapped_a (c : FaultCode) : (trapped c s).a = s.a := rfl
@[simp] theorem trapped_b (c : FaultCode) : (trapped c s).b = s.b := rfl
@[simp] theorem trapped_result (c : FaultCode) : (trapped c s).result = s.result := rfl
@[simp] theorem trapped_phase (c : FaultCode) : (trapped c s).phase = s.phase := rfl
@[simp] theorem trapped_zfinal (c : FaultCode) : (trapped c s).zfinal = s.zfinal := rfl
@[simp] theorem trapped_rowlast (c : FaultCode) : (trapped c s).rowlast = s.rowlast := rfl
@[simp] theorem trapped_remain (c : FaultCode) : (trapped c s).remain = s.remain := rfl
@[simp] theorem trapped_rowrem (c : FaultCode) : (trapped c s).rowrem = s.rowrem := rfl
@[simp] theorem trapped_segrem (c : FaultCode) : (trapped c s).segrem = s.segrem := rfl
@[simp] theorem trapped_fault (c : FaultCode) : (trapped c s).fault = c := rfl
@[simp] theorem trapped_pc (c : FaultCode) : (trapped c s).pc = s.pc := rfl
@[simp] theorem trapped_out (c : FaultCode) : (trapped c s).out = s.out := rfl
@[simp] theorem trapped_prog (c : FaultCode) : (trapped c s).prog = s.prog := rfl
@[simp] theorem trapped_cfg (c : FaultCode) : (trapped c s).cfg = s.cfg := rfl
@[simp] theorem trapped_draws (c : FaultCode) : (trapped c s).draws = s.draws := rfl

end Sys2Proof.Machine
end

