-- ==== Sys2Proof/Laws/Ops.lean ====
section
/-!
SUPPORT. What each shared operation of Machine/Ops.lean can do, said once: the flow of a command, the emit primitives over
a byte sequence, `seg_header`, `put` and the row-open. Later proofs cite these and do not unfold the operations.
-/

namespace Sys2Proof.Machine

/-! ### Flow -/

@[simp] theorem andThen_go (s : State) (k : State → Flow) : (Flow.go s).andThen k = k s := rfl
@[simp] theorem andThen_raised (s : State) (k : State → Flow) : (Flow.raised s).andThen k = .raised s := rfl
@[simp] theorem andThen_stuck (r : Fault) (k : State → Flow) : (Flow.stuck r).andThen k = .stuck r := rfl
@[simp] theorem finish_go (s : State) : (Flow.go s).finish = .next (advancePc s) := rfl
@[simp] theorem finish_raised (s : State) : (Flow.raised s).finish = .next s := rfl
@[simp] theorem finish_stuck (r : Fault) : (Flow.stuck r).finish = .fault r := rfl
@[simp] theorem check_true (c : FaultCode) (s : State) : check true c s = .go s := rfl
@[simp] theorem check_false (c : FaultCode) (s : State) : check false c s = raise c s := rfl
@[simp] theorem raise_phase (s : State) : raise .phase s = .raised (trapped .phase s) := rfl
@[simp] theorem raise_range (s : State) : raise .range s = .raised (trapped .range s) := rfl
@[simp] theorem raise_length (s : State) : raise .length s = .raised (trapped .length s) := rfl
@[simp] theorem raise_illegal (s : State) : raise .illegal s = .raised (trapped .illegal s) := rfl
@[simp] theorem raise_io (s : State) : raise .io s = .raised (recordIo s) := rfl

theorem andThen_assoc (m : Flow) (f g : State → Flow) :
    (m.andThen f).andThen g = m.andThen fun s => (f s).andThen g := by
  cases m <;> rfl

theorem command_live {s : State} (h : s.fault = .none) (body : State → Flow) :
    command s body = (body s).finish := by
  simp [command, halted, h]

theorem command_halted {s : State} (h : s.fault ≠ .none) (body : State → Flow) :
    command s body = .next s := by
  simp [command, halted, h]

/-! ### The sink -/

/-- The sink's answers ahead depend on the parameters and on the length of the output alone. -/
theorem sinkTakes_congr {s t : State} (hc : t.cfg = s.cfg) (ho : t.out.length = s.out.length) (n : Nat) :
    SinkTakes n t ↔ SinkTakes n s := by
  simp [SinkTakes, sinkAccepts, hc, ho]

theorem sinkFailsAt_congr {s t : State} (hc : t.cfg = s.cfg) (ho : t.out.length = s.out.length) (k : Nat) :
    SinkFailsAt k t ↔ SinkFailsAt k s := by
  simp [SinkFailsAt, sinkTakes_congr hc ho, sinkAccepts, hc, ho]

@[simp] theorem sinkTakes_zero (s : State) : SinkTakes 0 s := fun k h => absurd h (Nat.not_lt_zero k)

theorem sinkTakes_succ {s t : State} (hc : t.cfg = s.cfg) (ho : t.out.length = s.out.length + 1) (n : Nat) :
    SinkTakes (n + 1) s ↔ sinkAccepts s s.out.length = true ∧ SinkTakes n t := by
  constructor
  · intro h
    refine ⟨h 0 (Nat.succ_pos n), fun k hk => ?_⟩
    have := h (k + 1) (Nat.succ_lt_succ hk)
    simpa [sinkAccepts, hc, ho, Nat.add_assoc, Nat.add_comm 1 k] using this
  · rintro ⟨h0, h⟩ k hk
    cases k with
    | zero => simpa using h0
    | succ k =>
      have := h k (Nat.lt_of_succ_lt_succ hk)
      simpa [sinkAccepts, hc, ho, Nat.add_assoc, Nat.add_comm 1 k] using this

theorem sinkTakes_mono {s : State} {m n : Nat} (h : SinkTakes n s) (hm : m ≤ n) : SinkTakes m s :=
  fun k hk => h k (Nat.lt_of_lt_of_le hk hm)

theorem sinkFailsAt_succ {s t : State} (hc : t.cfg = s.cfg) (ho : t.out.length = s.out.length + 1) (k : Nat) :
    SinkFailsAt (k + 1) s ↔ sinkAccepts s s.out.length = true ∧ SinkFailsAt k t := by
  simp [SinkFailsAt, sinkTakes_succ hc ho, sinkAccepts, hc, ho, Nat.add_assoc, Nat.add_comm 1 k, and_assoc]

/-- Over the next `n` bytes the sink either takes all or fails at one of them. -/
theorem sink_cases (n : Nat) (s : State) : SinkTakes n s ∨ ∃ k, k < n ∧ SinkFailsAt k s := by
  induction n with
  | zero => exact .inl (sinkTakes_zero s)
  | succ n ih =>
    rcases ih with h | ⟨k, hk, hf⟩
    · cases hn : sinkAccepts s (s.out.length + n) with
      | false => exact .inr ⟨n, Nat.lt_succ_self n, h, hn⟩
      | true =>
        refine .inl fun k hk => ?_
        rcases Nat.lt_succ_iff_lt_or_eq.mp hk with hlt | rfl
        · exact h k hlt
        · exact hn
    · exact .inr ⟨k, Nat.lt_succ_of_lt hk, hf⟩

/-- A sink that takes `n` bytes does not fail at one of them. -/
theorem sinkTakes_not_fails {n k : Nat} {s : State} (h : SinkTakes n s) (hk : k < n) : ¬ SinkFailsAt k s := by
  intro hf
  have := h k hk
  simp [hf.2] at this

/-- Where the sink first fails is one place. -/
theorem sinkFailsAt_unique {j k : Nat} {s : State} (hj : SinkFailsAt j s) (hk : SinkFailsAt k s) : j = k := by
  rcases Nat.lt_trichotomy j k with h | h | h
  · exact absurd hj (sinkTakes_not_fails hk.1 h)
  · exact h
  · exact absurd hk (sinkTakes_not_fails hj.1 h)

/-- What an IO fault leaves defined is preserved backwards over a state that differs in other registers only. -/
theorem ioStopped_of {bs cs : List Byte} {s u t : State} (h : IoStopped bs u t) (ho : u.out = s.out ++ cs)
    (hp : u.pc = s.pc) (hg : u.prog = s.prog) (hc : u.cfg = s.cfg) : IoStopped (cs ++ bs) s t := by
  obtain ⟨h1, h2, h3, h4, h5⟩ := h
  exact ⟨h1, by rw [h2, ho, List.append_assoc], h3.trans hp, h4.trans hg, h5.trans hc⟩

theorem recordIo_stopped (s : State) : IoStopped [] s (recordIo s) := by simp [IoStopped]

/-! ### Bytes in a row -/

@[simp] theorem crcRun_nil (c : Word) : crcRun c [] = c := rfl
@[simp] theorem crcRun_cons (c : Word) (x : Byte) (bs : List Byte) :
    crcRun c (x :: bs) = crcRun (crcStep c x) bs := rfl
@[simp] theorem adlerRun_nil (p : AdlerPair) : adlerRun p [] = p := rfl
@[simp] theorem adlerRun_cons (p : AdlerPair) (x : Byte) (bs : List Byte) :
    adlerRun p (x :: bs) = adlerRun (adlerStep p x) bs := rfl
@[simp] theorem sentRaw_nil (s : State) : sentRaw [] s = s := by simp [sentRaw]
@[simp] theorem sentTag_nil (s : State) : sentTag [] s = s := by simp [sentTag]
@[simp] theorem sentPay_nil (s : State) : sentPay [] s = s := by simp [sentPay]

theorem sentRaw_cons (x : Byte) (bs : List Byte) (s : State) :
    sentRaw (x :: bs) s = sentRaw bs (appendByte x s) := by
  simp [sentRaw, appendByte]

theorem sentTag_cons (x : Byte) (bs : List Byte) (s : State) :
    sentTag (x :: bs) s = sentTag bs (feedCrc x (appendByte x s)) := by
  simp [sentTag, appendByte, feedCrc]

theorem sentPay_cons (x : Byte) (bs : List Byte) (s : State) :
    sentPay (x :: bs) s = sentPay bs (countPayload x (appendByte x s)) := by
  have h : s.remain - BitVec.ofNat 32 (bs.length + 1) = s.remain - 1#32 - BitVec.ofNat 32 bs.length := by
    rw [Nat.add_comm, BitVec.ofNat_add, ← BitVec.sub_sub]
  simp [sentPay, appendByte, countPayload, h]

theorem emitRaw_takes {s : State} (h : sinkAccepts s s.out.length = true) (x : Byte) :
    emitRaw x s = .go (appendByte x s) := by
  simp [emitRaw, h]

theorem emitRaw_fails {s : State} (h : sinkAccepts s s.out.length = false) (x : Byte) :
    emitRaw x s = .raised (recordIo s) := by
  simp [emitRaw, h]

/-- The number a counter spells after a decrement that a rule has allowed. -/
theorem toNat_sub_one {w : Nat} {c : BitVec w} (hw : 1 < 2 ^ w) (h : 1 ≤ c.toNat) : (c - 1).toNat = c.toNat - 1 := by
  have h1 : (1 : BitVec w).toNat = 1 := by
    simp [BitVec.toNat_ofNat, Nat.mod_eq_of_lt hw]
  have := c.isLt
  rw [BitVec.toNat_sub, h1]
  rw [show 2 ^ w - 1 + c.toNat = (c.toNat - 1) + 2 ^ w by omega, Nat.add_mod_right, Nat.mod_eq_of_lt (by omega)]

theorem word_toNat_sub_one {c : Word} (h : 1 ≤ c.toNat) : (c - 1#32).toNat = c.toNat - 1 := toNat_sub_one (by decide) h
theorem half_toNat_sub_one {c : Half} (h : 1 ≤ c.toNat) : (c - 1#16).toNat = c.toNat - 1 := toNat_sub_one (by decide) h

/-- The number `remain` spells after payload bytes it owed. -/
theorem toNat_sub_ofNat {c : Word} {n : Nat} (h : n ≤ c.toNat) : (c - BitVec.ofNat 32 n).toNat = c.toNat - n := by
  have := c.isLt
  rw [BitVec.toNat_sub, BitVec.toNat_ofNat, Nat.mod_eq_of_lt (a := n) (by omega)]
  rw [show 2 ^ 32 - n + c.toNat = (c.toNat - n) + 2 ^ 32 by omega, Nat.add_mod_right, Nat.mod_eq_of_lt (by omega)]

theorem word_eq_zero_iff {c : Word} : c = 0#32 ↔ c.toNat = 0 := by
  constructor
  · rintro rfl; rfl
  · intro h; exact BitVec.eq_of_toNat_eq (by simpa using h)

theorem half_eq_zero_iff {c : Half} : c = 0#16 ↔ c.toNat = 0 := by
  constructor
  · rintro rfl; rfl
  · intro h; exact BitVec.eq_of_toNat_eq (by simpa using h)

/-- What `emit_raw` over a byte sequence does (R55): all bytes, or a stop by IO at the byte the sink refuses. -/
theorem emitAll_raw_cases (bs : List Byte) (s : State) :
    (SinkTakes bs.length s ∧ emitAll emitRaw bs s = .go (sentRaw bs s)) ∨
      ∃ k t, k < bs.length ∧ SinkFailsAt k s ∧ emitAll emitRaw bs s = .raised t ∧ IoStopped (bs.take k) s t := by
  induction bs generalizing s with
  | nil => exact .inl ⟨sinkTakes_zero s, by simp [emitAll]⟩
  | cons x bs ih =>
    cases hx : sinkAccepts s s.out.length with
    | false =>
      refine .inr ⟨0, recordIo s, Nat.succ_pos _, ⟨sinkTakes_zero s, by simpa using hx⟩, ?_, recordIo_stopped s⟩
      simp [emitAll, emitRaw_fails hx]
    | true =>
      have hl : (appendByte x s).out.length = s.out.length + 1 := by simp
      rcases ih (appendByte x s) with ⟨h1, h2⟩ | ⟨k, t, hk, hf, h3, h4⟩
      · exact .inl ⟨(sinkTakes_succ (s := s) (t := appendByte x s) rfl hl _).2 ⟨hx, h1⟩, by
          simp [emitAll, emitRaw_takes hx, h2, sentRaw_cons]⟩
      · refine .inr ⟨k + 1, t, Nat.succ_lt_succ hk, (sinkFailsAt_succ (s := s) (t := appendByte x s) rfl hl k).2 ⟨hx, hf⟩, ?_, ?_⟩
        · simp [emitAll, emitRaw_takes hx, h3]
        · exact ioStopped_of (cs := [x]) h4 rfl rfl rfl rfl

/-- What a run of tag bytes does (R152). -/
theorem emitAll_tag_cases (bs : List Byte) (s : State) :
    (SinkTakes bs.length s ∧ emitAll emitTag bs s = .go (sentTag bs s)) ∨
      ∃ k t, k < bs.length ∧ SinkFailsAt k s ∧ emitAll emitTag bs s = .raised t ∧ IoStopped (bs.take k) s t := by
  induction bs generalizing s with
  | nil => exact .inl ⟨sinkTakes_zero s, by simp [emitAll]⟩
  | cons x bs ih =>
    cases hx : sinkAccepts s s.out.length with
    | false =>
      refine .inr ⟨0, recordIo s, Nat.succ_pos _, ⟨sinkTakes_zero s, by simpa using hx⟩, ?_, recordIo_stopped s⟩
      simp [emitAll, emitTag, emitRaw_fails hx]
    | true =>
      have hl : (feedCrc x (appendByte x s)).out.length = s.out.length + 1 := by simp
      rcases ih (feedCrc x (appendByte x s)) with ⟨h1, h2⟩ | ⟨k, t, hk, hf, h3, h4⟩
      · exact .inl ⟨(sinkTakes_succ (s := s) (t := feedCrc x (appendByte x s)) rfl hl _).2 ⟨hx, h1⟩, by
          simp [emitAll, emitTag, emitRaw_takes hx, h2, sentTag_cons]⟩
      · refine .inr ⟨k + 1, t, Nat.succ_lt_succ hk, (sinkFailsAt_succ (s := s) (t := feedCrc x (appendByte x s)) rfl hl k).2 ⟨hx, hf⟩, ?_, ?_⟩
        · simp [emitAll, emitTag, emitRaw_takes hx, h3]
        · exact ioStopped_of (cs := [x]) h4 rfl rfl rfl rfl

/-- What `emit_pay` over a byte sequence does (R56): all bytes, or a stop by IO at the byte the sink refuses, or, where
the chunk owes fewer bytes, a decrement without a result. -/
theorem emitAll_pay_cases (bs : List Byte) (s : State) :
    (SinkTakes bs.length s ∧ bs.length ≤ s.remain.toNat ∧ emitAll emitPay bs s = .go (sentPay bs s)) ∨
      (∃ k t, k < bs.length ∧ SinkFailsAt k s ∧ emitAll emitPay bs s = .raised t ∧ IoStopped (bs.take k) s t) ∨
        (s.remain.toNat < bs.length ∧ emitAll emitPay bs s = .stuck .counterUnderflow) := by
  induction bs generalizing s with
  | nil => exact .inl ⟨sinkTakes_zero s, Nat.zero_le _, by simp [emitAll]⟩
  | cons x bs ih =>
    cases hx : sinkAccepts s s.out.length with
    | false =>
      refine .inr (.inl ⟨0, recordIo s, Nat.succ_pos _, ⟨sinkTakes_zero s, by simpa using hx⟩, ?_, recordIo_stopped s⟩)
      simp [emitAll, emitPay, emitRaw_fails hx]
    | true =>
      by_cases hz : s.remain = 0#32
      · refine .inr (.inr ⟨by simp [hz], ?_⟩)
        simp [emitAll, emitPay, emitRaw_takes hx, hz]
      · have hr : 1 ≤ s.remain.toNat := by
          have := mt word_eq_zero_iff.2 hz; omega
        have hd : (countPayload x (appendByte x s)).remain.toNat = s.remain.toNat - 1 := by
          simpa using word_toNat_sub_one hr
        have hl : (countPayload x (appendByte x s)).out.length = s.out.length + 1 := by simp
        have hstep : emitAll emitPay (x :: bs) s = emitAll emitPay bs (countPayload x (appendByte x s)) := by
          simp [emitAll, emitPay, emitRaw_takes hx, hz]
        rcases ih (countPayload x (appendByte x s)) with ⟨h1, h2, h3⟩ | ⟨k, t, hk, hf, h3, h4⟩ | ⟨h2, h3⟩
        · exact .inl ⟨(sinkTakes_succ (s := s) (t := countPayload x (appendByte x s)) rfl hl _).2 ⟨hx, h1⟩, by simp only [List.length_cons]; omega, by
            rw [hstep, h3, sentPay_cons]⟩
        · refine .inr (.inl ⟨k + 1, t, Nat.succ_lt_succ hk, (sinkFailsAt_succ (s := s) (t := countPayload x (appendByte x s)) rfl hl k).2 ⟨hx, hf⟩, ?_, ?_⟩)
          · rw [hstep, h3]
          · exact ioStopped_of (cs := [x]) h4 rfl rfl rfl rfl
        · exact .inr (.inr ⟨by simp only [List.length_cons]; omega, by rw [hstep, h3]⟩)

/-- Payload bytes the chunk owes: all of them, or a stop by IO. -/
theorem emitAll_pay_owed {bs : List Byte} {s : State} (h : bs.length ≤ s.remain.toNat) :
    (SinkTakes bs.length s ∧ emitAll emitPay bs s = .go (sentPay bs s)) ∨
      ∃ k t, k < bs.length ∧ SinkFailsAt k s ∧ emitAll emitPay bs s = .raised t ∧ IoStopped (bs.take k) s t := by
  rcases emitAll_pay_cases bs s with ⟨h1, _, h3⟩ | h' | ⟨h2, _⟩
  · exact .inl ⟨h1, h3⟩
  · exact .inr h'
  · omega

/-- A sink that accepts every byte from here on still does after more output. -/
theorem sinkTakesAll_of {s t : State} (h : SinkTakesAll s) (hc : t.cfg = s.cfg) (ho : s.out <+: t.out) :
    SinkTakesAll t := by
  obtain ⟨bs, ho⟩ := ho
  intro n k hk
  have := h (bs.length + n) (bs.length + k) (by omega)
  simpa [sinkAccepts, hc, ← ho, Nat.add_assoc] using this

/-! ### Block counts -/

theorem ceilDiv_block (n : Nat) : ceilDiv n 65535 = (n + 65534) / 65535 := by
  unfold ceilDiv
  omega

theorem rowBlocks_eq (n : Nat) : rowBlocks n = (n + 65534) / 65535 := ceilDiv_block n

theorem rowNeed_eq (n : Nat) : rowNeed n = n + 5 * ((n + 65534) / 65535) := by
  unfold rowNeed blockOverhead
  rw [rowBlocks_eq]

/-! ### seg_header (R173) -/

@[simp] theorem be32_length (v : Word) : (be32 v).length = 4 := rfl
@[simp] theorem len16c_length (v : Half) : (len16c v).length = 4 := rfl
@[simp] theorem blockHeader_length (f : Bool) (n : Nat) : (blockHeader f n).length = 5 := rfl

theorem segLength_le (n : Nat) : segLength n ≤ 65535 := Nat.min_le_right _ _

theorem segLength_toNat (n : Nat) : (BitVec.ofNat 16 (segLength n)).toNat = segLength n := by
  have := segLength_le n
  rw [BitVec.toNat_ofNat, Nat.mod_eq_of_lt (by omega)]

/-- The state after the header of the next block is out. -/
def headed (s : State) : State :=
  openBlock (finalFlag s) (segLength s.rowrem.toNat)
    (sentPay (blockHeader (finalFlag s) (segLength s.rowrem.toNat)) s)

/-- What `seg_header()` does where the chunk owes its five bytes (R173). -/
theorem segHeader_cases {s : State} (h : 5 ≤ s.remain.toNat) :
    (SinkTakes 5 s ∧ segHeader s = .go (headed s)) ∨
      ∃ k t, k < 5 ∧ SinkFailsAt k s ∧ segHeader s = .raised t ∧
        IoStopped ((blockHeader (finalFlag s) (segLength s.rowrem.toNat)).take k) s t := by
  have h5 : (blockHeader (finalFlag s) (segLength s.rowrem.toNat)).length ≤ s.remain.toNat := h
  rcases emitAll_pay_owed h5 with ⟨h1, h2⟩ | ⟨k, t, hk, hf, h3, h4⟩
  · exact .inl ⟨h1, by simp [segHeader, h2, headed]⟩
  · exact .inr ⟨k, t, hk, hf, by simp [segHeader, h3], h4⟩

/-! ### The engines' small lemmas -/

theorem crcRun_append (c : Word) (xs ys : List Byte) : crcRun c (xs ++ ys) = crcRun (crcRun c xs) ys := by
  induction xs generalizing c with
  | nil => rfl
  | cons x xs ih => simp [ih]

theorem adlerRun_append (p : AdlerPair) (xs ys : List Byte) :
    adlerRun p (xs ++ ys) = adlerRun (adlerRun p xs) ys := by
  induction xs generalizing p with
  | nil => rfl
  | cons x xs ih => simp [ih]

/-- Both sums stay below the modulus after a step, whatever they were. -/
theorem adlerStep_range (p : AdlerPair) (x : Byte) :
    (adlerStep p x).a.toNat ≤ 65520 ∧ (adlerStep p x).b.toNat ≤ 65520 := by
  have h1 : adlerLow p.a x < 65521 := Nat.mod_lt _ (by decide)
  have h2 : adlerHigh p.a p.b x < 65521 := Nat.mod_lt _ (by decide)
  simp only [adlerStep, BitVec.toNat_ofNat]
  omega

end Sys2Proof.Machine
end

