-- ==== Sys2Proof/Laws/Exec.lean ====
section
/-!
SUPPORT. The inversion lemma of `exec`: what executing one command can answer, for every command and every state, said
once. `effect` names the state a command that completes leaves (before `pc` advances). Frames, fault rules and invariants
follow from `exec_cases` without unfolding a meaning.
-/

namespace Sys2Proof.Machine

/-- The state after one row byte has been emitted and counted, before the row or block ends. -/
def rowByteTaken (x : Byte) (s : State) : State :=
  countRow (setAdler (adlerStep (adlerOf s) x) (sentPay [x] s))

/-- What ROW_DATA leaves when it completes. -/
def rowDataEffect (x : Byte) (s : State) : State :=
  if (rowByteTaken x s).rowrem = 0#32 then setPhase .zstream (rowByteTaken x s)
  else if (rowByteTaken x s).segrem = 0#16 then headed (rowByteTaken x s)
  else rowByteTaken x s

/-- What a PUT command leaves when it completes. -/
def putEffect (bytes : List Byte) (s : State) : State :=
  if s.phase = .idle then sentRaw bytes s else sentPay bytes s

/-- The state a command leaves when it completes, before `pc` advances. -/
def effect (i : Instr) (s : State) : State :=
  match i with
  | .crcInit => seedCrc s
  | .crcByte x => feedCrc x s
  | .crcFinal => setResult (crcFinalize s.crc) s
  | .adlerInit => setAdler adlerSeed s
  | .adlerByte x => setAdler (adlerStep (adlerOf s) x) s
  | .adlerFinal => setResult (adlerPack (adlerOf s)) s
  | .putByte x => putEffect [x] s
  | .putBe32 v => putEffect (be32 v) s
  | .putLen16c v => putEffect (len16c (v.setWidth 16)) s
  | .chunkOpen len => declareChunk len (sentRaw (be32 len) s)
  | .chunkTag t0 t1 t2 t3 => setPhase .payload (sentTag [t0, t1, t2, t3] (seedCrc s))
  | .chunkClose => setPhase .idle (sentRaw (be32 (crcFinalize s.crc)) s)
  | .zlibOpen =>
    setPhase .zstream (sentPay [s.cfg.zhdr0, s.cfg.zhdr1] (beginStream s))
  | .rowOpen n => setPhase .row (headed (beginRow false n s))
  | .rowOpenLast n => setPhase .row (headed (beginRow true n s))
  | .rowData x => rowDataEffect x s
  | .zlibClose => setPhase .payload (sentPay (be32 (adlerPack (adlerOf s))) s)

/-- What ROW_DATA needs of the counters: a row byte and a block byte are owed, and the chunk owes the bytes it emits. Every
other command's own checks have shown what it needs. -/
def RowOwes (i : Instr) (s : State) : Prop :=
  ∀ x, i = .rowData x →
    1 ≤ s.rowrem.toNat ∧ 1 ≤ s.segrem.toNat ∧ (emittedBytes (.rowData x) s).length ≤ s.remain.toNat

theorem rowOwes_of_ne {i : Instr} {s : State} (h : ∀ x, i ≠ .rowData x) : RowOwes i s := fun x hx => absurd hx (h x)

/-- The four things a live `exec` can answer. -/
inductive ExecCase (i : Instr) (s : State) : Prop where
  /-- A check before emission fails: the precise fault (R241). -/
  | trap (hc : precheck i s ≠ .none) (h : exec i s = .next (trapped (precheck i s) s))
  /-- Every check passes and the sink takes every byte: the command completes. -/
  | done (hc : precheck i s = .none) (hs : SinkTakes (emittedBytes i s).length s) (hn : RowOwes i s)
      (h : exec i s = .next (advancePc (effect i s)))
  /-- Every check passes and the sink refuses a byte (R242). -/
  | io (hc : precheck i s = .none) (k : Nat) (t : State) (hk : k < (emittedBytes i s).length) (hf : SinkFailsAt k s)
      (h : exec i s = .next t) (ht : IoStopped ((emittedBytes i s).take k) s t)
  /-- ROW_DATA at a counter of 0 (R118 (vii)). -/
  | stuck (hc : precheck i s = .none) (x : Byte) (hi : i = .rowData x) (hn : ¬ RowOwes i s)
      (h : exec i s = .fault .counterUnderflow)

/-- A command that emits nothing. -/
theorem execCase_silent {i : Instr} {s : State} (hb : emittedBytes i s = []) (hr : ∀ x, i ≠ .rowData x)
    (ht : precheck i s ≠ .none → exec i s = .next (trapped (precheck i s) s))
    (hd : precheck i s = .none → exec i s = .next (advancePc (effect i s))) : ExecCase i s := by
  by_cases hc : precheck i s = .none
  · exact .done hc (by simp [hb]) (rowOwes_of_ne hr) (hd hc)
  · exact .trap hc (ht hc)

/-- A command whose emission, once its checks pass, is either complete or stopped by the sink. -/
theorem execCase_emits {i : Instr} {s : State} (hr : ∀ x, i ≠ .rowData x)
    (ht : precheck i s ≠ .none → exec i s = .next (trapped (precheck i s) s))
    (hd : precheck i s = .none →
      (SinkTakes (emittedBytes i s).length s ∧ exec i s = .next (advancePc (effect i s))) ∨
        ∃ k t, k < (emittedBytes i s).length ∧ SinkFailsAt k s ∧ exec i s = .next t ∧
          IoStopped ((emittedBytes i s).take k) s t) : ExecCase i s := by
  by_cases hc : precheck i s = .none
  · rcases hd hc with ⟨h1, h2⟩ | ⟨k, t, hk, hf, h, h'⟩
    · exact .done hc h1 (rowOwes_of_ne hr) h2
    · exact .io hc k t hk hf h h'
  · exact .trap hc (ht hc)

/-- What `put` does once its PHASE check has passed, by phase (R135). -/
theorem put_cases {s : State} (bs : List Byte) :
    (s.phase ≠ .idle ∧ s.phase ≠ .payload ∧ put bs s = .raised (trapped .phase s)) ∨
    (s.phase = .payload ∧ s.remain.toNat < bs.length ∧ put bs s = .raised (trapped .length s)) ∨
    ((s.phase = .idle ∨ (s.phase = .payload ∧ bs.length ≤ s.remain.toNat)) ∧
      ((SinkTakes bs.length s ∧ put bs s = .go (putEffect bs s)) ∨
        ∃ k t, k < bs.length ∧ SinkFailsAt k s ∧ put bs s = .raised t ∧ IoStopped (bs.take k) s t)) := by
  rcases hp : s.phase with _ | _ | _ | _ | _
  case idle =>
    refine .inr (.inr ⟨.inl rfl, ?_⟩)
    have he : put bs s = emitAll emitRaw bs s := by simp [put, mayPut, inIdle, hp]
    rcases emitAll_raw_cases bs s with ⟨h1, h2⟩ | h
    · exact .inl ⟨h1, by rw [he, h2]; simp [putEffect, hp]⟩
    · exact .inr (by rw [he]; exact h)
  case payload =>
    by_cases hr : bs.length ≤ s.remain.toNat
    · refine .inr (.inr ⟨.inr ⟨rfl, hr⟩, ?_⟩)
      have he : put bs s = emitAll emitPay bs s := by simp [put, mayPut, inIdle, owesAtLeast, hp, hr]
      rcases emitAll_pay_owed hr with ⟨h1, h2⟩ | h
      · exact .inl ⟨h1, by rw [he, h2]; simp [putEffect, hp]⟩
      · exact .inr (by rw [he]; exact h)
    · exact .inr (.inl ⟨rfl, by omega, by simp [put, mayPut, inIdle, owesAtLeast, hp, hr]⟩)
  all_goals exact .inl ⟨by simp, by simp, by simp [put, mayPut, hp]⟩

/-- A PUT command whose pseudocode is `put bs` and whose checks are those of `put`. -/
theorem execCase_put {i : Instr} {s : State} {bs : List Byte} (hr : ∀ x, i ≠ .rowData x) (hx : exec i s = (put bs s).finish)
    (hb : emittedBytes i s = bs) (he : effect i s = putEffect bs s)
    (hc : precheck i s = if s.phase ≠ .idle ∧ s.phase ≠ .payload then .phase
      else if s.phase = .payload ∧ s.remain.toNat < bs.length then .length else .none) : ExecCase i s := by
  rcases put_cases (s := s) bs with ⟨h1, h2, h⟩ | ⟨h1, h2, h⟩ | ⟨hp, ⟨h1, h⟩ | ⟨k, t, hk, hf, h, ht⟩⟩
  · refine .trap (by simp [hc, h1, h2]) ?_
    simp [hx, h, hc, h1, h2]
  · refine .trap (by simp [hc, h1, h2]) ?_
    simp [hx, h, hc, h1, h2]
  · refine .done ?_ (by rw [hb]; exact h1) (rowOwes_of_ne hr) (by simp [hx, h, he])
    rcases hp with hp | ⟨hp, hr⟩ <;> simp [hc, hp]
    omega
  · refine .io ?_ k t (by rw [hb]; exact hk) hf (by simp [hx, h]) (by rw [hb]; exact ht)
    rcases hp with hp | ⟨hp, hr⟩ <;> simp [hc, hp]
    omega

theorem headed_bytes (s : State) :
    (headed s).out = s.out ++ blockHeader (finalFlag s) (segLength s.rowrem.toNat) := rfl

theorem word_ne_zero_iff {n : Word} : n ≠ 0#32 ↔ n.toNat ≠ 0 := not_congr word_eq_zero_iff

theorem decide_ne_zero (n : Word) : decide (n ≠ 0#32) = decide (n.toNat ≠ 0) := by
  rw [Bool.eq_iff_iff]
  simp only [decide_eq_true_eq, word_ne_zero_iff]

/-- A row-open (R172, R174). -/
theorem execCase_openRow {i : Instr} {s : State} {last : Bool} {n : Word}
    (hi : ∀ x, i ≠ .rowData x) (hx : exec i s = (openRow last n s).finish)
    (hb : emittedBytes i s = blockHeader (finalFlag (beginRow last n s)) (segLength n.toNat))
    (he : effect i s = setPhase .row (headed (beginRow last n s)))
    (hc : precheck i s = if mayOpenRow s = false then .phase else if n.toNat = 0 then .range
      else if s.remain.toNat < rowNeed n.toNat then .length else .none) : ExecCase i s := by
  refine execCase_emits hi ?_ ?_
  · intro h
    rw [hx]
    cases hm : mayOpenRow s with
    | false => simp [openRow, hc, hm]
    | true =>
      by_cases hn : n.toNat = 0
      · simp [openRow, hc, hm, decide_ne_zero, hn, -ne_eq, -decide_not]
      · by_cases hr : s.remain.toNat < rowNeed n.toNat
        · have : owesAtLeast (rowNeed n.toNat) s = false := by simp [owesAtLeast]; omega
          simp [openRow, hc, hm, decide_ne_zero, hn, hr, this, -ne_eq, -decide_not]
        · exact absurd (by simp [hc, hm, hn, hr]) h
  · intro h
    have hm : mayOpenRow s = true := by
      cases hm : mayOpenRow s
      · simp [hc, hm] at h
      · rfl
    have hn : n.toNat ≠ 0 := by
      intro hn
      simp [hc, hm, hn] at h
    have hr : rowNeed n.toNat ≤ s.remain.toNat := by
      by_contra hr
      simp [hc, hm, hn, show s.remain.toNat < rowNeed n.toNat by omega] at h
    have hor : openRow last n s = (segHeader (beginRow last n s)).andThen fun s => .go (setPhase .row s) := by
      simp [openRow, hm, decide_ne_zero, hn, owesAtLeast, hr, -ne_eq, -decide_not]
    have h5 : 5 ≤ (beginRow last n s).remain.toNat := by
      have : 1 ≤ rowBlocks n.toNat := by
        unfold rowBlocks ceilDiv maxBlock
        omega
      have hr' : n.toNat + 5 * rowBlocks n.toNat ≤ s.remain.toNat := hr
      simp only [beginRow_remain]
      omega
    rw [hx, hor, hb, he]
    rcases segHeader_cases h5 with ⟨h1, h2⟩ | ⟨k, t, hk, hf, h3, h4⟩
    · exact .inl ⟨(sinkTakes_congr rfl rfl 5).1 h1, by simp [h2]⟩
    · refine .inr ⟨k, t, hk, (sinkFailsAt_congr rfl rfl k).1 hf, by simp [h3], ?_⟩
      simpa using ioStopped_of (s := s) (cs := []) h4 (by simp) rfl rfl rfl

/-- One row byte, then the counters (R175). -/
theorem execCase_rowData (x : Byte) {s : State} (h0 : s.fault = .none) : ExecCase (.rowData x) s := by
  by_cases hp : s.phase = .row
  case neg =>
    have hc : precheck (.rowData x) s = .phase := by simp [precheck, phaseAllows, hp]
    have hi : inRow s = false := by simp [inRow, hp]
    refine .trap (by simp [hc]) ?_
    simp [exec, execRowData, command_live h0, hi, hc]
  case pos =>
    have hc : precheck (.rowData x) s = .none := by simp [precheck, phaseAllows, rangeRefuses, lengthRefuses, hp]
    have hi : inRow s = true := by simp [inRow, hp]
    have hone : emitPay x s = emitAll emitPay [x] s := by
      cases h : emitPay x s <;> simp [emitAll, h]
    have hx : exec (.rowData x) s = (((emitAll emitPay [x] s).andThen fun s =>
        .go (setAdler (adlerStep (adlerOf s) x) s)).andThen fun s =>
          (takeRowByte s).andThen fun s =>
            if s.rowrem = 0#32 then .go (setPhase .zstream s)
            else if s.segrem = 0#16 then segHeader s else .go s).finish := by
      simp [exec, execRowData, command_live h0, hi, emitRow, hone]
    have hlen : 1 ≤ (emittedBytes (.rowData x) s).length := by simp [emittedBytes]
    have ht0 : (emittedBytes (.rowData x) s).take 0 = [x].take 0 := by simp
    rcases emitAll_pay_cases [x] s with ⟨h1, h2, h3⟩ | ⟨k, t, hk, hf, h3, h4⟩ | ⟨h2, h3⟩
    · have hm : takeRowByte (setAdler (adlerStep (adlerOf s) x) (sentPay [x] s)) =
          if s.rowrem = 0#32 ∨ s.segrem = 0#16 then .stuck .counterUnderflow else .go (rowByteTaken x s) := rfl
      have ha : adlerOf (sentPay [x] s) = adlerOf s := rfl
      by_cases hz : s.rowrem = 0#32 ∨ s.segrem = 0#16
      · refine .stuck hc x rfl (fun hn => ?_) ?_
        · have := hn x rfl
          rcases hz with hz | hz
          · have := word_eq_zero_iff.1 hz; omega
          · have := half_eq_zero_iff.1 hz; omega
        simp only [hx, h3, andThen_go, ha, hm, if_pos hz, andThen_stuck, finish_stuck]
      · have hr1 : 1 ≤ s.rowrem.toNat := by
          have := mt (fun h => Or.inl (word_eq_zero_iff.2 h)) hz; omega
        have hs1 : 1 ≤ s.segrem.toNat := by
          have := mt (fun h => Or.inr (half_eq_zero_iff.2 h)) hz; omega
        have hrn : (rowByteTaken x s).rowrem.toNat = s.rowrem.toNat - 1 := by
          simpa [rowByteTaken] using word_toNat_sub_one hr1
        have hsn : (rowByteTaken x s).segrem.toNat = s.segrem.toNat - 1 := by
          simpa [rowByteTaken] using half_toNat_sub_one hs1
        simp only [h3, andThen_go, ha, hm, if_neg hz] at hx
        by_cases hre : (rowByteTaken x s).rowrem = 0#32
        · have he : emittedBytes (.rowData x) s = [x] := by
            have := word_eq_zero_iff.1 hre
            simp [emittedBytes, show ¬ 2 ≤ s.rowrem.toNat by omega]
          refine .done hc (by rw [he]; exact h1) (fun y hy => ?_) ?_
          · cases hy
            rw [he]
            exact ⟨hr1, hs1, h2⟩
          simp [hx, hre, effect, rowDataEffect]
        · have hr2 : 2 ≤ s.rowrem.toNat := by
            have := mt word_eq_zero_iff.2 hre; omega
          by_cases hse : (rowByteTaken x s).segrem = 0#16
          · have hsg : s.segrem.toNat = 1 := by
              have := half_eq_zero_iff.1 hse; omega
            have hh : blockHeader (finalFlag (rowByteTaken x s)) (segLength (rowByteTaken x s).rowrem.toNat) =
                nextHeader s := by
              simp only [nextHeader, finalFlag, segLength, hrn, maxBlock]
              rfl
            have he : emittedBytes (.rowData x) s = x :: nextHeader s := by
              simp [emittedBytes, hr2, hsg]
            have hl : (rowByteTaken x s).out.length = s.out.length + 1 := by simp [rowByteTaken]
            have hsa : sinkAccepts s s.out.length = true := by simpa using h1 0 (by simp)
            have hsh : segHeader (rowByteTaken x s) =
                (emitAll emitPay (nextHeader s) (rowByteTaken x s)).andThen fun t =>
                  .go (openBlock (finalFlag (rowByteTaken x s)) (segLength (rowByteTaken x s).rowrem.toNat) t) := by
              rw [← hh]; rfl
            have hn5 : (nextHeader s).length = 5 := rfl
            have hrm : (rowByteTaken x s).remain.toNat = s.remain.toNat - 1 := by
              simpa [rowByteTaken] using word_toNat_sub_one (c := s.remain) (by simpa using h2)
            have hr0 : 1 ≤ s.remain.toNat := by simpa using h2
            simp only [hre, if_false, hse, if_true] at hx
            rcases emitAll_pay_cases (nextHeader s) (rowByteTaken x s) with ⟨g1, g2, g3⟩ | ⟨k, t, hk, hf, g3, g4⟩ | ⟨g2, g3⟩
            · refine .done hc ?_ (fun y hy => ?_) ?_
              rotate_left
              · cases hy
                rw [he, List.length_cons]
                exact ⟨hr1, hs1, by omega⟩
              rotate_left
              · rw [he, List.length_cons]
                exact (sinkTakes_succ (s := s) (t := rowByteTaken x s) rfl hl _).2 ⟨hsa, g1⟩
              · rw [hx, hsh, g3]
                simp [effect, rowDataEffect, hre, hse, headed, hh]
            · refine .io hc (k + 1) t ?_ ?_ (by simp [hx, hsh, g3]) ?_
              · rw [he, List.length_cons]; omega
              · exact (sinkFailsAt_succ (s := s) (t := rowByteTaken x s) rfl hl k).2 ⟨hsa, hf⟩
              · rw [he]
                exact ioStopped_of (cs := [x]) g4 rfl rfl rfl rfl
            · refine .stuck hc x rfl (fun hn => ?_) (by simp [hx, hsh, g3])
              have := (hn x rfl).2.2
              rw [he, List.length_cons] at this
              omega
          · have he : emittedBytes (.rowData x) s = [x] := by
              have := mt half_eq_zero_iff.2 hse
              simp [emittedBytes, show ¬ s.segrem.toNat = 1 by omega]
            refine .done hc (by rw [he]; exact h1) (fun y hy => ?_) ?_
            · cases hy
              rw [he]
              exact ⟨hr1, hs1, h2⟩
            simp [hx, hre, hse, effect, rowDataEffect]
    · have hk0 : k = 0 := by simp at hk; exact hk
      subst hk0
      exact .io hc 0 t (by omega) hf (by simp [hx, h3]) (by rw [ht0]; exact h4)
    · refine .stuck hc x rfl (fun hn => ?_) (by simp [hx, h3])
      have := (hn x rfl).2.2
      have : [x].length = 1 := rfl
      omega

/-- Every command: the inversion lemma. -/
theorem exec_cases (i : Instr) {s : State} (h0 : s.fault = .none) : ExecCase i s := by
  cases i with
  | crcInit =>
    by_cases hp : s.phase = .idle <;>
      exact execCase_silent rfl (by simp) (by simp [precheck, phaseAllows, rangeRefuses, lengthRefuses, exec, execCrcInit, command_live h0, inIdle, hp])
        (by simp [precheck, phaseAllows, rangeRefuses, lengthRefuses, exec, execCrcInit, command_live h0, inIdle, hp, effect])
  | crcByte x =>
    by_cases hp : s.phase = .idle <;>
      exact execCase_silent rfl (by simp) (by simp [precheck, phaseAllows, rangeRefuses, lengthRefuses, exec, execCrcByte, command_live h0, inIdle, hp])
        (by simp [precheck, phaseAllows, rangeRefuses, lengthRefuses, exec, execCrcByte, command_live h0, inIdle, hp, effect])
  | crcFinal =>
    by_cases hp : s.phase = .idle <;>
      exact execCase_silent rfl (by simp) (by simp [precheck, phaseAllows, rangeRefuses, lengthRefuses, exec, execCrcFinal, command_live h0, inIdle, hp])
        (by simp [precheck, phaseAllows, rangeRefuses, lengthRefuses, exec, execCrcFinal, command_live h0, inIdle, hp, effect])
  | adlerInit =>
    by_cases hp : s.phase = .idle <;>
      exact execCase_silent rfl (by simp) (by simp [precheck, phaseAllows, rangeRefuses, lengthRefuses, exec, execAdlerInit, command_live h0, inIdle, hp])
        (by simp [precheck, phaseAllows, rangeRefuses, lengthRefuses, exec, execAdlerInit, command_live h0, inIdle, hp, effect])
  | adlerByte x =>
    by_cases hp : s.phase = .idle <;>
      exact execCase_silent rfl (by simp) (by simp [precheck, phaseAllows, rangeRefuses, lengthRefuses, exec, execAdlerByte, command_live h0, inIdle, hp])
        (by simp [precheck, phaseAllows, rangeRefuses, lengthRefuses, exec, execAdlerByte, command_live h0, inIdle, hp, effect])
  | adlerFinal =>
    by_cases hp : s.phase = .idle <;>
      exact execCase_silent rfl (by simp) (by simp [precheck, phaseAllows, rangeRefuses, lengthRefuses, exec, execAdlerFinal, command_live h0, inIdle, hp])
        (by simp [precheck, phaseAllows, rangeRefuses, lengthRefuses, exec, execAdlerFinal, command_live h0, inIdle, hp, effect])
  | putByte x =>
    refine execCase_put (by simp) (bs := [x]) (by simp [exec, execPutByte, command_live h0]) rfl rfl ?_
    simp [precheck, phaseAllows, rangeRefuses, lengthRefuses]
  | putBe32 v =>
    refine execCase_put (by simp) (bs := be32 v) (by simp [exec, execPutBe32, command_live h0]) rfl rfl ?_
    simp [precheck, phaseAllows, rangeRefuses, lengthRefuses]
    rfl
  | putLen16c v =>
    by_cases hm : s.phase ≠ .idle ∧ s.phase ≠ .payload
    · have hc : precheck (.putLen16c v) s = .phase := by simp [precheck, phaseAllows, hm]
      refine .trap (by simp [hc]) ?_
      simp [exec, execPutLen16c, command_live h0, mayPut, hm, hc]
    · have hmp : mayPut s = true := by
        simp only [mayPut, decide_eq_true_eq]
        by_contra h
        exact hm ⟨fun h' => h (.inl h'), fun h' => h (.inr h')⟩
      by_cases hv : v.toNat ≤ 65535
      · refine execCase_put (by simp) (bs := len16c (v.setWidth 16)) ?_ rfl rfl ?_
        · simp [exec, execPutLen16c, command_live h0, hmp, hv]
        · simp [precheck, phaseAllows, rangeRefuses, lengthRefuses, show ¬ 65535 < v.toNat by omega]
          rfl
      · have hc : precheck (.putLen16c v) s = .range := by
          simp only [precheck, phaseAllows, rangeRefuses, show 65535 < v.toNat by omega]
          have : decide (s.phase = .idle ∨ s.phase = .payload) = true := hmp
          simp [this]
        refine .trap (by simp [hc]) ?_
        simp [exec, execPutLen16c, command_live h0, hmp, hv, hc]
  | chunkOpen len =>
    by_cases hp : s.phase = .idle
    case neg =>
      have hc : precheck (.chunkOpen len) s = .phase := by simp [precheck, phaseAllows, hp]
      refine .trap (by simp [hc]) ?_
      simp [exec, execChunkOpen, command_live h0, inIdle, hp, hc]
    case pos =>
      have hc : precheck (.chunkOpen len) s = .none := by simp [precheck, phaseAllows, rangeRefuses, lengthRefuses, hp]
      refine execCase_emits (by simp) (fun h => absurd hc h) fun _ => ?_
      rcases emitAll_raw_cases (be32 len) s with ⟨h1, h2⟩ | ⟨k, t, hk, hf, h3, h4⟩
      · exact .inl ⟨h1, by simp [exec, execChunkOpen, command_live h0, inIdle, hp, h2, effect]⟩
      · exact .inr ⟨k, t, hk, hf, by simp [exec, execChunkOpen, command_live h0, inIdle, hp, h3], h4⟩
  | chunkTag t0 t1 t2 t3 =>
    by_cases hp : s.phase = .tag
    case neg =>
      have hc : precheck (.chunkTag t0 t1 t2 t3) s = .phase := by simp [precheck, phaseAllows, hp]
      refine .trap (by simp [hc]) ?_
      simp [exec, execChunkTag, command_live h0, inTag, hp, hc]
    case pos =>
      have hc : precheck (.chunkTag t0 t1 t2 t3) s = .none := by
        simp [precheck, phaseAllows, rangeRefuses, lengthRefuses, hp]
      refine execCase_emits (by simp) (fun h => absurd hc h) fun _ => ?_
      rcases emitAll_tag_cases [t0, t1, t2, t3] (seedCrc s) with ⟨h1, h2⟩ | ⟨k, t, hk, hf, h3, h4⟩
      · refine .inl ⟨(sinkTakes_congr rfl rfl 4).1 h1, ?_⟩
        simp [exec, execChunkTag, command_live h0, inTag, hp, h2, effect]
      · refine .inr ⟨k, t, hk, (sinkFailsAt_congr rfl rfl k).1 hf, ?_, h4⟩
        simp [exec, execChunkTag, command_live h0, inTag, hp, h3]
  | chunkClose =>
    by_cases hp : s.phase = .payload
    case neg =>
      have hc : precheck .chunkClose s = .phase := by simp [precheck, phaseAllows, hp]
      refine .trap (by simp [hc]) ?_
      simp [exec, execChunkClose, command_live h0, inPayload, hp, hc]
    case pos =>
      by_cases hr : s.remain = 0#32
      case neg =>
        have hc : precheck .chunkClose s = .length := by
          simp [precheck, phaseAllows, rangeRefuses, lengthRefuses, hp, mt word_eq_zero_iff.2 hr]
        refine .trap (by simp [hc]) ?_
        simp [exec, execChunkClose, command_live h0, inPayload, owesNothing, hp, hc, hr]
      case pos =>
        have hc : precheck .chunkClose s = .none := by
          simp [precheck, phaseAllows, rangeRefuses, lengthRefuses, hp, hr]
        refine execCase_emits (by simp) (fun h => absurd hc h) fun _ => ?_
        rcases emitAll_raw_cases (be32 (crcFinalize s.crc)) s with ⟨h1, h2⟩ | ⟨k, t, hk, hf, h3, h4⟩
        · exact .inl ⟨h1, by simp [exec, execChunkClose, command_live h0, inPayload, owesNothing, hp, hr, h2, effect]⟩
        · exact .inr ⟨k, t, hk, hf, by simp [exec, execChunkClose, command_live h0, inPayload, owesNothing, hp, hr, h3], h4⟩
  | zlibOpen =>
    by_cases hp : s.phase = .payload
    case neg =>
      have hc : precheck .zlibOpen s = .phase := by simp [precheck, phaseAllows, hp]
      refine .trap (by simp [hc]) ?_
      simp [exec, execZlibOpen, command_live h0, inPayload, hp, hc]
    case pos =>
      by_cases hr : 2 ≤ s.remain.toNat
      case neg =>
        have hc : precheck .zlibOpen s = .length := by
          simp [precheck, phaseAllows, rangeRefuses, lengthRefuses, hp, show s.remain.toNat < 2 by omega]
        refine .trap (by simp [hc]) ?_
        simp [exec, execZlibOpen, command_live h0, inPayload, hp, hc, owesAtLeast, hr]
      case pos =>
        have hc : precheck .zlibOpen s = .none := by
          simp [precheck, phaseAllows, rangeRefuses, lengthRefuses, hp, show ¬ s.remain.toNat < 2 by omega]
        have hr' : [s.cfg.zhdr0, s.cfg.zhdr1].length ≤ (beginStream s).remain.toNat := hr
        refine execCase_emits (by simp) (fun h => absurd hc h) fun _ => ?_
        rcases emitAll_pay_owed hr' with ⟨h1, h2⟩ | ⟨k, t, hk, hf, h3, h4⟩
        · refine .inl ⟨(sinkTakes_congr rfl rfl 2).1 h1, ?_⟩
          simp [exec, execZlibOpen, command_live h0, inPayload, hp, owesAtLeast, hr, h2, effect]
        · refine .inr ⟨k, t, hk, (sinkFailsAt_congr rfl rfl k).1 hf, ?_, h4⟩
          simp [exec, execZlibOpen, command_live h0, inPayload, hp, owesAtLeast, hr, h3]
  | rowOpen n =>
    refine execCase_openRow (by simp) (last := false) (n := n) (by simp [exec, execRowOpen, command_live h0]) ?_ rfl ?_
    · simp [emittedBytes, finalFlag, segLength, maxBlock]
    · cases hp : s.phase <;> cases hz : s.zfinal <;>
        simp [precheck, phaseAllows, rangeRefuses, lengthRefuses, mayOpenRow, hp, hz, rowNeed, rowBlocks, blockOverhead, maxBlock] <;> rfl
  | rowOpenLast n =>
    refine execCase_openRow (by simp) (last := true) (n := n) (by simp [exec, execRowOpenLast, command_live h0]) ?_ rfl ?_
    · simp [emittedBytes, finalFlag, segLength, maxBlock] <;> rfl
    · cases hp : s.phase <;> cases hz : s.zfinal <;>
        simp [precheck, phaseAllows, rangeRefuses, lengthRefuses, mayOpenRow, hp, hz, rowNeed, rowBlocks, blockOverhead, maxBlock] <;> rfl
  | rowData x => exact execCase_rowData x h0
  | zlibClose =>
    by_cases hm : s.phase = .zstream ∧ s.zfinal = true
    case neg =>
      have hc : precheck .zlibClose s = .phase := by
        simp only [precheck, phaseAllows, hm, decide_false, if_true]
      have hi : mayCloseStream s = false := by
        cases h : mayCloseStream s
        · rfl
        · exact absurd (by simpa [mayCloseStream] using h) hm
      refine .trap (by simp [hc]) ?_
      simp [exec, execZlibClose, command_live h0, hi, hc]
    case pos =>
      have hi : mayCloseStream s = true := by simp [mayCloseStream, hm]
      by_cases hr : 4 ≤ s.remain.toNat
      case neg =>
        have hc : precheck .zlibClose s = .length := by
          simp [precheck, phaseAllows, rangeRefuses, lengthRefuses, hm, show s.remain.toNat < 4 by omega]
        refine .trap (by simp [hc]) ?_
        simp [exec, execZlibClose, command_live h0, hi, hc, owesAtLeast, hr]
      case pos =>
        have hc : precheck .zlibClose s = .none := by
          simp [precheck, phaseAllows, rangeRefuses, lengthRefuses, hm, show ¬ s.remain.toNat < 4 by omega]
        have hr' : (be32 (adlerPack (adlerOf s))).length ≤ s.remain.toNat := hr
        refine execCase_emits (by simp) (fun h => absurd hc h) fun _ => ?_
        rcases emitAll_pay_owed hr' with ⟨h1, h2⟩ | ⟨k, t, hk, hf, h3, h4⟩
        · refine .inl ⟨h1, ?_⟩
          simp [exec, execZlibClose, command_live h0, hi, owesAtLeast, hr, h2, effect]
        · refine .inr ⟨k, t, hk, hf, ?_, h4⟩
          simp [exec, execZlibClose, command_live h0, hi, owesAtLeast, hr, h3]

/-- A halted core ignores every command (R243). -/
theorem exec_halted (i : Instr) {s : State} (h : s.fault ≠ .none) : exec i s = .next s := by
  cases i <;>
    simp [exec, execCrcInit, execCrcByte, execCrcFinal, execAdlerInit, execAdlerByte, execAdlerFinal, execPutByte,
      execPutBe32, execPutLen16c, execChunkOpen, execChunkTag, execChunkClose, execZlibOpen, execRowOpen,
      execRowOpenLast, execRowData, execZlibClose, command_halted h]

/-! ### What every command's effect leaves alone -/

theorem effect_fault (i : Instr) (s : State) : (effect i s).fault = s.fault := by
  cases i <;> simp only [effect, putEffect, rowDataEffect, headed] <;> (try split) <;> (try split) <;> rfl

theorem effect_pc (i : Instr) (s : State) : (effect i s).pc = s.pc := by
  cases i <;> simp only [effect, putEffect, rowDataEffect, headed] <;> (try split) <;> (try split) <;> rfl

theorem effect_prog (i : Instr) (s : State) : (effect i s).prog = s.prog := by
  cases i <;> simp only [effect, putEffect, rowDataEffect, headed] <;> (try split) <;> (try split) <;> rfl

theorem effect_cfg (i : Instr) (s : State) : (effect i s).cfg = s.cfg := by
  cases i <;> simp only [effect, putEffect, rowDataEffect, headed] <;> (try split) <;> (try split) <;> rfl

theorem effect_draws (i : Instr) (s : State) : (effect i s).draws = s.draws := by
  cases i <;> simp only [effect, putEffect, rowDataEffect, headed] <;> (try split) <;> (try split) <;> rfl

/-- The counters of a row byte, as numbers. -/
theorem rowByteTaken_counts {x} {s : State} (h1 : 1 ≤ s.segrem.toNat) (h2 : 1 ≤ s.rowrem.toNat) :
  (rowByteTaken x s).rowrem.toNat = s.rowrem.toNat - 1 ∧ (rowByteTaken x s).segrem.toNat = s.segrem.toNat - 1 :=
  ⟨by simpa [rowByteTaken] using word_toNat_sub_one (c := s.rowrem) (by omega), by simpa [rowByteTaken] using half_toNat_sub_one (c := s.segrem) (by omega)⟩

/-- A command that completes has appended exactly its bytes. -/
theorem effect_out (i : Instr) (s : State) (hn : RowOwes i s) : (effect i s).out = s.out ++ emittedBytes i s := by
  cases i with
  | rowData x =>
    obtain ⟨a1, a2, -⟩ := hn x rfl
    obtain ⟨c1, c2⟩ := rowByteTaken_counts (x := x) a2 a1
    simp only [effect, rowDataEffect, word_eq_zero_iff, half_eq_zero_iff, c1, c2]
    split
    · rw [emittedBytes, if_neg (by omega)]; rfl
    · split
      · have hh : blockHeader (finalFlag (rowByteTaken x s)) (segLength (rowByteTaken x s).rowrem.toNat) = nextHeader s := by
          simp only [nextHeader, finalFlag, segLength, c1, maxBlock]; rfl
        rw [emittedBytes, if_pos (by omega), headed, hh]
        simp [rowByteTaken]
      · rw [emittedBytes, if_neg (by omega)]; rfl
  | _ => simp [effect, emittedBytes, putEffect, headed, openBlock, finalFlag, segLength, maxBlock] <;> first | done | rfl | (split <;> rfl)

/-! ### The codes of the checks before emission -/

theorem precheck_ne_io (i : Instr) (s : State) : precheck i s ≠ .io := by
  unfold precheck
  repeat' split
  all_goals simp

theorem precheck_phase_iff {i : Instr} {s : State} :
    precheck i s = .phase ↔ phaseAllows i s.phase s.zfinal = false := by
  unfold precheck
  split
  · simp_all
  · split
    · simp_all
    · split <;> simp_all

theorem precheck_range_iff {i : Instr} {s : State} :
    precheck i s = .range ↔ phaseAllows i s.phase s.zfinal = true ∧ rangeRefuses i = true := by
  unfold precheck
  split
  · simp_all
  · split
    · simp_all
    · split <;> simp_all

theorem precheck_length_iff {i : Instr} {s : State} :
    precheck i s = .length ↔
      phaseAllows i s.phase s.zfinal = true ∧ rangeRefuses i = false ∧ lengthRefuses i s = true := by
  unfold precheck
  split
  · simp_all
  · split
    · simp_all
    · split <;> simp_all

end Sys2Proof.Machine
end

