-- ==== Sys2Proof/Laws/Driver.lean ====
section
/-!
SUPPORT. What the driver's issue of a command does, said once: the unrolling of `issueInOrder`, the step after one issued
word, and that no command which completes depends on the words of the command stream.
-/

namespace Sys2Proof.Machine

@[simp] theorem hostIssue_prog (w : CmdWord) (s : State) : (hostIssue w s).prog = s.prog ++ [w] := rfl
@[simp] theorem hostIssue_pc (w : CmdWord) (s : State) : (hostIssue w s).pc = s.pc := rfl
@[simp] theorem hostIssue_fault (w : CmdWord) (s : State) : (hostIssue w s).fault = s.fault := rfl

@[simp] theorem wordsOf_nil : wordsOf [] = [] := rfl
@[simp] theorem wordsOf_cons (i : Instr) (cmds : List Instr) : wordsOf (i :: cmds) = encode i :: wordsOf cmds := rfl
@[simp] theorem wordsOf_length (cmds : List Instr) : (wordsOf cmds).length = cmds.length := List.length_map _

@[simp] theorem issueInOrder_nil (s : State) : issueInOrder [] s = .next s := rfl

/-- A word whose step leaves no fault: the driver goes on. -/
theorem issueInOrder_goes {w : CmdWord} {ws : List CmdWord} {s t : State} (h : step (hostIssue w s) = .next t)
    (ht : t.fault = .none) : issueInOrder (w :: ws) s = issueInOrder ws t := by
  simp [issueInOrder, h, halted, ht]

/-- A word whose step leaves a fault: the driver stops. -/
theorem issueInOrder_stops {w : CmdWord} {ws : List CmdWord} {s t : State} (h : step (hostIssue w s) = .next t)
    (ht : t.fault ≠ .none) : issueInOrder (w :: ws) s = .next t := by
  simp [issueInOrder, h, halted, ht]

/-- When every earlier command has completed, the step after an issued word executes that word. -/
theorem step_hostIssue {w : CmdWord} {i : Instr} {s : State} (h0 : s.fault = .none) (hpc : s.pc = s.prog.length)
    (hw : decode w = some i) : step (hostIssue w s) = exec i (hostIssue w s) := by
  simp [step, halted, fetch, h0, hpc, hw]

/-! ### A command does not depend on the words of the stream -/

theorem emittedBytes_withProg (i : Instr) (s : State) (p : List CmdWord) :
    emittedBytes i { s with prog := p } = emittedBytes i s := by
  cases i <;> rfl

theorem effect_withProg (i : Instr) (s : State) (p : List CmdWord) :
    effect i { s with prog := p } = { effect i s with prog := p } := by
  cases i with
  | putByte x => simp only [effect, putEffect]; split <;> rfl
  | putBe32 v => simp only [effect, putEffect]; split <;> rfl
  | putLen16c v => simp only [effect, putEffect]; split <;> rfl
  | rowData x =>
    have hb : rowByteTaken x { s with prog := p } = { rowByteTaken x s with prog := p } := rfl
    simp only [effect, rowDataEffect, hb]
    split
    · rfl
    · split <;> rfl
  | _ => rfl

/-- A command that completes does the same over another command stream. -/
theorem exec_withProg {i : Instr} {s t : State} (h : exec i s = .next t) (ht : t.fault = .none) (p : List CmdWord) :
    exec i { s with prog := p } = .next { t with prog := p } := by
  by_cases h0 : s.fault = .none
  · rcases exec_cases i h0 with ⟨hc, he⟩ | ⟨hc, hs, hn, he⟩ | ⟨hc, k, u, hk, hf, he, hio⟩ | ⟨hc, x, hi, hn, he⟩
    · rw [he] at h; cases h; exact absurd ht hc
    · rw [he] at h; cases h
      rcases exec_cases i (s := { s with prog := p }) h0 with
        ⟨hc', he'⟩ | ⟨-, -, -, he'⟩ | ⟨-, k, u, hk, hf, -, -⟩ | ⟨-, x, rfl, hn', -⟩
      · exact absurd hc hc'
      · rw [he', effect_withProg]; rfl
      · rw [emittedBytes_withProg] at hk
        exact absurd (hs k hk) (by simpa [sinkAccepts] using hf.2)
      · exact absurd (fun y hy => by cases hy; exact hn _ rfl) hn'
    · rw [he] at h; cases h; rw [hio.1] at ht; cases ht
    · rw [he] at h; cases h
  · rw [exec_halted i h0] at h; cases h; exact absurd ht h0

/-- A halted core ignores every list of commands. -/
theorem execAll_halted (cmds : List Instr) {s : State} (h : s.fault ≠ .none) : execAll cmds s = .next s := by
  induction cmds with
  | nil => rfl
  | cons i rest ih => rw [execAll, exec_halted i h]; exact ih

/-- The first command of a list that completes has completed, and the rest completes after it. -/
theorem execAll_cons_completes {i : Instr} {rest : List Instr} {s t : State} (h : execAll (i :: rest) s = .next t)
    (ht : t.fault = .none) : ∃ u, exec i s = .next u ∧ u.fault = .none ∧ execAll rest u = .next t := by
  rw [execAll] at h
  cases he : exec i s with
  | fault r => simp [he] at h
  | refused r => simp [he] at h
  | next u =>
    simp only [he] at h
    by_cases hu : u.fault = .none
    · exact ⟨u, rfl, hu, h⟩
    · rw [execAll_halted rest hu] at h; cases h; exact absurd ht hu

/-- Commands that complete do the same over another command stream. -/
theorem execAll_withProg {cmds : List Instr} {s t : State} (h : execAll cmds s = .next t) (ht : t.fault = .none)
    (p : List CmdWord) : execAll cmds { s with prog := p } = .next { t with prog := p } := by
  induction cmds generalizing s with
  | nil => cases h; rfl
  | cons i rest ih =>
    obtain ⟨u, he, hu, hr⟩ := execAll_cons_completes h ht
    rw [execAll, exec_withProg he hu p]
    exact ih hr

end Sys2Proof.Machine
end

