-- ==== Sys2Proof/Laws/Encoding.lean ====
section
/-!
SUPPORT. The small lemmas of the fields of a command word: a word put together from an opcode and an operand is taken apart
into them, and the operand of each format keeps its fields.
-/

namespace Sys2Proof

theorem append_toNat {m n : Nat} (x : BitVec m) (y : BitVec n) : (x ++ y).toNat = x.toNat * 2 ^ n + y.toNat := by
  rw [BitVec.toNat_append, ← Nat.shiftLeft_add_eq_or_of_lt y.isLt, Nat.shiftLeft_eq]

theorem extract_toNat {w : Nat} (start len : Nat) (x : BitVec w) :
    (x.extractLsb' start len).toNat = x.toNat / 2 ^ start % 2 ^ len := by
  rw [BitVec.extractLsb'_toNat, Nat.shiftRight_eq_div_pow]

theorem opcodeOf_assembleWord (opcode : Byte) (operand : Word) : opcodeOf (assembleWord opcode operand) = opcode := by
  have := opcode.isLt
  have := operand.isLt
  apply BitVec.eq_of_toNat_eq
  simp only [opcodeOf, assembleWord, extract_toNat, append_toNat]
  omega

theorem operandOf_assembleWord (opcode : Byte) (operand : Word) :
    operandOf (assembleWord opcode operand) = operand := by
  have := operand.isLt
  apply BitVec.eq_of_toNat_eq
  simp only [operandOf, assembleWord, extract_toNat, append_toNat]
  omega

theorem operandB_toNat (x : Byte) : (operandB x).toNat = x.toNat := by
  have := x.isLt
  simp only [operandB, BitVec.toNat_setWidth]
  omega

/-- A word of a known opcode is well formed exactly when its format reserves no set operand bit. -/
theorem wellFormedWord_assembleWord {opcode : Byte} {f : Format} (h : formatOf opcode = some f) (operand : Word) :
    wellFormedWord (assembleWord opcode operand) = f.reservedZero operand := by
  have h1 : (assembleWord opcode operand).extractLsb' 32 8 = opcode := opcodeOf_assembleWord opcode operand
  have h2 : (assembleWord opcode operand).extractLsb' 0 32 = operand := operandOf_assembleWord opcode operand
  simp only [wellFormedWord, h1, h2, h]

theorem reservedZero_operandB (x : Byte) : Format.b.reservedZero (operandB x) = true := by
  have := x.isLt
  simp only [Format.reservedZero, operandB_toNat, decide_eq_true_eq]
  omega

end Sys2Proof
end

