-- ==== Sys2Proof/Laws/PerInstr.lean ====
section
/-!
SUPPORT. The family EncodeLegal: the word of every command is well formed (30_encoding.md rules R73 to R76, R86), one lemma
per constructor.
-/

namespace Sys2Proof.Laws.EncodeLegal

/-- The word of a command has an opcode of the map and no reserved operand bit set (R86). -/
def Statement (i : Instr) : Prop := wellFormedWord (encode i) = true

theorem crcInit : Statement .crcInit := wellFormedWord_assembleWord (opcode := 0x10) rfl 0
theorem crcByte (x : Byte) : Statement (.crcByte x) :=
  (wellFormedWord_assembleWord (opcode := 0x11) rfl _).trans (reservedZero_operandB x)
theorem crcFinal : Statement .crcFinal := wellFormedWord_assembleWord (opcode := 0x12) rfl 0
theorem adlerInit : Statement .adlerInit := wellFormedWord_assembleWord (opcode := 0x20) rfl 0
theorem adlerByte (x : Byte) : Statement (.adlerByte x) :=
  (wellFormedWord_assembleWord (opcode := 0x21) rfl _).trans (reservedZero_operandB x)
theorem adlerFinal : Statement .adlerFinal := wellFormedWord_assembleWord (opcode := 0x22) rfl 0
theorem putByte (x : Byte) : Statement (.putByte x) :=
  (wellFormedWord_assembleWord (opcode := 0x30) rfl _).trans (reservedZero_operandB x)
theorem putBe32 (v : Word) : Statement (.putBe32 v) := wellFormedWord_assembleWord (opcode := 0x31) rfl v
theorem putLen16c (v : Word) : Statement (.putLen16c v) := wellFormedWord_assembleWord (opcode := 0x32) rfl v
theorem chunkOpen (len : Word) : Statement (.chunkOpen len) := wellFormedWord_assembleWord (opcode := 0x40) rfl len
theorem chunkTag (t0 t1 t2 t3 : Byte) : Statement (.chunkTag t0 t1 t2 t3) :=
  wellFormedWord_assembleWord (opcode := 0x41) rfl (operandT t0 t1 t2 t3)
theorem chunkClose : Statement .chunkClose := wellFormedWord_assembleWord (opcode := 0x42) rfl 0
theorem zlibOpen : Statement .zlibOpen := wellFormedWord_assembleWord (opcode := 0x50) rfl 0
theorem rowOpen (n : Word) : Statement (.rowOpen n) := wellFormedWord_assembleWord (opcode := 0x51) rfl n
theorem rowOpenLast (n : Word) : Statement (.rowOpenLast n) := wellFormedWord_assembleWord (opcode := 0x52) rfl n
theorem rowData (x : Byte) : Statement (.rowData x) :=
  (wellFormedWord_assembleWord (opcode := 0x53) rfl _).trans (reservedZero_operandB x)
theorem zlibClose : Statement .zlibClose := wellFormedWord_assembleWord (opcode := 0x54) rfl 0

end Sys2Proof.Laws.EncodeLegal
end

