-- ==== Sys2Proof/Machine/Assembler.lean ====
section
/-!
DEFINITION. The assembler syntax of the commands (30_encoding.md rule R90), on lists of characters: one command a line, the
mnemonic in capitals, the operand of formats B, W and T after it, a semicolon starting a comment.
-/

namespace Sys2Proof.Machine

/-! ### Characters and numbers -/

/-- The single quote that encloses a tag (R90). -/
def quoteChar : Char := Char.ofNat 39

/-- The value of a hexadecimal digit, either case; none for another character. -/
def hexValue (c : Char) : Option Nat :=
  if 48 ≤ c.toNat ∧ c.toNat ≤ 57 then some (c.toNat - 48)
  else if 65 ≤ c.toNat ∧ c.toNat ≤ 70 then some (c.toNat - 55)
  else if 97 ≤ c.toNat ∧ c.toNat ≤ 102 then some (c.toNat - 87)
  else none

/-- The value of a decimal digit. -/
def decValue (c : Char) : Option Nat := if 48 ≤ c.toNat ∧ c.toNat ≤ 57 then some (c.toNat - 48) else none

/-- The number a list of digits spells in a base, after `acc`; none at a character that is no digit. -/
def readDigits (digit : Char → Option Nat) (base acc : Nat) (cs : List Char) : Option Nat :=
  match cs with
  | [] => some acc
  | c :: rest =>
    match digit c with
    | some d => readDigits digit base (base * acc + d) rest
    | none => none

/-- A number: hexadecimal with prefix and exactly `hexDigits` digits, or decimal (R90). -/
def readNumber (hexDigits : Nat) (cs : List Char) : Option Nat :=
  match cs with
  | '0' :: 'x' :: digits => if digits.length = hexDigits then readDigits hexValue 16 0 digits else none
  | [] => none
  | _ => readDigits decValue 10 0 cs

/-! ### Lines -/

/-- Drop leading spaces. -/
def skipSpaces (cs : List Char) : List Char := cs.dropWhile (· == ' ')

/-- Nothing but spaces and a comment is left (R90). -/
def atEnd (cs : List Char) : Bool :=
  match skipSpaces cs with
  | [] => true
  | c :: _ => c == ';'

/-- A character that belongs to a mnemonic or a number. -/
def inToken (c : Char) : Bool := c != ' ' && c != ';'

/-- A format-N line: no operand (R90). -/
def lineN (i : Instr) (rest : List Char) : Option Instr := if atEnd rest then some i else none

/-- A format-B line: two hexadecimal digits with prefix, or a decimal number 0 to 255 (R90). -/
def lineB (mk : Byte → Instr) (rest : List Char) : Option Instr :=
  match readNumber 2 ((skipSpaces rest).takeWhile inToken) with
  | some v => if v ≤ 255 ∧ atEnd ((skipSpaces rest).dropWhile inToken) then some (mk (BitVec.ofNat 8 v)) else none
  | none => none

/-- A format-W line: eight hexadecimal digits with prefix, or a decimal number (R90). -/
def lineW (mk : Word → Instr) (rest : List Char) : Option Instr :=
  match readNumber 8 ((skipSpaces rest).takeWhile inToken) with
  | some v =>
    if v ≤ 4294967295 ∧ atEnd ((skipSpaces rest).dropWhile inToken) then some (mk (BitVec.ofNat 32 v)) else none
  | none => none

/-- A format-T line: a quoted 4-character tag of ASCII characters, or eight hexadecimal digits with prefix (R90, R14). Model's
choice (DESIGN CHOICE, assumption log entry 11): between the quotes a semicolon, a quote or a space is a tag character as
any other; R90 does not say what they are there. -/
def lineT (rest : List Char) : Option Instr :=
  match skipSpaces rest with
  | q :: c0 :: c1 :: c2 :: c3 :: q' :: tail =>
    if q = quoteChar then
      if q' = quoteChar ∧ atEnd tail ∧ c0.toNat < 128 ∧ c1.toNat < 128 ∧ c2.toNat < 128 ∧ c3.toNat < 128 then
        some (.chunkTag (BitVec.ofNat 8 c0.toNat) (BitVec.ofNat 8 c1.toNat) (BitVec.ofNat 8 c2.toNat)
          (BitVec.ofNat 8 c3.toNat))
      else none
    else if q = '0' ∧ c0 = 'x' then
      lineW (fun v => .chunkTag (tagOperand v 0) (tagOperand v 1) (tagOperand v 2) (tagOperand v 3)) rest
    else none
  | _ => none

/-- The command of one line that is not blank; none when the line is no command (R90). -/
def assembleCommand (line : List Char) : Option Instr :=
  let word := (skipSpaces line).takeWhile inToken
  let rest := (skipSpaces line).dropWhile inToken
  if word = "CRC_INIT".toList then lineN .crcInit rest
  else if word = "CRC_BYTE".toList then lineB .crcByte rest
  else if word = "CRC_FINAL".toList then lineN .crcFinal rest
  else if word = "ADLER_INIT".toList then lineN .adlerInit rest
  else if word = "ADLER_BYTE".toList then lineB .adlerByte rest
  else if word = "ADLER_FINAL".toList then lineN .adlerFinal rest
  else if word = "PUT_BYTE".toList then lineB .putByte rest
  else if word = "PUT_BE32".toList then lineW .putBe32 rest
  else if word = "PUT_LEN16C".toList then lineW .putLen16c rest
  else if word = "CHUNK_OPEN".toList then lineW .chunkOpen rest
  else if word = "CHUNK_TAG".toList then lineT rest
  else if word = "CHUNK_CLOSE".toList then lineN .chunkClose rest
  else if word = "ZLIB_OPEN".toList then lineN .zlibOpen rest
  else if word = "ROW_OPEN".toList then lineW .rowOpen rest
  else if word = "ROW_OPEN_LAST".toList then lineW .rowOpenLast rest
  else if word = "ROW_DATA".toList then lineB .rowData rest
  else if word = "ZLIB_CLOSE".toList then lineN .zlibClose rest
  else none

/-- A program of lines; blank and comment lines hold no command; one bad line refuses the whole (R90). -/
def assemble (lines : List (List Char)) : Option (List Instr) :=
  match lines with
  | [] => some []
  | line :: rest =>
    if atEnd line then assemble rest
    else
      match assembleCommand line, assemble rest with
      | some i, some is => some (i :: is)
      | _, _ => none

/-! ### Writing a command -/

/-- The hexadecimal digit of a number below 16, in capitals (R90). -/
def hexDigit (n : Nat) : Char := if n < 10 then Char.ofNat (48 + n) else Char.ofNat (55 + n)

/-- The last `k` hexadecimal digits of a number, most significant first. -/
def hexDigits (k n : Nat) : List Char :=
  match k with
  | 0 => []
  | j + 1 => hexDigits j (n / 16) ++ [hexDigit (n % 16)]

/-- A space, the prefix and `k` hexadecimal digits. -/
def hexOperand (k n : Nat) : List Char := ' ' :: '0' :: 'x' :: hexDigits k n

/-- A command as a line of the syntax, operands in hexadecimal (R90). -/
def toAsm (i : Instr) : List Char :=
  (mnemonicOf i).toList ++
    match i with
    | .crcByte x => hexOperand 2 x.toNat
    | .adlerByte x => hexOperand 2 x.toNat
    | .putByte x => hexOperand 2 x.toNat
    | .rowData x => hexOperand 2 x.toNat
    | .putBe32 v => hexOperand 8 v.toNat
    | .putLen16c v => hexOperand 8 v.toNat
    | .chunkOpen v => hexOperand 8 v.toNat
    | .rowOpen v => hexOperand 8 v.toNat
    | .rowOpenLast v => hexOperand 8 v.toNat
    | .chunkTag t0 t1 t2 t3 => hexOperand 8 (operandT t0 t1 t2 t3).toNat
    | .crcInit => []
    | .crcFinal => []
    | .adlerInit => []
    | .adlerFinal => []
    | .chunkClose => []
    | .zlibOpen => []
    | .zlibClose => []

end Sys2Proof.Machine
end

