-- ==== Sys2Proof/Tests/Slice0.lean ====
section
/-!
SUPPORT. The model's own tests. Expected values come from the spec: 95_test_vectors.md and the examples of the rules named at
each test. After them the witnesses: for every statement with hypotheses, concrete states and operands that meet them.
-/

namespace Sys2Proof.Tests

open Sys2Proof.Machine

/-! ### Helpers -/

/-- A small state: a phase and what the chunk owes, all else as after reset. -/
def sample (p : Phase) (remain : Nat) : State :=
  { State.reset with phase := p, remain := BitVec.ofNat 32 remain }

/-- A small state with an open row. -/
def sampleRow (last : Bool) (rowrem segrem remain : Nat) : State :=
  { sample .row remain with
    rowrem := BitVec.ofNat 32 rowrem
    segrem := BitVec.ofNat 16 segrem
    rowlast := last
    zfinal := last && decide (rowrem ≤ segrem) }

/-- The reset state with a command stream. -/
def issued (ws : List CmdWord) : State := hostIssueAll ws State.reset

/-- The reset state with a sink that refuses one byte position. -/
def refusing (k : Nat) (s : State) : State := { s with cfg := { s.cfg with sinkRefuses := [k] } }

/-- The answer is a next state of which `p` holds. -/
def after (o : Host.Outcome State Fault Refusal) (p : State → Bool) : Bool :=
  match o with
  | .next t => p t
  | .fault _ => false
  | .refused _ => false

/-! ### Well-formed words (R73, R74, R86): an ill-formed word for each check -/

theorem test_wf_unknown_opcode : wellFormedWord 0x0000000000#40 = false := by decide
theorem test_wf_unknown_opcode_ff : wellFormedWord 0xFF00000000#40 = false := by decide
theorem test_wf_operand_not_zero : wellFormedWord 0x1000000001#40 = false := by decide
theorem test_wf_reserved_bits : wellFormedWord 0x1100000100#40 = false := by decide
theorem test_wf_byte_at_most_255 : wellFormedWord 0x11000000FF#40 = true := by decide
theorem test_wf_every_word_operand : wellFormedWord 0x31FFFFFFFF#40 = true := by decide

/-! ### Decoding: words written out from the encodings of R70 to R78, bit by bit for one command a family -/

theorem test_decode_crcInit : decode 0b0001000000000000000000000000000000000000#40 = some .crcInit := by decide
theorem test_decode_crcByte : decode 0b0001000100000000000000000000000000110001#40 = some (.crcByte 0x31#8) := by decide
theorem test_decode_crcFinal : decode 0x1200000000#40 = some .crcFinal := by decide
theorem test_decode_adlerInit : decode 0x2000000000#40 = some .adlerInit := by decide
theorem test_decode_adlerByte : decode 0b0010000100000000000000000000000011111111#40 = some (.adlerByte 0xFF#8) := by decide
theorem test_decode_adlerFinal : decode 0x2200000000#40 = some .adlerFinal := by decide
theorem test_decode_putByte : decode 0x3000000089#40 = some (.putByte 0x89#8) := by decide
theorem test_decode_putBe32 : decode 0b0011000100001010000010110000110000001101#40 = some (.putBe32 0x0A0B0C0D#32) := by
  decide
theorem test_decode_putLen16c : decode 0x3200010000#40 = some (.putLen16c 0x00010000#32) := by decide
theorem test_decode_chunkOpen : decode 0x400000000D#40 = some (.chunkOpen 13#32) := by decide
theorem test_decode_chunkTag :
    decode 0b0100000101001001010010000100010001010010#40 = some (.chunkTag 0x49#8 0x48#8 0x44#8 0x52#8) := by decide
theorem test_decode_chunkClose : decode 0x4200000000#40 = some .chunkClose := by decide
theorem test_decode_zlibOpen : decode 0x5000000000#40 = some .zlibOpen := by decide
theorem test_decode_rowOpen : decode 0b0101000100000000000000000000000000001001#40 = some (.rowOpen 9#32) := by decide
theorem test_decode_rowOpenLast : decode 0x5200000009#40 = some (.rowOpenLast 9#32) := by decide
theorem test_decode_rowData : decode 0x53000000FF#40 = some (.rowData 0xFF#8) := by decide
theorem test_decode_zlibClose : decode 0x5400000000#40 = some .zlibClose := by decide

/-- The names under which the decoder rejects (R86; vectors F1, F3, F4). -/
theorem test_decode_rejects_by_name :
    decodeNamed 0x0000000000#40 = .error .unknownOpcode ∧ decodeNamed 0x1000000001#40 = .error .operandNotZero ∧
      decodeNamed 0x1100000100#40 = .error .reservedOperandBits := by
  refine ⟨rfl, rfl, rfl⟩

/-- The listing form (R77): `4149484452` as five bytes, and its decoding with bytes left over. -/
theorem test_listing :
    listingBytes 0x4149484452#40 = [0x41#8, 0x49#8, 0x48#8, 0x44#8, 0x52#8] ∧
      decodeListing [0x41#8, 0x49#8, 0x48#8, 0x44#8, 0x52#8, 0x42#8] =
        some (.chunkTag 0x49#8 0x48#8 0x44#8 0x52#8, [0x42#8]) ∧
      decodeListing [0x42#8, 0x00#8, 0x00#8, 0x00#8] = none := by decide

/-- The host's numbering of a table word, and a value that is no 40-bit word. -/
theorem test_decodeTableWord :
    decodeTableWord 40 0x1100000031 = some (.crcByte 0x31#8) ∧ decodeTableWord 48 (2 ^ 40) = none := by decide

/-! ### Step: fetch, decode, execute from reset -/

/-- CRC_BYTE 0x31 as the first command after reset (R106). -/
theorem test_step_first_command :
    after (step (State.reset.withFetchWord 40 0x1100000031)) (fun t => t.crc == 0x7C231048#32 && t.pc == 1) = true := by
  decide

/-- Vector F1: the all-zero word. -/
theorem test_step_illegal :
    after (step (issued [0x0000000000#40])) (fun t => t.fault == .illegal && t.pc == 0 && t.out == []) = true := by decide

/-- R239: CRC_INIT with operand 1 in PAYLOAD reports ILLEGAL. -/
theorem test_step_illegal_before_phase :
    after (step { issued [0x1000000001#40] with phase := .payload }) (fun t => t.fault == .illegal) = true := by decide

/-- A word placed beyond the end of a short stream: the gap holds all-zero words. -/
theorem test_placeWord : placeWord 0x1000000000#40 2 [0x1200000000#40] = [0x1200000000#40, 0#40, 0x1000000000#40] := by
  decide

/-! ### Checksum commands (vectors 2.1) -/

theorem test_table_spots :
    tableEntry 0#8 = 0#32 ∧ tableEntry 1#8 = 0x77073096#32 ∧ tableEntry 2#8 = 0xEE0E612C#32 ∧
      tableEntry 128#8 = 0xEDB88320#32 ∧ tableEntry 255#8 = 0x2D02EF8D#32 := by decide

set_option maxRecDepth 20000 in
/-- R102: the sum of the 256 entries as natural numbers, and their exclusive-or. -/
theorem test_table_sums :
    (crcTable.map BitVec.toNat).sum = 0x7FFFFFFF80 ∧ crcTable.foldl (· ^^^ ·) 0#32 = 0#32 ∧ crcTable.length = 256 := by
  decide

theorem test_crc_of_123456789 :
    crc32 [0x31#8, 0x32#8, 0x33#8, 0x34#8, 0x35#8, 0x36#8, 0x37#8, 0x38#8, 0x39#8] = 0xCBF43926#32 := by decide
theorem test_adler_of_wikipedia :
    adler32 [0x57#8, 0x69#8, 0x6B#8, 0x69#8, 0x70#8, 0x65#8, 0x64#8, 0x69#8, 0x61#8] = 0x11E60398#32 := by decide

theorem test_crcInit :
    after (exec .crcInit { State.reset with crc := 0x174841BC#32, result := 5#32 })
      (fun t => t.crc == 0xFFFFFFFF#32 && t.result == 5#32 && t.pc == 1) = true := by decide
theorem test_crcByte :
    after (exec (.crcByte 0x9A#8) { State.reset with crc := 0x12345678#32 }) (fun t => t.crc == 0x4E16B702#32) = true := by
  decide
theorem test_crcFinal :
    after (exec .crcFinal { State.reset with crc := 0x340BC6D9#32 })
      (fun t => t.result == 0xCBF43926#32 && t.crc == 0x340BC6D9#32) = true := by decide
/-- Vector F6. -/
theorem test_crcInit_in_chunk :
    after (exec .crcInit { sample .payload 1 with crc := 0xEFE32C31#32 })
      (fun t => t.fault == .phase && t.crc == 0xEFE32C31#32 && t.pc == 0) = true := by decide
theorem test_adlerInit :
    after (exec .adlerInit { State.reset with a := 98#32, b := 98#32 }) (fun t => t.a == 1#32 && t.b == 0#32) = true := by
  decide
theorem test_adlerByte_both_wrap :
    after (exec (.adlerByte 255#8) { State.reset with a := 65520#32, b := 65520#32 })
      (fun t => t.a == 254#32 && t.b == 253#32) = true := by decide
theorem test_adlerByte_to_zero :
    after (exec (.adlerByte 255#8) { State.reset with a := 65266#32, b := 65520#32 })
      (fun t => t.a == 0#32 && t.b == 65520#32) = true := by decide
theorem test_adlerFinal :
    after (exec .adlerFinal { State.reset with a := 1021#32, b := 4344#32 }) (fun t => t.result == 0x10F803FD#32) = true := by
  decide

/-! ### Serializer commands (vectors 2.2, F7, F9, F10) -/

theorem test_putByte_raw :
    after (exec (.putByte 0x89#8) State.reset)
      (fun t => t.out == [0x89#8] && t.crc == 0xFFFFFFFF#32 && t.remain == 0#32) = true := by decide
theorem test_putByte_payload :
    after (exec (.putByte 0#8) { sample .payload 1 with crc := 0xEFE32C31#32 })
      (fun t => t.out == [0#8] && t.crc == 0x5131E316#32 && t.remain == 0#32) = true := by decide
theorem test_putBe32_payload :
    after (exec (.putBe32 0xDEADBEEF#32) { sample .payload 4 with crc := 0xEFE32C31#32 })
      (fun t => t.out == [0xDE#8, 0xAD#8, 0xBE#8, 0xEF#8] && t.crc == 0x61FE03C0#32 && t.remain == 0#32) = true := by decide
theorem test_putBe32_does_not_fit :
    after (exec (.putBe32 1#32) (sample .payload 3)) (fun t => t.fault == .length && t.out == [] && t.remain == 3#32) = true := by
  decide
theorem test_putLen16c :
    after (exec (.putLen16c 0x1234#32) State.reset) (fun t => t.out == [0x34#8, 0x12#8, 0xCB#8, 0xED#8]) = true := by decide
theorem test_putLen16c_range_before_length :
    after (exec (.putLen16c 0x10000#32) (sample .payload 1)) (fun t => t.fault == .range && t.out == []) = true := by decide

/-! ### Chunk commands (vectors 2.3, F8, F23) -/

theorem test_chunkOpen :
    after (exec (.chunkOpen 13#32) State.reset)
      (fun t => t.out == [0#8, 0#8, 0#8, 0x0D#8] && t.remain == 13#32 && t.phase == .tag && t.crc == 0xFFFFFFFF#32) = true := by
  decide
theorem test_chunkTag :
    after (exec (.chunkTag 0x49#8 0x45#8 0x4E#8 0x44#8) { sample .tag 0 with crc := 0x340BC6D9#32 })
      (fun t => t.out == [0x49#8, 0x45#8, 0x4E#8, 0x44#8] && t.crc == 0x51BD9F7D#32 && t.phase == .payload) = true := by decide
theorem test_chunkTag_without_open :
    after (exec (.chunkTag 0x49#8 0x45#8 0x4E#8 0x44#8) State.reset) (fun t => t.fault == .phase && t.pc == 0) = true := by decide
theorem test_chunkClose :
    after (exec .chunkClose { sample .payload 0 with crc := 0x51BD9F7D#32 })
      (fun t => t.out == [0xAE#8, 0x42#8, 0x60#8, 0x82#8] && t.crc == 0x51BD9F7D#32 && t.phase == .idle) = true := by decide
theorem test_chunkClose_short :
    after (exec .chunkClose (sample .payload 1)) (fun t => t.fault == .length && t.out == [] && t.phase == .payload) = true := by
  decide

/-! ### Stream commands (vectors 2.4, F14, F18) -/

theorem test_zlibOpen :
    after (exec .zlibOpen { sample .payload 20 with crc := 0xCA50F9E1#32, a := 1021#32, b := 4344#32 })
      (fun t => t.out == [0x78#8, 0x01#8] && t.crc == 0x13E5812D#32 && t.remain == 18#32 && t.a == 1#32 && t.b == 0#32 &&
        t.phase == .zstream) = true := by decide
theorem test_zlibOpen_does_not_fit :
    after (exec .zlibOpen { sample .payload 1 with a := 7#32 }) (fun t => t.fault == .length && t.a == 7#32) = true := by decide
theorem test_rowOpen :
    after (exec (.rowOpen 9#32) (sample .zstream 32))
      (fun t => t.out == [0#8, 9#8, 0#8, 0xF6#8, 0xFF#8] && t.rowrem == 9#32 && t.segrem == 9#16 && t.remain == 27#32 &&
        t.rowlast == false && t.zfinal == false && t.phase == .row) = true := by decide
theorem test_rowOpen_after_final :
    after (exec (.rowOpen 1#32) { sample .zstream 4 with zfinal := true }) (fun t => t.fault == .phase) = true := by decide
theorem test_rowOpenLast :
    after (exec (.rowOpenLast 9#32) (sample .zstream 18))
      (fun t => t.out == [1#8, 9#8, 0#8, 0xF6#8, 0xFF#8] && t.rowrem == 9#32 && t.segrem == 9#16 && t.remain == 13#32 &&
        t.rowlast == true && t.zfinal == true && t.phase == .row) = true := by decide
theorem test_rowOpenLast_two_blocks :
    after (exec (.rowOpenLast 65536#32) (sample .zstream 65550))
      (fun t => t.out == [0#8, 0xFF#8, 0xFF#8, 0#8, 0#8] && t.rowrem == 65536#32 && t.segrem == 65535#16 &&
        t.remain == 65545#32 && t.rowlast == true && t.zfinal == false) = true := by decide
theorem test_rowData :
    after (exec (.rowData 0#8) (sampleRow true 9 9 13))
      (fun t => t.out == [0#8] && t.rowrem == 8#32 && t.segrem == 8#16 && t.remain == 12#32 && t.a == 1#32 && t.b == 1#32) =
      true := by decide
/-- The trace for n = 65536: the 65535th ROW_DATA emits six bytes. -/
theorem test_rowData_next_block :
    after (exec (.rowData 0xF5#8) (sampleRow true 2 1 11))
      (fun t => t.out == [0xF5#8, 1#8, 1#8, 0#8, 0xFE#8, 0xFF#8] && t.remain == 5#32 && t.rowrem == 1#32 &&
        t.segrem == 1#16 && t.zfinal == true && t.phase == .row) = true := by decide
theorem test_zlibClose :
    after (exec .zlibClose { sample .zstream 4 with zfinal := true, a := 1021#32, b := 4344#32 })
      (fun t => t.out == [0x10#8, 0xF8#8, 0x03#8, 0xFD#8] && t.remain == 0#32 && t.phase == .payload && t.a == 1021#32) =
      true := by decide
theorem test_zlibClose_before_final :
    after (exec .zlibClose (sample .zstream 18)) (fun t => t.fault == .phase && t.out == []) = true := by decide

/-! ### The sink, the host (vectors F19, 2.6) -/

/-- Vector F19: the sink refuses the byte at position 6, in the middle of CHUNK_TAG. -/
theorem test_io_stop :
    after (exec (.chunkTag 0x49#8 0x45#8 0x4E#8 0x44#8) (refusing 6 { sample .tag 0 with out := [0#8, 0#8, 0#8, 0#8], pc := 1 }))
      (fun t => t.fault == .io && t.out == [0#8, 0#8, 0#8, 0#8, 0x49#8, 0x45#8] && t.pc == 1) = true := by decide

theorem test_host_registers :
    hostRead 0 (sampleRow true 9 9 13) = 0x1C#32 ∧ hostRead 5 (sampleRow true 9 9 13) = 0x0D#32 ∧
      hostRead 6 (sampleRow true 9 9 13) = 9#32 ∧ hostRead 7 (sampleRow true 9 9 13) = 9#32 ∧
      hostRead 8 (sampleRow true 9 9 13) = 0#32 ∧ hostRead 2 State.reset = 0xFFFFFFFF#32 := by decide

/-- Reset clears a fault and starts a new output (R244, R260, R261). -/
theorem test_host_reset :
    (hostReset { State.reset with fault := .io, out := [1#8], pc := 3 }).fault = .none ∧
      (hostReset { State.reset with fault := .io, out := [1#8], pc := 3 }).out = [] := by decide

/-! ### The driver's macro-operations (vectors 2.5, P3, P4, P6) -/

/-- The 2x1 raster of the document's end-to-end example. -/
def twoPixels : Raster := { width := 2, height := 1, flat := [255#8, 0#8, 0#8, 255#8, 0#8, 255#8, 0#8, 255#8] }

theorem test_macro_chunk_words :
    wordsOf (chunkCommands tagIEND []) = [0x4000000000#40, 0x4149454E44#40, 0x4200000000#40] := by decide
theorem test_macro_idat_words :
    wordsOf (idatCommands twoPixels) =
      [0x4000000014#40, 0x4149444154#40, 0x5000000000#40, 0x5200000009#40, 0x5300000000#40, 0x53000000FF#40,
        0x5300000000#40, 0x5300000000#40, 0x53000000FF#40, 0x5300000000#40, 0x53000000FF#40, 0x5300000000#40,
        0x53000000FF#40, 0x5400000000#40, 0x4200000000#40] := by decide
set_option maxRecDepth 20000 in
/-- The 32 bytes of P4. -/
theorem test_macro_idat_bytes :
    (idatBytes 0x78#8 0x01#8 twoPixels).map BitVec.toNat =
      [0, 0, 0, 0x14, 0x49, 0x44, 0x41, 0x54, 0x78, 0x01, 0x01, 0x09, 0, 0xF6, 0xFF, 0, 0xFF, 0, 0, 0xFF, 0, 0xFF, 0, 0xFF,
        0x10, 0xF8, 0x03, 0xFD, 0xD9, 0x64, 0xBC, 0x53] := by decide
theorem test_macro_encode_counts :
    (encodeCommands Bkgd.default twoPixels).length = 49 ∧ (imageBytes 0x78#8 0x01#8 Bkgd.default twoPixels).length = 108 := by
  decide
/-- R205: refusals, and the largest height of a one-pixel-wide raster. -/
theorem test_macro_preconditions :
    idatMacro { width := 0, height := 1, flat := [] } = none ∧ idatMacro { twoPixels with height := 2 } = none ∧
      Raster.idatLength { width := 1, height := 429496728, flat := [] } = 4294967286 ∧
      Raster.idatLength { width := 1, height := 429496729, flat := [] } = 4294967296 := by decide
/-- R200: a refused macro issues nothing; a driver stops at the word that faults (F20: the three after it stay unissued). -/
theorem test_driver_refuses : driverIssue (idatMacro { width := 0, height := 1, flat := [] }) State.reset = none := rfl
theorem test_driver_stops_at_first_fault :
    issueInOrder [0x0000000000#40, 0x4000000000#40, 0x4149454E44#40, 0x4200000000#40] State.reset =
      .next { State.reset with prog := [0x0000000000#40], fault := .illegal } := rfl
/-- R84: the default header pair is a valid one. -/
theorem test_default_header_valid : validZlibHeader 0x78#8 0x01#8 = true := by decide

/-! ### The assembler (R90) -/

theorem test_assemble_operands :
    assembleCommand "ROW_DATA 0xFF".toList = some (.rowData 0xFF#8) ∧
      assembleCommand "ROW_DATA 255".toList = some (.rowData 0xFF#8) ∧
      assembleCommand "CHUNK_OPEN 0x0000000D".toList = some (.chunkOpen 13#32) ∧
      assembleCommand "CHUNK_TAG 'IHDR'".toList = some (.chunkTag 0x49#8 0x48#8 0x44#8 0x52#8) ∧
      assembleCommand "CHUNK_TAG 0x49484452".toList = some (.chunkTag 0x49#8 0x48#8 0x44#8 0x52#8) := by decide
theorem test_assemble_lines :
    assemble ["; a comment".toList, "CRC_INIT ; start".toList, "".toList, "PUT_LEN16C 9".toList] =
      some [.crcInit, .putLen16c 9#32] := by decide
theorem test_assemble_refuses :
    assembleCommand "ROW_DATA 256".toList = none ∧ assembleCommand "CRC_INIT 1".toList = none ∧
      assembleCommand "crc_init".toList = none ∧ assembleCommand "CHUNK_OPEN 0xD".toList = none := by decide
theorem test_toAsm :
    assembleCommand (toAsm (.chunkOpen 13#32)) = some (.chunkOpen 13#32) ∧
      toAsm (.rowData 0xFF#8) = "ROW_DATA 0xFF".toList := by decide

/-! ### Witnesses: the hypotheses of each statement can be met, each clause at a boundary -/

/-- A sink that takes everything, after reset and in the sample states. -/
theorem witness_sink_takes_all (p : Phase) (remain : Nat) : SinkTakesAll (sample p remain) ∧ SinkTakesAll State.reset :=
  ⟨fun _ _ _ => rfl, fun _ _ _ => rfl⟩

/-- A sink that fails at the third of four bytes, and at the first. -/
theorem witness_sink_fails :
    SinkFailsAt 2 (refusing 2 State.reset) ∧ SinkFailsAt 0 (refusing 0 (sample .payload 4)) := by
  refine ⟨⟨fun k hk => ?_, rfl⟩, fun k hk => absurd hk (Nat.not_lt_zero k), rfl⟩
  have : k = 0 ∨ k = 1 := by omega
  rcases this with rfl | rfl <;> rfl

/-- The invariant in a row: inside a block, at the last byte of a block of a row that goes on, at the last byte. -/
theorem witness_inv_row :
    Inv (sampleRow true 9 9 13) ∧ Inv (sampleRow true 2 1 11) ∧ Inv (sampleRow false 1 1 1) ∧ Inv (sampleRow false 2 2 2) := by
  refine ⟨?_, ?_, ?_, ?_⟩ <;> constructor <;> decide

theorem witness_IllegalWords :
    (issued [0#40]).fault = .none ∧ fetch (issued [0#40]) = some 0#40 ∧ decode 0#40 = none := by decide
theorem witness_SerializedBytes :
    be32 13#32 = [0#8, 0#8, 0#8, 13#8] ∧ len16c 0xFFFF#16 = [0xFF#8, 0xFF#8, 0#8, 0#8] := by decide
theorem witness_DecoderIsTheOpcodeMap :
    (⟨"ZLIB_CLOSE", 0x5400000000, 0xFFFFFFFFFF⟩ : OpcodeRow) ∈ opcodeRows ∧
      OpcodeRow.covers ⟨"ZLIB_CLOSE", 0x5400000000, 0xFFFFFFFFFF⟩ 0x5400000000#40 = true ∧
      (∀ r ∈ opcodeRows, r.covers 0xFFFFFFFFFF#40 = false) ∧
      ∃ t, exec (.putByte 0#8) State.reset = .next t ∧ t.fault = .none :=
  ⟨by decide, by decide, by decide, _, rfl, rfl⟩
theorem witness_EncodeOfDecode : decode 0x11000000FF#40 = some (.crcByte 0xFF#8) := by decide
theorem witness_StepRunsTheDecodedCommand :
    ((issued [0x1000000000#40]).prog[(issued [0x1000000000#40]).pc]? = some 0x1000000000#40 ∧
      decode 0x1000000000#40 = some .crcInit) ∧
    ((issued [0#40]).prog[(issued [0#40]).pc]? = some 0#40 ∧ decode 0#40 = none ∧ (issued [0#40]).fault = .none) ∧
    State.reset.prog[State.reset.pc]? = none := by decide
theorem witness_HaltedCoreIgnoresCommands : ({ State.reset with fault := .io } : State).fault ≠ .none := by decide
/-- Each fault code and each phase, and the two states of R33's examples. -/
theorem witness_StatusFields :
    (State.reset.fault = .none ∧ (trapped .illegal State.reset).fault = .illegal ∧ (trapped .phase State.reset).fault = .phase ∧
      (trapped .range State.reset).fault = .range ∧ (trapped .length State.reset).fault = .length ∧
      (trapped .io State.reset).fault = .io) ∧
    (State.reset.fault ≠ .io ∧ State.reset.phase = .idle ∧ (sample .tag 0).phase = .tag ∧
      (sample .payload 0).phase = .payload ∧ (sample .zstream 0).phase = .zstream ∧ (sample .row 0).phase = .row) ∧
    ((sampleRow true 9 9 13).phase = .row ∧ (sampleRow true 9 9 13).zfinal = true ∧ (sampleRow true 9 9 13).rowlast = true ∧
      (sampleRow true 9 9 13).fault = .none) ∧
    (trapped .range State.reset).phase = .idle ∧ (trapped .range State.reset).zfinal = false ∧
      (trapped .range State.reset).rowlast = false ∧ (trapped .range State.reset).fault = .range := by decide
theorem witness_HostRegisterNumbers : (8 : Nat) ≤ 8 := le_refl 8
theorem witness_idle : State.reset.fault = .none ∧ State.reset.phase = .idle := by decide
theorem witness_not_idle : (sample .tag 0).fault = .none ∧ (sample .tag 0).phase ≠ .idle := by decide
/-- The hypotheses of Crc32OfByteSequence and of Adler32OfByteSequence. -/
theorem witness_Crc32OfByteSequence : State.reset.fault = .none ∧ State.reset.phase = .idle := witness_idle
theorem witness_Adler32OfByteSequence : State.reset.fault = .none ∧ State.reset.phase = .idle := witness_idle
theorem witness_AdlerClosedForm : State.reset.fault = .none ∧ State.reset.phase = .idle := witness_idle
theorem witness_ResetValues : decode 0x1200000000#40 = some .crcFinal := by decide
theorem witness_AdlerStepInRange : (65520#32 : Word).toNat ≤ 65520 ∧ (0#32 : Word).toNat ≤ 65520 := by decide
theorem witness_NeedsZeroOperand : (1#32 : Word) ≠ 0#32 ∧ decode (0x10#8 ++ 1#32) = none := by decide
theorem witness_NeedsByteOperand : 256 ≤ (256#32 : Word).toNat ∧ decode (0x11#8 ++ 256#32) = none := by decide
theorem witness_CrcInitCommand : (State.reset.fault = .none ∧ State.reset.phase = .idle) ∧
    (sample .tag 0).fault = .none ∧ (sample .tag 0).phase ≠ .idle := ⟨witness_idle, witness_not_idle⟩
theorem witness_CrcByteCommand : (State.reset.fault = .none ∧ State.reset.phase = .idle) ∧
    (sample .tag 0).fault = .none ∧ (sample .tag 0).phase ≠ .idle := ⟨witness_idle, witness_not_idle⟩
theorem witness_CrcFinalCommand : (State.reset.fault = .none ∧ State.reset.phase = .idle) ∧
    (sample .tag 0).fault = .none ∧ (sample .tag 0).phase ≠ .idle := ⟨witness_idle, witness_not_idle⟩
theorem witness_AdlerInitCommand : (State.reset.fault = .none ∧ State.reset.phase = .idle) ∧
    (sample .tag 0).fault = .none ∧ (sample .tag 0).phase ≠ .idle := ⟨witness_idle, witness_not_idle⟩
theorem witness_AdlerByteCommand :
    (({ State.reset with a := 65520#32, b := 65520#32 } : State).fault = .none ∧
      ({ State.reset with a := 65520#32, b := 65520#32 } : State).phase = .idle ∧
      ({ State.reset with a := 65520#32, b := 65520#32 } : State).a.toNat ≤ 65520 ∧
      ({ State.reset with a := 65520#32, b := 65520#32 } : State).b.toNat ≤ 65520) ∧
    (sample .tag 0).fault = .none ∧ (sample .tag 0).phase ≠ .idle := by decide
theorem witness_AdlerFinalCommand :
    (State.reset.fault = .none ∧ State.reset.phase = .idle) ∧ (State.reset.a.toNat ≤ 65520 ∧ State.reset.b.toNat ≤ 65520) ∧
    (sample .tag 0).fault = .none ∧ (sample .tag 0).phase ≠ .idle := by decide

/-- PutsBytes for one byte: raw, payload at `remain = 1`, LENGTH at `remain = 0`, PHASE. -/
theorem witness_PutByteCommand :
    (State.reset.fault = .none ∧ State.reset.phase = .idle) ∧
    ((sample .payload 1).fault = .none ∧ (sample .payload 1).phase = .payload ∧ [0x89#8].length ≤ (sample .payload 1).remain.toNat) ∧
    ((sample .payload 0).phase = .payload ∧ (sample .payload 0).remain.toNat < [0x89#8].length) ∧
    (sample .row 0).phase ≠ .idle ∧ (sample .row 0).phase ≠ .payload := by decide
/-- PutsBytes for four bytes: raw, payload at `remain = 4`, LENGTH at `remain = 3`, PHASE. -/
theorem witness_PutBe32Command :
    (State.reset.fault = .none ∧ State.reset.phase = .idle) ∧
    ((sample .payload 4).fault = .none ∧ (sample .payload 4).phase = .payload ∧
      (be32 13#32).length ≤ (sample .payload 4).remain.toNat) ∧
    ((sample .payload 3).phase = .payload ∧ (sample .payload 3).remain.toNat < (be32 13#32).length) ∧
    (sample .zstream 0).phase ≠ .idle ∧ (sample .zstream 0).phase ≠ .payload := by decide
theorem witness_PutLen16cCommand :
    (65535#32 : Word).toNat ≤ 65535 ∧ 65535 < (65536#32 : Word).toNat ∧
    (State.reset.fault = .none ∧ (State.reset.phase = .idle ∨ State.reset.phase = .payload)) ∧
    ((sample .payload 4).phase = .payload ∧ 4 ≤ (sample .payload 4).remain.toNat ∧ (sample .payload 3).remain.toNat < 4) ∧
    (sample .tag 0).fault = .none ∧ (sample .tag 0).phase ≠ .idle ∧ (sample .tag 0).phase ≠ .payload := by decide
theorem witness_ChunkOpenCommand : (State.reset.fault = .none ∧ State.reset.phase = .idle) ∧
    (sample .tag 0).fault = .none ∧ (sample .tag 0).phase ≠ .idle := ⟨witness_idle, witness_not_idle⟩
theorem witness_ChunkTagCommand : ((sample .tag 0).fault = .none ∧ (sample .tag 0).phase = .tag) ∧
    State.reset.fault = .none ∧ State.reset.phase ≠ .tag := by decide
theorem witness_ChunkCloseCommand :
    ((sample .payload 0).fault = .none ∧ (sample .payload 0).phase = .payload ∧ (sample .payload 0).remain.toNat = 0) ∧
    ((sample .payload 1).phase = .payload ∧ (sample .payload 1).remain.toNat ≠ 0) ∧ State.reset.phase ≠ .payload := by decide
theorem witness_ZlibOpenCommand :
    ((sample .payload 2).fault = .none ∧ (sample .payload 2).phase = .payload ∧ 2 ≤ (sample .payload 2).remain.toNat) ∧
    ((sample .payload 1).phase = .payload ∧ (sample .payload 1).remain.toNat < 2) ∧ State.reset.phase ≠ .payload := by decide

/-- OpensRow: one byte, one full block, two blocks, each with exactly the room it needs and with one byte less; the empty
row; a row after the final block. -/
theorem witness_OpensRow :
    ((sample .zstream 6).fault = .none ∧ (sample .zstream 6).phase = .zstream ∧ (sample .zstream 6).zfinal = false) ∧
    ((1#32 : Word).toNat ≠ 0 ∧
      (1#32 : Word).toNat + 5 * (((1#32 : Word).toNat + 65534) / 65535) ≤ (sample .zstream 6).remain.toNat) ∧
    (sample .zstream 5).remain.toNat < (1#32 : Word).toNat + 5 * (((1#32 : Word).toNat + 65534) / 65535) ∧
    (65535#32 : Word).toNat + 5 * (((65535#32 : Word).toNat + 65534) / 65535) = (sample .zstream 65540).remain.toNat ∧
    (65536#32 : Word).toNat + 5 * (((65536#32 : Word).toNat + 65534) / 65535) = (sample .zstream 65546).remain.toNat ∧
    (0#32 : Word).toNat = 0 ∧ ({ sample .zstream 6 with zfinal := true } : State).zfinal = true ∧
    State.reset.phase ≠ .zstream := by decide
theorem witness_RowOpenCommand : (sample .zstream 6).fault = .none ∧ (sample .zstream 6).phase = .zstream ∧
    (sample .zstream 6).zfinal = false := witness_OpensRow.1
theorem witness_RowOpenLastCommand : (sample .zstream 6).fault = .none ∧ (sample .zstream 6).phase = .zstream ∧
    (sample .zstream 6).zfinal = false := witness_OpensRow.1
theorem witness_RowDataCommand :
    (Inv (sampleRow false 2 2 2) ∧ (sampleRow false 2 2 2).fault = .none ∧ (sampleRow false 2 2 2).phase = .row ∧
      2 ≤ (sampleRow false 2 2 2).rowrem.toNat ∧ 2 ≤ (sampleRow false 2 2 2).segrem.toNat) ∧
    (Inv (sampleRow false 1 1 1) ∧ (sampleRow false 1 1 1).phase = .row ∧ (sampleRow false 1 1 1).rowrem.toNat = 1) ∧
    (Inv (sampleRow true 2 1 11) ∧ (sampleRow true 2 1 11).phase = .row ∧ 2 ≤ (sampleRow true 2 1 11).rowrem.toNat ∧
      (sampleRow true 2 1 11).segrem.toNat = 1) ∧
    State.reset.fault = .none ∧ State.reset.phase ≠ .row := by
  refine ⟨⟨witness_inv_row.2.2.2, ?_⟩, ⟨witness_inv_row.2.2.1, ?_⟩, ⟨witness_inv_row.2.1, ?_⟩, ?_⟩ <;> decide
theorem witness_ZlibCloseCommand :
    (({ sample .zstream 4 with zfinal := true } : State).fault = .none ∧
      ({ sample .zstream 4 with zfinal := true } : State).phase = .zstream ∧
      ({ sample .zstream 4 with zfinal := true } : State).zfinal = true ∧
      4 ≤ ({ sample .zstream 4 with zfinal := true } : State).remain.toNat) ∧
    (({ sample .zstream 3 with zfinal := true } : State).zfinal = true ∧
      ({ sample .zstream 3 with zfinal := true } : State).remain.toNat < 4) ∧
    (sample .zstream 4).zfinal = false ∧ State.reset.phase ≠ .zstream := by decide

theorem witness_PhaseMatrix :
    phaseAllows .crcInit (sample .tag 0).phase (sample .tag 0).zfinal = false ∧
    phaseAllows .crcInit State.reset.phase State.reset.zfinal = true ∧ ∃ t, exec .crcInit State.reset = .next t :=
  ⟨by decide, by decide, _, rfl⟩
theorem witness_RangeFaults :
    (phaseAllows (.putLen16c 65536#32) State.reset.phase State.reset.zfinal = true ∧ rangeRefuses (.putLen16c 65536#32) = true) ∧
    rangeRefuses (.putLen16c 65535#32) = false ∧ ∃ t, exec (.putLen16c 65535#32) State.reset = .next t :=
  ⟨by decide, by decide, _, rfl⟩
theorem witness_LengthFaults :
    (phaseAllows .chunkClose (sample .payload 1).phase false = true ∧ rangeRefuses .chunkClose = false ∧
      lengthRefuses .chunkClose (sample .payload 1) = true) ∧
    lengthRefuses .chunkClose (sample .payload 0) = false ∧ ∃ t, exec .chunkClose (sample .payload 0) = .next t :=
  ⟨by decide, by decide, _, rfl⟩
theorem witness_ChecksInOrder :
    fetch (issued [0x1000000000#40]) = some 0x1000000000#40 ∧
    (fetch (issued [0#40]) = some 0#40 ∧ decode 0#40 = none) ∧
    (fetch { issued [0x1000000000#40] with phase := .row } = some 0x1000000000#40 ∧
      precheck .crcInit { issued [0x1000000000#40] with phase := .row } ≠ .none) ∧
    precheck .crcInit (issued [0x1000000000#40]) = .none ∧ ∃ t, step (issued [0x1000000000#40]) = .next t :=
  ⟨by decide, by decide, by decide, by decide, _, rfl⟩
theorem witness_PreciseFaults :
    (issued [0#40]).fault = .none ∧ ∃ t, step (issued [0#40]) = .next t ∧ t.fault ≠ .none ∧ t.fault ≠ .io :=
  ⟨by decide, _, rfl, by decide, by decide⟩
theorem witness_IoFaults :
    (refusing 0 State.reset).fault = .none ∧ ∃ t, exec (.putByte 0#8) (refusing 0 State.reset) = .next t ∧ t.fault = .io :=
  ⟨by decide, _, rfl, rfl⟩
theorem witness_PcCountsCompletedCommands :
    State.reset.fault = .none ∧ (∃ t, exec .crcInit State.reset = .next t ∧ t.fault = .none) ∧
      ∃ t, exec .chunkClose State.reset = .next t ∧ t.fault ≠ .none :=
  ⟨by decide, ⟨_, rfl, rfl⟩, _, rfl, by decide⟩
theorem witness_OutputFrame :
    (∃ t, exec (.putByte 0#8) State.reset = .next t ∧ State.reset.fault = .none ∧ t.fault = .none) ∧
    (∃ t, exec (.putByte 0#8) (refusing 0 State.reset) = .next t ∧ t.fault = .io) ∧
    (∃ t, exec .chunkClose State.reset = .next t ∧ t.fault ≠ .none ∧ t.fault ≠ .io) :=
  ⟨⟨_, rfl, rfl, rfl⟩, ⟨_, rfl, rfl⟩, _, rfl, by decide, by decide⟩
theorem witness_ChecksumFrame : ∃ t, exec .crcFinal State.reset = .next t := ⟨_, rfl⟩
theorem witness_SerializerFrame :
    ∃ t, exec (.putByte 0#8) State.reset = .next t ∧ t.fault ≠ .io ∧ State.reset.phase ≠ .payload := ⟨_, rfl, by decide, by decide⟩
theorem witness_ChunkFrame : ∃ t, exec (.chunkOpen 13#32) State.reset = .next t ∧ t.fault ≠ .io := ⟨_, rfl, by decide⟩
theorem witness_StreamFrame : ∃ t, exec .zlibOpen (sample .payload 2) = .next t ∧ t.fault ≠ .io := ⟨_, rfl, by decide⟩
theorem witness_InvariantKeptByStep :
    Inv (sampleRow true 2 1 11) ∧ ∃ t, step (sampleRow true 2 1 11) = .next t := ⟨witness_inv_row.2.1, _, rfl⟩
theorem witness_StepAlwaysAnswers : Inv (sampleRow true 9 9 13) := witness_inv_row.1
theorem witness_FaultSticksOverRuns : ∃ t, Sys2Proof.core.run 1 (issued [0#40]) = .next t := ⟨_, rfl⟩
theorem witness_PayloadIsSummedAndCounted :
    (sample .payload 1).fault = .none ∧ (sample .payload 1).phase = .payload ∧ Instr.putByte 0#8 ≠ .chunkClose ∧
      ∃ t, exec (.putByte 0#8) (sample .payload 1) = .next t ∧ t.fault = .none :=
  ⟨by decide, by decide, by decide, _, rfl, rfl⟩
/-- The sRGB chunk of P3b with its payload as the commands between. -/
theorem witness_ChunkLaw :
    State.reset.fault = .none ∧ State.reset.phase = .idle ∧ Instr.chunkClose ∉ [Instr.putByte 0#8] ∧
      ∃ u, execAll (.chunkOpen 1#32 :: .chunkTag 0x73#8 0x52#8 0x47#8 0x42#8 :: [.putByte 0#8] ++ [.chunkClose]) State.reset =
        .next u ∧ u.fault = .none :=
  ⟨by decide, by decide, by decide, _, rfl, rfl⟩
theorem witness_ChunkMacroCompletes :
    (State.reset.fault = .none ∧ State.reset.phase = .idle ∧ SinkTakesAll State.reset) ∧ [0#8].length ≤ 4294967295 ∧
      4294967295 < (List.replicate 4294967296 0#8).length :=
  ⟨⟨rfl, rfl, fun _ _ _ => rfl⟩, by decide, by rw [List.length_replicate]; decide⟩
/-- RowLaw at one byte and exactly the room it needs. -/
theorem witness_RowLaw :
    (sample .zstream 6).fault = .none ∧ (sample .zstream 6).phase = .zstream ∧ (sample .zstream 6).zfinal = false ∧
      SinkTakesAll (sample .zstream 6) ∧ 1 ≤ [0#8].length ∧ [0#8].length ≤ 4294967295 ∧
      [0#8].length + 5 * (([0#8].length + 65534) / 65535) ≤ (sample .zstream 6).remain.toNat :=
  ⟨rfl, rfl, rfl, fun _ _ _ => rfl, by decide, by decide, by decide⟩
theorem witness_RowBlocksShape : 1 ≤ (List.replicate 65536 0#8).length := by
  rw [List.length_replicate]
  decide
theorem witness_StreamLaw :
    (sample .payload 12).fault = .none ∧ (sample .payload 12).phase = .payload ∧ SinkTakesAll (sample .payload 12) ∧
      [[0#8]] ≠ [] ∧ (∀ row ∈ [[0#8]], 1 ≤ row.length ∧ row.length ≤ 4294967295) ∧
      2 + ([[0#8]].map fun row => row.length + 5 * ((row.length + 65534) / 65535)).sum + 4 ≤ (sample .payload 12).remain.toNat :=
  ⟨rfl, rfl, fun _ _ _ => rfl, by decide, by decide, by decide⟩
theorem witness_IdatMacroCompletes :
    State.reset.fault = .none ∧ State.reset.phase = .idle ∧ SinkTakesAll State.reset ∧ twoPixels.accepted = true :=
  ⟨rfl, rfl, fun _ _ _ => rfl, by decide⟩
theorem witness_EncodeMacroProducesTheImage :
    State.reset.fault = .none ∧ State.reset.phase = .idle ∧ SinkTakesAll State.reset ∧ twoPixels.accepted = true :=
  ⟨rfl, rfl, fun _ _ _ => rfl, by decide⟩
/-- One command that completes, and two of which the first faults. -/
theorem witness_DriverStopsAtFirstFault :
    (State.reset.fault = .none ∧ State.reset.pc = State.reset.prog.length) ∧
    (∃ t, driverIssue (some [.crcInit]) State.reset = some (.next t) ∧ t.fault = .none) ∧
    (∃ t, driverIssue (some [.chunkClose, .crcInit]) State.reset = some (.next t) ∧ t.fault ≠ .none) ∧
    Inv (sampleRow true 9 9 13) ∧
    ∃ u, execAll [.crcInit] State.reset = .next u ∧ u.fault = .none :=
  ⟨by decide, ⟨_, rfl, rfl⟩, ⟨_, rfl, by decide⟩, witness_inv_row.1, _, rfl, rfl⟩

end Sys2Proof.Tests
end

section
/-!
The output frame of every command. `exec_next_cases` reads `exec_cases` from the side of the next state, halted core
included; frames over every next state follow from it case by case.
-/

namespace Sys2Proof.Machine

/-- The next states of a command: the state itself in a halted core (R243), a precise fault (R241), the completed
command (R26), and the command stopped by the sink (R242). -/
theorem exec_next_cases {i : Instr} {s t : State} (h : exec i s = .next t) :
    (s.fault ≠ .none ∧ t = s) ∨
    (s.fault = .none ∧ precheck i s ≠ .none ∧ t = trapped (precheck i s) s) ∨
    (s.fault = .none ∧ precheck i s = .none ∧ RowOwes i s ∧ t = advancePc (effect i s)) ∨
    (s.fault = .none ∧ precheck i s = .none ∧
      ∃ k, k < (emittedBytes i s).length ∧ SinkFailsAt k s ∧ IoStopped ((emittedBytes i s).take k) s t) := by
  by_cases h0 : s.fault = .none
  · cases exec_cases i h0 with
    | trap hc he =>
      cases h.symm.trans he
      exact .inr (.inl ⟨h0, hc, rfl⟩)
    | done hc _ hn he =>
      cases h.symm.trans he
      exact .inr (.inr (.inl ⟨h0, hc, hn, rfl⟩))
    | io hc k u hk hf he hio =>
      cases h.symm.trans he
      exact .inr (.inr (.inr ⟨h0, hc, k, hk, hf, hio⟩))
    | stuck _ _ _ _ he => cases h.symm.trans he
  · cases h.symm.trans (exec_halted i h0)
    exact .inl ⟨h0, rfl⟩

/-- Bytes already out never change (R52). -/
theorem exec_out_prefix {i : Instr} {s t : State} (h : exec i s = .next t) : s.out <+: t.out := by
  rcases exec_next_cases h with ⟨-, rfl⟩ | ⟨-, -, rfl⟩ | ⟨-, -, hn, rfl⟩ | ⟨-, -, k, -, -, hio⟩
  · exact List.prefix_rfl
  · exact List.prefix_rfl
  · exact ⟨emittedBytes i s, (effect_out i s hn).symm⟩
  · obtain ⟨-, hout, -⟩ := hio
    exact ⟨(emittedBytes i s).take k, hout.symm⟩

/-- A completed command has appended exactly its bytes (R78). -/
theorem exec_completed_out {i : Instr} {s t : State} (h : exec i s = .next t) (ht : t.fault = .none) :
    t.out = s.out ++ emittedBytes i s := by
  rcases exec_next_cases h with ⟨h0, rfl⟩ | ⟨-, hc, rfl⟩ | ⟨-, -, hn, rfl⟩ | ⟨-, -, k, -, -, hio⟩
  · exact absurd ht h0
  · exact absurd ht hc
  · exact effect_out i s hn
  · obtain ⟨hfault, -⟩ := hio
    simp [hfault] at ht

/-- A command stopped by the sink: the sink took a proper beginning of its bytes and refused the next one (R242). -/
theorem exec_io_stopped {i : Instr} {s t : State} (h : exec i s = .next t) (h0 : s.fault = .none) (ht : t.fault = .io) :
    ∃ k, k < (emittedBytes i s).length ∧ SinkFailsAt k s ∧ IoStopped ((emittedBytes i s).take k) s t := by
  rcases exec_next_cases h with ⟨hs, -⟩ | ⟨-, -, rfl⟩ | ⟨-, -, -, rfl⟩ | ⟨-, -, hio⟩
  · exact absurd h0 hs
  · exact absurd ht (precheck_ne_io i s)
  · simp [effect_fault, h0] at ht
  · exact hio

/-- A halted core and a precise fault leave every field but `fault` alone (R241, R243). -/
theorem exec_halted_or_precise {i : Instr} {s t : State} (h : exec i s = .next t)
    (hs : s.fault ≠ .none ∨ (t.fault ≠ .none ∧ t.fault ≠ .io)) : t = { s with fault := t.fault } := by
  rcases exec_next_cases h with ⟨-, rfl⟩ | ⟨-, -, rfl⟩ | ⟨h0, -, -, rfl⟩ | ⟨h0, -, k, -, -, hio⟩
  · rfl
  · rfl
  · simp [effect_fault, h0] at hs
  · obtain ⟨hfault, -⟩ := hio
    simp [h0, hfault] at hs

/-- No command writes the command stream or the parameters (R51, R9). -/
theorem exec_prog_cfg {i : Instr} {s t : State} (h : exec i s = .next t) : t.prog = s.prog ∧ t.cfg = s.cfg := by
  rcases exec_next_cases h with ⟨-, rfl⟩ | ⟨-, -, rfl⟩ | ⟨-, -, -, rfl⟩ | ⟨-, -, k, -, -, hio⟩
  · exact ⟨rfl, rfl⟩
  · exact ⟨rfl, rfl⟩
  · exact ⟨effect_prog i s, effect_cfg i s⟩
  · obtain ⟨-, -, -, hprog, hcfg⟩ := hio
    exact ⟨hprog, hcfg⟩

/-- Free values are drawn by an IO fault alone, and not again once the core is halted. -/
theorem exec_draws {i : Instr} {s t : State} (h : exec i s = .next t) (hs : s.fault ≠ .none ∨ t.fault ≠ .io) :
    t.draws = s.draws := by
  rcases exec_next_cases h with ⟨-, rfl⟩ | ⟨-, -, rfl⟩ | ⟨-, -, -, rfl⟩ | ⟨h0, -, k, -, -, hio⟩
  · rfl
  · rfl
  · exact effect_draws i s
  · obtain ⟨hfault, -⟩ := hio
    simp [h0, hfault] at hs

/-- Settles O43: each clause is one of the frame lemmas above, read off the next states of a command. -/
theorem outputFrame : Obligations.OutputFrame := by
  intro i s t h
  obtain ⟨hprog, hcfg⟩ := exec_prog_cfg h
  refine ⟨fun k hk => ?_, fun _ ht => exec_completed_out h ht, fun h0 ht => ?_, fun hs => ?_, hprog, hcfg, exec_draws h⟩
  · obtain ⟨bs, hbs⟩ := exec_out_prefix h
    rw [← hbs, List.getElem?_append_left hk]
  · obtain ⟨k, hk, -, -, hout, -⟩ := exec_io_stopped h h0 ht
    exact ⟨k, hk, hout⟩
  · rw [exec_halted_or_precise h hs]

end Sys2Proof.Machine
end

section
/-!
One step, said once: an equation per branch of `step`, the next states it can answer, and how far `pc` moves. The
obligations about `pc`, about runs and about reset follow.
-/

namespace Sys2Proof.Machine

/-! ### The branches of a step -/

/-- A halted core does not decode (R243). -/
theorem step_halted {s : State} (h0 : s.fault ≠ .none) : step s = .next s := by
  simp [step, halted, h0]

/-- With no further word issued the step holds the registers (R252). -/
theorem step_unissued {s : State} (h0 : s.fault = .none) (hf : fetch s = none) : step s = .next s := by
  simp [step, halted, h0, hf]

/-- An illegal word raises ILLEGAL and nothing else (R86, R232). -/
theorem step_illegal {s : State} {w : CmdWord} (h0 : s.fault = .none) (hf : fetch s = some w) (hw : decode w = none) :
    step s = .next (trapped .illegal s) := by
  simp [step, halted, h0, hf, hw, illegalWord, command_live h0]

/-- A command word is executed. -/
theorem step_command {s : State} {w : CmdWord} {i : Instr} (h0 : s.fault = .none) (hf : fetch s = some w)
    (hw : decode w = some i) : step s = exec i s := by
  simp [step, halted, h0, hf, hw]

theorem fetch_pc_lt {s : State} {w : CmdWord} (hf : fetch s = some w) : s.pc < s.prog.length := by
  obtain ⟨hlt, -⟩ := List.getElem?_eq_some_iff.mp hf
  exact hlt

/-- The next states of a step: the state itself (halted, or no word issued), the fault of an illegal word, or what the
fetched command leaves. -/
theorem step_next_cases {s t : State} (h : step s = .next t) :
    t = s ∨ (s.fault = .none ∧ t = trapped .illegal s) ∨
      ∃ i, s.fault = .none ∧ s.pc < s.prog.length ∧ exec i s = .next t := by
  by_cases h0 : s.fault = .none
  · cases hf : fetch s with
    | none =>
      cases h.symm.trans (step_unissued h0 hf)
      exact .inl rfl
    | some w =>
      cases hw : decode w with
      | none =>
        cases h.symm.trans (step_illegal h0 hf hw)
        exact .inr (.inl ⟨h0, rfl⟩)
      | some i => exact .inr (.inr ⟨i, h0, fetch_pc_lt hf, (step_command h0 hf hw).symm.trans h⟩)
  · cases h.symm.trans (step_halted h0)
    exact .inl rfl

/-! ### The command counter -/

/-- Settles O42: of the next states of a live command only the completed one has no fault, and it alone advances `pc`. -/
theorem pcCountsCompletedCommands : Obligations.PcCountsCompletedCommands := by
  intro i s t h0 h
  rcases exec_next_cases h with ⟨hs, -⟩ | ⟨-, hc, rfl⟩ | ⟨-, -, -, rfl⟩ | ⟨-, -, k, -, -, hio⟩
  · exact absurd h0 hs
  · exact ⟨fun ht => absurd ht hc, fun _ => rfl⟩
  · exact ⟨fun _ => by simp [effect_pc], fun ht => absurd (by simp [effect_fault, h0]) ht⟩
  · obtain ⟨hfault, -, hpc, -⟩ := hio
    exact ⟨fun ht => by simp [hfault] at ht, fun _ => hpc⟩

theorem exec_pc_bounds {i : Instr} {s t : State} (h0 : s.fault = .none) (h : exec i s = .next t) :
    s.pc ≤ t.pc ∧ t.pc ≤ s.pc + 1 := by
  obtain ⟨hgood, hfaulted⟩ := pcCountsCompletedCommands i s t h0 h
  by_cases ht : t.fault = .none
  · have := hgood ht
    omega
  · have := hfaulted ht
    omega

/-! ### Runs -/

theorem step_out_prefix {s t : State} (h : step s = .next t) : s.out <+: t.out := by
  rcases step_next_cases h with rfl | ⟨-, rfl⟩ | ⟨i, -, -, he⟩
  · exact List.prefix_rfl
  · exact List.prefix_rfl
  · exact exec_out_prefix he

theorem step_pc_bounds {s t : State} (h : step s = .next t) : s.pc ≤ t.pc ∧ t.pc ≤ s.pc + 1 := by
  rcases step_next_cases h with rfl | ⟨-, rfl⟩ | ⟨i, h0, -, he⟩
  · exact ⟨le_rfl, Nat.le_succ _⟩
  · exact ⟨le_rfl, Nat.le_succ _⟩
  · exact exec_pc_bounds h0 he

/-- A run of `n + 1` steps that ends in a next state is one step and a run of `n`, on any machine. -/
theorem run_succ_next {M : Host.Core} {n : Nat} {s t : M.State} (h : M.run (n + 1) s = .next t) :
    ∃ u, M.step s = .next u ∧ M.run n u = .next t := by
  rw [Host.Core.run] at h
  cases hs : M.step s with
  | next u => exact ⟨u, rfl, by simpa only [hs] using h⟩
  | fault r => simp [hs] at h
  | refused r => simp [hs] at h

/-- Settles O51, by induction on the number of steps. -/
theorem faultSticksOverRuns : Obligations.FaultSticksOverRuns := by
  intro n
  induction n with
  | zero =>
    intro s t h
    cases h
    exact ⟨List.prefix_rfl, fun _ => rfl, le_rfl, le_rfl⟩
  | succ n ih =>
    intro s t h
    obtain ⟨u, hstep, hrun⟩ := run_succ_next (M := Sys2Proof.core) h
    obtain ⟨hout, hstick, hlow, hhigh⟩ := ih u t hrun
    obtain ⟨hlow', hhigh'⟩ := step_pc_bounds hstep
    refine ⟨(step_out_prefix hstep).trans hout, fun h0 => ?_, by omega, by omega⟩
    cases hstep.symm.trans (step_halted h0)
    exact hstick h0

/-! ### Reset -/

/-- Settles O9: the table of R39 is the definition; with a word issued to the reset core, `step_command` applies. -/
theorem resetValues : Obligations.ResetValues :=
  ⟨rfl, rfl, rfl, rfl, rfl, rfl, rfl, rfl, rfl, rfl, rfl, rfl, rfl,
    fun _ _ _ hw => step_command rfl rfl hw⟩

/-- Settles O10: nothing of the state before enters the reset state but the parameters and the draw counter. -/
theorem hostResetIsTotal : Obligations.HostResetIsTotal :=
  fun _ => ⟨rfl, rfl, rfl, rfl, rfl, rfl, rfl, rfl, rfl, rfl, rfl, rfl, rfl, rfl⟩

end Sys2Proof.Machine
end

section
/-!
The host register file (R32, R33): STATUS as a sum of its fields, each field read back from the sum.
-/

namespace Sys2Proof.Machine

/-- The number STATUS spells (R33). -/
def statusNumber (s : State) : Nat :=
  phaseCode s.phase + 8 * s.zfinal.toNat + 16 * s.rowlast.toNat + 32 * faultNumber s.fault

theorem phaseCode_lt (p : Phase) : phaseCode p < 8 := by cases p <;> decide
theorem faultNumber_lt (c : FaultCode) : faultNumber c < 8 := by cases c <;> decide

/-- STATUS is not reduced to 32 bits: its fields take 8. -/
theorem status_toNat (s : State) : (hostRead 0 s).toNat = statusNumber s := by
  have hp := phaseCode_lt s.phase
  have hf := faultNumber_lt s.fault
  rw [hostRead, statusWord, statusNumber, BitVec.toNat_ofNat]
  cases s.zfinal <;> cases s.rowlast <;> simp <;> omega

theorem status_faultField {s : State} {c : FaultCode} (hc : s.fault = c) :
    (hostRead 0 s).extractLsb' 5 3 = BitVec.ofNat 3 (faultNumber c) := by
  subst hc
  apply BitVec.eq_of_toNat_eq
  have hp := phaseCode_lt s.phase
  have hz := s.zfinal.toNat_lt
  have hr := s.rowlast.toNat_lt
  rw [extract_toNat, status_toNat, statusNumber, BitVec.toNat_ofNat]
  omega

theorem status_phaseField {s : State} {p : Phase} (hp : s.phase = p) :
    (hostRead 0 s).extractLsb' 0 3 = BitVec.ofNat 3 (phaseCode p) := by
  subst hp
  apply BitVec.eq_of_toNat_eq
  rw [extract_toNat, status_toNat, statusNumber, BitVec.toNat_ofNat]
  omega

theorem status_upperField (s : State) : (hostRead 0 s).extractLsb' 8 24 = 0#24 := by
  apply BitVec.eq_of_toNat_eq
  have hp := phaseCode_lt s.phase
  have hf := faultNumber_lt s.fault
  have hz := s.zfinal.toNat_lt
  have hr := s.rowlast.toNat_lt
  rw [extract_toNat, status_toNat, statusNumber, BitVec.toNat_ofNat]
  omega

theorem status_zfinalBit (s : State) : (hostRead 0 s).getLsbD 3 = s.zfinal := by
  have hp := phaseCode_lt s.phase
  rw [BitVec.getLsbD, status_toNat, statusNumber, Nat.testBit_eq_decide_div_mod_eq]
  cases s.zfinal <;> simp <;> omega

theorem status_rowlastBit (s : State) : (hostRead 0 s).getLsbD 4 = s.rowlast := by
  have hp := phaseCode_lt s.phase
  have hz := s.zfinal.toNat_lt
  rw [BitVec.getLsbD, status_toNat, statusNumber, Nat.testBit_eq_decide_div_mod_eq]
  cases s.rowlast <;> simp <;> omega

/-- Settles O11: the field lemmas above, at each code of `phase` and `fault`. -/
theorem statusFields : Obligations.StatusFields := by
  refine ⟨fun s => ?_, fun s _ => ?_, rfl, fun s hp hz hr hf => ?_, fun s hp hz hr hf => ?_⟩
  · exact ⟨status_faultField, status_faultField, status_faultField, status_faultField, status_faultField,
      status_faultField⟩
  · exact ⟨status_phaseField, status_phaseField, status_phaseField, status_phaseField, status_phaseField,
      status_zfinalBit s, status_rowlastBit s, status_upperField s⟩
  · apply BitVec.eq_of_toNat_eq
    rw [status_toNat, statusNumber, hp, hz, hr, hf]
    rfl
  · apply BitVec.eq_of_toNat_eq
    rw [status_toNat, statusNumber, hp, hz, hr, hf]
    rfl

theorem hostRead_above {n : Nat} (hn : 8 ≤ n) (s : State) : hostRead n s = 0#32 := by
  obtain ⟨k, rfl⟩ := Nat.exists_eq_add_of_le' hn
  rfl

theorem hostRead_segrem (s : State) : (hostRead 7 s).toNat = s.segrem.toNat :=
  BitVec.toNat_setWidth_of_le (by decide)

/-- Settles O12: registers 1 to 6 are the registers themselves, 7 zero-extends `segrem`. -/
theorem hostRegisterNumbers : Obligations.HostRegisterNumbers :=
  fun s => ⟨rfl, rfl, rfl, rfl, rfl, rfl, hostRead_segrem s, fun _ hn => hostRead_above hn s⟩

end Sys2Proof.Machine
end

section
/-!
The frames of the command groups (R41). `exec_precise_or_completed` leaves two next states where the sink has stopped
nothing: `fault` alone has changed, or the command completed and its `effect` says what has changed.
-/

namespace Sys2Proof.Machine

/-- The next states of a command that the sink has not stopped. -/
theorem exec_precise_or_completed {i : Instr} {s t : State} (h : exec i s = .next t)
    (hio : s.fault ≠ .none ∨ t.fault ≠ .io) :
    (∃ c, t = { s with fault := c }) ∨ (precheck i s = .none ∧ RowOwes i s ∧ t = advancePc (effect i s)) := by
  rcases exec_next_cases h with ⟨-, rfl⟩ | ⟨-, -, rfl⟩ | ⟨-, hc, hn, rfl⟩ | ⟨h0, -, k, -, -, hstop⟩
  · exact .inl ⟨_, rfl⟩
  · exact .inl ⟨_, rfl⟩
  · exact .inr ⟨hc, hn, rfl⟩
  · obtain ⟨hfault, -⟩ := hstop
    simp [h0, hfault] at hio

/-- A command without bytes is never stopped by the sink. -/
theorem exec_silent_not_io {i : Instr} {s t : State} (hb : emittedBytes i s = []) (h : exec i s = .next t) :
    s.fault ≠ .none ∨ t.fault ≠ .io := by
  by_cases h0 : s.fault = .none
  · refine .inr fun ht => ?_
    obtain ⟨k, hk, -⟩ := exec_io_stopped h h0 ht
    simp [hb] at hk
  · exact .inl h0

theorem precheck_none_iff {i : Instr} {s : State} :
    precheck i s = .none ↔
      phaseAllows i s.phase s.zfinal = true ∧ rangeRefuses i = false ∧ lengthRefuses i s = false := by
  unfold precheck
  split
  · simp_all
  · split
    · simp_all
    · split <;> simp_all

/-! ### The checksum commands -/

/-- Settles O44: the six commands emit nothing, so each has completed or changed `fault` alone. -/
theorem checksumFrame : Obligations.ChecksumFrame := by
  intro s t x i hi h
  have hb : emittedBytes i s = [] := by
    rcases hi with rfl | rfl | rfl | rfl | rfl | rfl <;> rfl
  rcases exec_precise_or_completed h (exec_silent_not_io hb h) with ⟨c, rfl⟩ | ⟨-, -, rfl⟩
  · simp
  · rcases hi with rfl | rfl | rfl | rfl | rfl | rfl <;> simp [effect]

/-! ### The PUT commands -/

/-- A PUT command writes `out`, `crc` and `remain` alone. -/
theorem putEffect_writes (bs : List Byte) (s : State) :
    ∃ c r, putEffect bs s = { s with out := s.out ++ bs, crc := c, remain := r } := by
  unfold putEffect
  split
  · exact ⟨s.crc, s.remain, rfl⟩
  · exact ⟨_, _, rfl⟩

theorem putEffect_idle (bs : List Byte) {s : State} (hp : s.phase = .idle) : putEffect bs s = sentRaw bs s :=
  if_pos hp

/-- Settles O45: a PUT command that completes is `putEffect` of its bytes; outside PAYLOAD it has passed its phase check
in IDLE, where the bytes are raw. -/
theorem serializerFrame : Obligations.SerializerFrame := by
  intro s t x v i hi h hio
  rcases exec_precise_or_completed h hio with ⟨c, rfl⟩ | ⟨hc, -, rfl⟩
  · simp
  · obtain ⟨bs, he⟩ : ∃ bs, effect i s = putEffect bs s := by
      rcases hi with rfl | rfl | rfl <;> exact ⟨_, rfl⟩
    have hphase : s.phase = .idle ∨ s.phase = .payload := by
      obtain ⟨hp, -⟩ := precheck_none_iff.1 hc
      rcases hi with rfl | rfl | rfl <;> exact of_decide_eq_true hp
    have hraw : s.phase ≠ .payload → (effect i s).crc = s.crc ∧ (effect i s).remain = s.remain := fun hp => by
      rw [he, putEffect_idle bs (hphase.resolve_right hp)]
      exact ⟨rfl, rfl⟩
    obtain ⟨c, r, hw⟩ := putEffect_writes bs s
    refine ⟨?_, ?_, ?_, ?_, ?_, ?_, ?_, ?_, hraw⟩ <;> simp [he, hw]

/-! ### The chunk commands -/

/-- Settles O46. -/
theorem chunkFrame : Obligations.ChunkFrame := by
  intro s t len t0 t1 t2 t3 i hi h hio
  rcases exec_precise_or_completed h hio with ⟨c, rfl⟩ | ⟨-, -, rfl⟩
  · simp
  · rcases hi with rfl | rfl | rfl <;> simp [effect]

/-! ### The stream commands -/

@[simp] theorem headed_a (s : State) : (headed s).a = s.a := rfl
@[simp] theorem headed_b (s : State) : (headed s).b = s.b := rfl
@[simp] theorem headed_result (s : State) : (headed s).result = s.result := rfl
@[simp] theorem headed_phase (s : State) : (headed s).phase = s.phase := rfl
@[simp] theorem headed_zfinal (s : State) : (headed s).zfinal = (finalFlag s || s.zfinal) := rfl
@[simp] theorem headed_rowlast (s : State) : (headed s).rowlast = s.rowlast := rfl
@[simp] theorem headed_remain (s : State) : (headed s).remain = s.remain - 5#32 := rfl
@[simp] theorem headed_rowrem (s : State) : (headed s).rowrem = s.rowrem := rfl
@[simp] theorem headed_segrem (s : State) : (headed s).segrem = BitVec.ofNat 16 (segLength s.rowrem.toNat) := rfl

/-- ROW_DATA keeps `result` and `rowlast`, and its sums are those of one Adler step, whether or not the row or the block
ends. -/
theorem rowDataEffect_frame (x : Byte) (s : State) :
    (rowDataEffect x s).result = s.result ∧ (rowDataEffect x s).rowlast = s.rowlast ∧
      adlerOf (rowDataEffect x s) = adlerStep (adlerOf s) x := by
  unfold rowDataEffect
  split
  · exact ⟨rfl, rfl, rfl⟩
  · split <;> exact ⟨rfl, rfl, rfl⟩

/-- A block of a row not opened as the last is not final (R172). -/
@[simp] theorem finalFlag_beginRow_false (n : Word) (s : State) : finalFlag (beginRow false n s) = false := rfl

/-- Settles O47: each command's effect; ROW_DATA's by its frame. -/
theorem streamFrame : Obligations.StreamFrame := by
  intro s t n x i hi h hio
  rcases exec_precise_or_completed h hio with ⟨c, rfl⟩ | ⟨-, -, rfl⟩
  · simp
  · obtain ⟨hresult, hrowlast, -⟩ := rowDataEffect_frame x s
    rcases hi with rfl | rfl | rfl | rfl | rfl <;> simp [effect, hresult, hrowlast]

end Sys2Proof.Machine
end

section
/-!
The invariant of R40. Outside an IO fault it says: the sums are in range, and either no row is open (`RowShut`) or one is
and its counters agree (`RowOwed`). Each command's effect keeps the first part, and leads from one of the two states of the
row to one of the two.
-/

namespace Sys2Proof.Machine

/-! ### The invariant by the state of the row -/

/-- R23: both sums are below the modulus. -/
def AdlerInRange (s : State) : Prop := s.a.toNat ≤ 65520 ∧ s.b.toNat ≤ 65520

/-- R40 (iv), (vi): outside ROW no row byte is owed, and in IDLE no payload byte. -/
structure RowShut (s : State) : Prop where
  phase : s.phase ≠ .row
  rowrem : s.rowrem = 0#32
  segrem : s.segrem = 0#16
  idle : s.phase = .idle → s.remain = 0#32

/-- R40 (iii), (v): the counters of an open row. -/
structure RowOwed (s : State) : Prop where
  segPos : 1 ≤ s.segrem.toNat
  segLe : s.segrem.toNat ≤ s.rowrem.toNat
  fits : s.rowrem.toNat + 5 * ceilDiv (s.rowrem.toNat - s.segrem.toNat) 65535 ≤ s.remain.toNat
  final : s.zfinal = true ↔ s.rowlast = true ∧ s.rowrem.toNat - s.segrem.toNat = 0

/-- Where the row stands (R40 (iii) to (vi)). -/
def RowState (s : State) : Prop := RowShut s ∨ (s.phase = .row ∧ RowOwed s)

theorem inv_iff {s : State} (hio : s.fault ≠ .io) : Inv s ↔ AdlerInRange s ∧ RowState s ∧ s.pc ≤ s.prog.length := by
  constructor
  · intro h
    refine ⟨h.adlerRange hio, ?_, h.pcInStream⟩
    by_cases hp : s.phase = .row
    · exact .inr ⟨hp, (h.segInRow hio hp).1, (h.segInRow hio hp).2, h.rowFits hio hp, h.finalSeen hio hp⟩
    · exact .inl ⟨hp, (h.noRowOpen hio hp).1, (h.noRowOpen hio hp).2, h.idleOwesNothing hio⟩
  · rintro ⟨ha, hrow | ⟨hp, hrow⟩, hpc⟩
    · exact ⟨fun _ => ha, fun _ hp => absurd hp hrow.phase, fun _ hp => absurd hp hrow.phase,
        fun _ _ => ⟨hrow.rowrem, hrow.segrem⟩, fun _ hp => absurd hp hrow.phase, fun _ => hrow.idle, hpc⟩
    · exact ⟨fun _ => ha, fun _ _ => ⟨hrow.segPos, hrow.segLe⟩, fun _ _ => hrow.fits, fun _ hn => absurd hp hn,
        fun _ _ => hrow.final, fun _ hi => by simp [hp] at hi, hpc⟩

/-- After an IO fault the invariant speaks of `pc` alone. -/
theorem inv_of_io {s : State} (hio : s.fault = .io) (hpc : s.pc ≤ s.prog.length) : Inv s :=
  ⟨fun h => absurd hio h, fun h => absurd hio h, fun h => absurd hio h, fun h => absurd hio h, fun h => absurd hio h,
    fun h => absurd hio h, hpc⟩

theorem rowShut_of_phase {s : State} {p : Phase} (hrow : RowState s) (hp : s.phase = p) (hne : p ≠ .row) : RowShut s :=
  hrow.resolve_right fun ⟨hr, _⟩ => hne (hp.symm.trans hr)

theorem rowOwed_of_phase {s : State} (hrow : RowState s) (hp : s.phase = .row) : RowOwed s := by
  rcases hrow with h | ⟨-, h⟩
  · exact absurd hp h.phase
  · exact h

/-- Settles O48. -/
theorem invariantAtReset : Obligations.InvariantAtReset :=
  (inv_iff (by decide)).2 ⟨by unfold AdlerInRange; decide, .inl ⟨by decide, rfl, rfl, fun _ => rfl⟩, le_rfl⟩

/-! ### The sums -/

/-- Every command leaves the sums, seeds them, or steps them. -/
theorem adlerInRange_effect (i : Instr) {s : State} (h : AdlerInRange s) : AdlerInRange (effect i s) := by
  have hput (bs : List Byte) : AdlerInRange (putEffect bs s) := by
    obtain ⟨c, r, hw⟩ := putEffect_writes bs s
    rw [hw]
    exact h
  have hseed : adlerA0.toNat ≤ 65520 ∧ adlerB0.toNat ≤ 65520 := by decide
  cases i with
  | adlerInit => exact hseed
  | zlibOpen => exact hseed
  | adlerByte x => exact adlerStep_range (adlerOf s) x
  | rowData x =>
    obtain ⟨-, -, hsums⟩ := rowDataEffect_frame x s
    have := adlerStep_range (adlerOf s) x
    rwa [← hsums] at this
  | putByte x => exact hput _
  | putBe32 v => exact hput _
  | putLen16c v => exact hput _
  | _ => exact h

/-! ### Opening a block -/

/-- The final-block flag of the next block: it takes all that the last row still owes (R173). -/
theorem finalFlag_iff {s : State} : finalFlag s = true ↔ s.rowlast = true ∧ s.rowrem.toNat ≤ 65535 := by
  rw [finalFlag, Bool.and_eq_true, decide_eq_true_eq, maxBlock]

/-- Opening the next block of a row whose bytes and headers the chunk owes, before the final block: used by the row-opens
and by a ROW_DATA that fills a block. -/
theorem rowOwed_headed {s : State} (hpos : 1 ≤ s.rowrem.toNat) (hz : s.zfinal = false)
    (hfits : s.rowrem.toNat + 5 * ceilDiv s.rowrem.toNat 65535 ≤ s.remain.toNat) : RowOwed (headed s) := by
  have hseg : (headed s).segrem.toNat = min s.rowrem.toNat 65535 := segLength_toNat _
  rw [ceilDiv_block] at hfits
  have hremain : (headed s).remain.toNat = s.remain.toNat - 5 := toNat_sub_ofNat (n := 5) (by omega)
  constructor
  case segPos => omega
  case segLe => simp only [hseg, headed_rowrem]; omega
  case fits => simp only [hseg, hremain, headed_rowrem, ceilDiv_block]; omega
  case final =>
    rw [headed_zfinal, hz, Bool.or_false, finalFlag_iff, hseg, headed_rowrem, headed_rowlast]
    exact and_congr_right fun _ => by omega

/-! ### ROW_DATA -/

/-- An open row owes what ROW_DATA takes: a row byte, a block byte, and the payload bytes it emits. -/
theorem rowOwes_of_rowOwed {i : Instr} {s : State} (h : RowOwed s) : RowOwes i s := by
  intro x _
  have hfits := h.fits
  have hpos := h.segPos
  have hle := h.segLe
  refine ⟨by omega, hpos, ?_⟩
  rw [ceilDiv_block] at hfits
  rw [emittedBytes]
  split
  · show 6 ≤ s.remain.toNat
    omega
  · show 1 ≤ s.remain.toNat
    omega

/-- One row byte: the row ends, or the block ends and the next one opens, or both go on (R175). -/
theorem rowState_rowData (x : Byte) {s : State} (hp : s.phase = .row) (h : RowOwed s) :
    RowState (rowDataEffect x s) := by
  obtain ⟨hpos, hle, hfits, hfinal⟩ := h
  rw [ceilDiv_block] at hfits
  obtain ⟨hrow, hseg⟩ := rowByteTaken_counts (x := x) hpos (by omega)
  have hremain : (rowByteTaken x s).remain.toNat = s.remain.toNat - 1 := toNat_sub_ofNat (n := 1) (by omega)
  have hzfinal : (rowByteTaken x s).zfinal = s.zfinal := rfl
  have hrowlast : (rowByteTaken x s).rowlast = s.rowlast := rfl
  unfold rowDataEffect
  split
  next hre =>
    have hre' := word_eq_zero_iff.1 hre
    exact .inl ⟨by simp, hre, half_eq_zero_iff.2 (by simp only [setPhase_segrem]; omega), by simp⟩
  next hre =>
    have hre' := word_ne_zero_iff.1 hre
    split
    next hse =>
      have hse' := half_eq_zero_iff.1 hse
      have hz : s.zfinal = false := Bool.eq_false_iff.2 fun hz => by
        obtain ⟨-, hlast⟩ := hfinal.1 hz
        omega
      exact .inr ⟨hp, rowOwed_headed (by omega) hz (by rw [ceilDiv_block]; omega)⟩
    next hse =>
      have hse' := mt half_eq_zero_iff.2 hse
      refine .inr ⟨hp, by omega, by omega, by rw [ceilDiv_block]; omega, ?_⟩
      rw [hzfinal, hrowlast, hfinal]
      exact and_congr_right fun _ => by omega

/-! ### The other commands -/

/-- A row-open whose checks have passed (R172, R174). -/
theorem rowState_openRow {s : State} (last : Bool) {n : Word} (hz : s.zfinal = false) (hn : ¬ n.toNat = 0)
    (hfits : ¬ s.remain.toNat < n.toNat + 5 * ceilDiv n.toNat 65535) :
    RowState (setPhase .row (headed (beginRow last n s))) := by
  obtain ⟨hpos, hle, hfit, hfinal⟩ :=
    rowOwed_headed (s := beginRow last n s) (Nat.one_le_iff_ne_zero.2 hn) hz (not_lt.1 hfits)
  exact .inr ⟨rfl, hpos, hle, hfit, hfinal⟩

/-- A PUT command stays where it is: in a chunk, or in IDLE, where its bytes are raw (R135). -/
theorem rowState_put (bs : List Byte) {s : State} (hrow : RowState s) (hp : s.phase = .idle ∨ s.phase = .payload) :
    RowState (putEffect bs s) := by
  rcases hp with hp | hp
  · obtain ⟨hphase, hrowrem, hsegrem, hidle⟩ := rowShut_of_phase hrow hp (by decide)
    rw [putEffect_idle bs hp]
    exact .inl ⟨hphase, hrowrem, hsegrem, hidle⟩
  · obtain ⟨hphase, hrowrem, hsegrem, -⟩ := rowShut_of_phase hrow hp (by decide)
    obtain ⟨c, r, hw⟩ := putEffect_writes bs s
    rw [hw]
    exact .inl ⟨hphase, hrowrem, hsegrem, fun hi => by simp [hp] at hi⟩

/-- A command that ends inside a chunk, outside ROW, and leaves the row's counters. -/
theorem rowState_inChunk {s t : State} (h : RowShut s) (hp : t.phase = .tag ∨ t.phase = .payload ∨ t.phase = .zstream)
    (hr : t.rowrem = s.rowrem) (hs : t.segrem = s.segrem) : RowState t :=
  .inl ⟨by rcases hp with hp | hp | hp <;> simp [hp], hr.trans h.rowrem, hs.trans h.segrem,
    by rcases hp with hp | hp | hp <;> simp [hp]⟩

/-- Every command whose checks have passed leads from a state of the row to a state of the row. -/
theorem rowState_effect {i : Instr} {s : State} (hrow : RowState s) (hc : precheck i s = .none) :
    RowState (effect i s) := by
  obtain ⟨hphase, hrange, hlength⟩ := precheck_none_iff.1 hc
  cases i with
  | putByte x => exact rowState_put _ hrow (of_decide_eq_true hphase)
  | putBe32 v => exact rowState_put _ hrow (of_decide_eq_true hphase)
  | putLen16c v => exact rowState_put _ hrow (of_decide_eq_true hphase)
  | chunkOpen len =>
    exact rowState_inChunk (rowShut_of_phase hrow (of_decide_eq_true hphase) (by decide)) (.inl rfl) rfl rfl
  | chunkTag t0 t1 t2 t3 =>
    exact rowState_inChunk (rowShut_of_phase hrow (of_decide_eq_true hphase) (by decide)) (.inr (.inl rfl)) rfl rfl
  | chunkClose =>
    obtain ⟨-, hrowrem, hsegrem, -⟩ := rowShut_of_phase hrow (of_decide_eq_true hphase) (by decide)
    have hremain : s.remain.toNat = 0 := not_not.1 (of_decide_eq_false hlength)
    exact .inl ⟨by simp [effect], hrowrem, hsegrem, fun _ => word_eq_zero_iff.2 hremain⟩
  | zlibOpen =>
    exact rowState_inChunk (rowShut_of_phase hrow (of_decide_eq_true hphase) (by decide)) (.inr (.inr rfl)) rfl rfl
  | rowOpen n =>
    obtain ⟨-, hz⟩ := of_decide_eq_true hphase
    exact rowState_openRow false hz (of_decide_eq_false hrange) (of_decide_eq_false hlength)
  | rowOpenLast n =>
    obtain ⟨-, hz⟩ := of_decide_eq_true hphase
    exact rowState_openRow true hz (of_decide_eq_false hrange) (of_decide_eq_false hlength)
  | rowData x =>
    have hp : s.phase = .row := of_decide_eq_true hphase
    exact rowState_rowData x hp (rowOwed_of_phase hrow hp)
  | zlibClose =>
    obtain ⟨hp, -⟩ := of_decide_eq_true hphase
    exact rowState_inChunk (rowShut_of_phase hrow hp (by decide)) (.inr (.inl rfl)) rfl rfl
  | _ =>
    -- the checksum commands: in IDLE only, and they touch no counter
    obtain ⟨hp, hrowrem, hsegrem, hidle⟩ := rowShut_of_phase hrow (of_decide_eq_true hphase) (by decide)
    exact .inl ⟨hp, hrowrem, hsegrem, hidle⟩

/-! ### Every step -/

theorem inv_trapped {s : State} (h : Inv s) (h0 : s.fault = .none) (c : FaultCode) : Inv (trapped c s) := by
  have hio : s.fault ≠ .io := by simp [h0]
  exact ⟨fun _ => h.adlerRange hio, fun _ => h.segInRow hio, fun _ => h.rowFits hio, fun _ => h.noRowOpen hio,
    fun _ => h.finalSeen hio, fun _ => h.idleOwesNothing hio, h.pcInStream⟩

theorem inv_advancePc {s : State} (h : Inv s) (hpc : s.pc < s.prog.length) : Inv (advancePc s) :=
  ⟨h.adlerRange, h.segInRow, h.rowFits, h.noRowOpen, h.finalSeen, h.idleOwesNothing, hpc⟩

theorem inv_effect {i : Instr} {s : State} (h : Inv s) (h0 : s.fault = .none) (hc : precheck i s = .none) :
    Inv (effect i s) := by
  obtain ⟨hadler, hrow, hpc⟩ := (inv_iff (by simp [h0])).1 h
  refine (inv_iff (by simp [effect_fault, h0])).2 ⟨adlerInRange_effect i hadler, rowState_effect hrow hc, ?_⟩
  rwa [effect_pc, effect_prog]

/-- A live command of the stream keeps the invariant, whichever next state it answers. -/
theorem inv_exec {i : Instr} {s t : State} (h : Inv s) (h0 : s.fault = .none) (hpc : s.pc < s.prog.length)
    (he : exec i s = .next t) : Inv t := by
  rcases exec_next_cases he with ⟨hs, -⟩ | ⟨-, -, rfl⟩ | ⟨-, hc, -, rfl⟩ | ⟨-, -, k, -, -, hstop⟩
  · exact absurd h0 hs
  · exact inv_trapped h h0 _
  · exact inv_advancePc (inv_effect h h0 hc) (by rwa [effect_pc, effect_prog])
  · obtain ⟨hfault, -, hpc', hprog, -⟩ := hstop
    exact inv_of_io hfault (by rw [hpc', hprog]; exact hpc.le)

/-- Settles O49: a step that is not the identity raises ILLEGAL or executes a command of the stream. -/
theorem invariantKeptByStep : Obligations.InvariantKeptByStep := by
  intro s t h hstep
  rcases step_next_cases hstep with rfl | ⟨h0, rfl⟩ | ⟨i, h0, hpc, he⟩
  · exact h
  · exact inv_trapped h h0 _
  · exact inv_exec h h0 hpc he

/-- Under the invariant no command meets a counter at 0 (R118 (vii)): ROW_DATA alone could, and an open row owes what it
takes. -/
theorem exec_answers {s : State} (h : Inv s) (h0 : s.fault = .none) (i : Instr) : ∃ t, exec i s = .next t := by
  cases exec_cases i h0 with
  | trap _ he => exact ⟨_, he⟩
  | done _ _ _ he => exact ⟨_, he⟩
  | io _ _ t _ _ he => exact ⟨t, he⟩
  | stuck hc x hi hn =>
    obtain ⟨hphase, -⟩ := precheck_none_iff.1 hc
    obtain ⟨-, hrow, -⟩ := (inv_iff (by simp [h0])).1 h
    subst hi
    exact absurd (rowOwes_of_rowOwed (rowOwed_of_phase hrow (of_decide_eq_true hphase))) hn

/-- Settles O50: each branch of the step answers, the executed command by `exec_answers`. -/
theorem stepAlwaysAnswers : Obligations.StepAlwaysAnswers := by
  intro s h
  by_cases h0 : s.fault = .none
  · cases hf : fetch s with
    | none => exact ⟨s, step_unissued h0 hf⟩
    | some w =>
      cases hw : decode w with
      | none => exact ⟨_, step_illegal h0 hf hw⟩
      | some i =>
        rw [step_command h0 hf hw]
        exact exec_answers h h0 i
  · exact ⟨s, step_halted h0⟩

end Sys2Proof.Machine
end

section
/-!
The word of a command decodes to it, format by format, and the step runs the command that the word at `pc` decodes to.
-/

namespace Sys2Proof

theorem decodeN_zero (i : Instr) : decodeN 0#32 i = .ok i := rfl

theorem operandB_reserved (x : Byte) : (operandB x).extractLsb' 8 24 = 0#24 := by
  have := x.isLt
  apply BitVec.eq_of_toNat_eq
  rw [extract_toNat, operandB_toNat, BitVec.toNat_ofNat]
  omega

theorem byteOperand_operandB (x : Byte) : byteOperand (operandB x) = x := by
  have := x.isLt
  apply BitVec.eq_of_toNat_eq
  rw [byteOperand, extract_toNat, operandB_toNat]
  omega

theorem decodeB_operandB (x : Byte) (mk : Byte → Instr) : decodeB (operandB x) mk = .ok (mk x) := by
  rw [decodeB, if_pos (operandB_reserved x), byteOperand_operandB]

theorem operandT_toNat (t0 t1 t2 t3 : Byte) :
    (operandT t0 t1 t2 t3).toNat = ((t0.toNat * 256 + t1.toNat) * 256 + t2.toNat) * 256 + t3.toNat := by
  simp only [operandT, append_toNat]
  norm_num

/-- The first tag byte is the highest of the operand (R76). -/
theorem tagOperand_operandT (t0 t1 t2 t3 : Byte) :
    tagOperand (operandT t0 t1 t2 t3) 0 = t0 ∧ tagOperand (operandT t0 t1 t2 t3) 1 = t1 ∧
      tagOperand (operandT t0 t1 t2 t3) 2 = t2 ∧ tagOperand (operandT t0 t1 t2 t3) 3 = t3 := by
  have := t0.isLt
  have := t1.isLt
  have := t2.isLt
  have := t3.isLt
  refine ⟨?_, ?_, ?_, ?_⟩ <;> apply BitVec.eq_of_toNat_eq <;>
    · rw [tagOperand, extract_toNat, operandT_toNat]
      omega

theorem decodeT_operandT (t0 t1 t2 t3 : Byte) (mk : Byte → Byte → Byte → Byte → Instr) :
    decodeT (operandT t0 t1 t2 t3) mk = .ok (mk t0 t1 t2 t3) := by
  obtain ⟨h0, h1, h2, h3⟩ := tagOperand_operandT t0 t1 t2 t3
  rw [decodeT, h0, h1, h2, h3]

/-- The word of a command decodes to that command (R78, R89): its opcode selects the row, and the row's format reads the
operand back. -/
theorem decode_encode (i : Instr) : decode (encode i) = some i := by
  cases i <;>
    simp [decode, encode, decodeNamed, opcodeOf_assembleWord, operandOf_assembleWord, decodeN_zero, decodeB_operandB,
      decodeW, decodeT_operandT]

end Sys2Proof

namespace Sys2Proof.Machine

/-- Settles O7: the equations of the step's branches; a halted core ignores the word and the command alike. -/
theorem stepRunsTheDecodedCommand : Obligations.StepRunsTheDecodedCommand := by
  refine ⟨fun s w i hf hw => ?_, fun s w hf hw h0 => step_illegal h0 hf hw, fun s hf => ?_⟩
  · by_cases h0 : s.fault = .none
    · exact step_command h0 hf hw
    · rw [step_halted h0, exec_halted i h0]
  · by_cases h0 : s.fault = .none
    · exact step_unissued h0 hf
    · exact step_halted h0

end Sys2Proof.Machine
end

section
/-!
Inside a chunk (R56, R154). `SummedAndCounted` says what payload bytes do to `crc` and `remain`, and composes; each command
that may run inside a chunk sends its bytes by `sentPay`, ROW_DATA possibly in two parts.
-/

namespace Sys2Proof.Machine

/-- Inside a chunk, after its tag. -/
def InChunk (s : State) : Prop := s.phase = .payload ∨ s.phase = .zstream ∨ s.phase = .row

theorem inChunk_ne_idle {s : State} (h : InChunk s) : s.phase ≠ .idle := by
  rcases h with h | h | h <;> simp [h]

theorem inChunk_ne_tag {s : State} (h : InChunk s) : s.phase ≠ .tag := by
  rcases h with h | h | h <;> simp [h]

/-- From `s` to `t` exactly `bytes` have been fed to `crc` and counted against `remain` (R56). -/
def SummedAndCounted (bytes : List Byte) (s t : State) : Prop :=
  t.crc = crcRun s.crc bytes ∧ t.remain.toNat + bytes.length = s.remain.toNat

theorem summedAndCounted_sentPay {bytes : List Byte} {s : State} (h : bytes.length ≤ s.remain.toNat) :
    SummedAndCounted bytes s (sentPay bytes s) := by
  refine ⟨rfl, ?_⟩
  rw [sentPay_remain, toNat_sub_ofNat h, Nat.sub_add_cancel h]

theorem SummedAndCounted.append {bs cs : List Byte} {s t u : State} (h : SummedAndCounted bs s t)
    (h' : SummedAndCounted cs t u) : SummedAndCounted (bs ++ cs) s u := by
  obtain ⟨hcrc, hrem⟩ := h
  obtain ⟨hcrc', hrem'⟩ := h'
  refine ⟨by rw [hcrc', hcrc, crcRun_append], ?_⟩
  rw [List.length_append]
  omega

/-- The five bytes of a block header (R173). -/
theorem summedAndCounted_headed {s : State} (h : 5 ≤ s.remain.toNat) :
    SummedAndCounted (blockHeader (finalFlag s) (segLength s.rowrem.toNat)) s (headed s) :=
  summedAndCounted_sentPay h

/-- A row-open has checked that the chunk owes the row with all its headers, so it owes the first header. -/
theorem summedAndCounted_openRow {s : State} (last : Bool) {n : Word} (hn : ¬ n.toNat = 0)
    (hfits : ¬ s.remain.toNat < n.toNat + 5 * ceilDiv n.toNat 65535) :
    SummedAndCounted (blockHeader (finalFlag (beginRow last n s)) (segLength n.toNat)) s
      (setPhase .row (headed (beginRow last n s))) := by
  rw [ceilDiv_block] at hfits
  exact summedAndCounted_headed (s := beginRow last n s) (by rw [beginRow_remain]; omega)

/-- A PUT command that passes its checks inside a chunk does so in PAYLOAD, and the chunk owes its bytes (R135). -/
theorem summedAndCounted_putEffect {bytes : List Byte} {s : State} (hin : InChunk s)
    (hphase : s.phase = .idle ∨ s.phase = .payload) (hlength : ¬ (s.phase = .payload ∧ s.remain.toNat < bytes.length)) :
    SummedAndCounted bytes s (putEffect bytes s) ∧ InChunk (putEffect bytes s) := by
  have hp : s.phase = .payload := hphase.resolve_left (inChunk_ne_idle hin)
  rw [putEffect, if_neg (inChunk_ne_idle hin)]
  exact ⟨summedAndCounted_sentPay (not_lt.1 fun h => hlength ⟨hp, h⟩), .inl hp⟩

/-- The row byte itself, before the row or the block ends. -/
theorem summedAndCounted_rowByteTaken (x : Byte) {s : State} (h : 1 ≤ s.remain.toNat) :
    SummedAndCounted [x] s (rowByteTaken x s) :=
  summedAndCounted_sentPay (bytes := [x]) h

/-- The header a filled block is followed by is the one `seg_header` emits in the state after the row byte. -/
theorem blockHeader_rowByteTaken (x : Byte) {s : State} (hrow : 1 ≤ s.rowrem.toNat) (hseg : 1 ≤ s.segrem.toNat) :
    blockHeader (finalFlag (rowByteTaken x s)) (segLength (rowByteTaken x s).rowrem.toNat) = nextHeader s := by
  obtain ⟨hrow', -⟩ := rowByteTaken_counts (x := x) hseg hrow
  rw [nextHeader, finalFlag, hrow']
  rfl

/-- ROW_DATA: the row byte, and where it fills a block of a row that goes on, the next header after it (R175). -/
theorem summedAndCounted_rowDataEffect (x : Byte) {s : State} (hp : s.phase = .row) (hn : RowOwes (.rowData x) s) :
    SummedAndCounted (emittedBytes (.rowData x) s) s (rowDataEffect x s) ∧ InChunk (rowDataEffect x s) := by
  obtain ⟨hrow, hseg, howed⟩ := hn x rfl
  obtain ⟨hrow', hseg'⟩ := rowByteTaken_counts (x := x) hseg hrow
  have hbyte : SummedAndCounted [x] s (rowByteTaken x s) :=
    summedAndCounted_rowByteTaken x (le_trans (by simp [emittedBytes]) howed)
  have hone (h : ¬ (2 ≤ s.rowrem.toNat ∧ s.segrem.toNat = 1)) : emittedBytes (.rowData x) s = [x] := by
    rw [emittedBytes, if_neg h]
  simp only [rowDataEffect, word_eq_zero_iff, half_eq_zero_iff, hrow', hseg']
  split
  next hlast =>
    rw [hone (by omega)]
    exact ⟨hbyte, .inr (.inl rfl)⟩
  next hmore =>
    split
    next hfull =>
      rw [emittedBytes, if_pos (by omega), ← blockHeader_rowByteTaken x hrow hseg] at howed ⊢
      have hremain : 5 ≤ (rowByteTaken x s).remain.toNat := by
        obtain ⟨-, hcount⟩ := hbyte
        rw [List.length_cons, blockHeader_length] at howed
        rw [List.length_singleton] at hcount
        omega
      exact ⟨hbyte.append (summedAndCounted_headed hremain), .inr (.inr hp)⟩
    next hopen =>
      rw [hone (by omega)]
      exact ⟨hbyte, .inr (.inr hp)⟩

/-- Every command but CHUNK_CLOSE whose checks pass inside a chunk: its bytes are payload, and it stays inside. -/
theorem summedAndCounted_effect {i : Instr} {s : State} (hin : InChunk s) (hi : i ≠ .chunkClose)
    (hc : precheck i s = .none) (hn : RowOwes i s) :
    SummedAndCounted (emittedBytes i s) s (effect i s) ∧ InChunk (effect i s) := by
  obtain ⟨hphase, hrange, hlength⟩ := precheck_none_iff.1 hc
  cases i with
  | putByte x => exact summedAndCounted_putEffect hin (of_decide_eq_true hphase) (of_decide_eq_false hlength)
  | putBe32 v => exact summedAndCounted_putEffect hin (of_decide_eq_true hphase) (of_decide_eq_false hlength)
  | putLen16c v => exact summedAndCounted_putEffect hin (of_decide_eq_true hphase) (of_decide_eq_false hlength)
  | chunkClose => exact absurd rfl hi
  | zlibOpen =>
    have howed : [s.cfg.zhdr0, s.cfg.zhdr1].length ≤ (beginStream s).remain.toNat := not_lt.1 (of_decide_eq_false hlength)
    exact ⟨summedAndCounted_sentPay howed, .inr (.inl rfl)⟩
  | rowOpen n =>
    exact ⟨summedAndCounted_openRow false (of_decide_eq_false hrange) (of_decide_eq_false hlength), .inr (.inr rfl)⟩
  | rowOpenLast n =>
    exact ⟨summedAndCounted_openRow true (of_decide_eq_false hrange) (of_decide_eq_false hlength), .inr (.inr rfl)⟩
  | rowData x => exact summedAndCounted_rowDataEffect x (of_decide_eq_true hphase) hn
  | zlibClose =>
    have howed : (be32 (adlerPack (adlerOf s))).length ≤ s.remain.toNat := not_lt.1 (of_decide_eq_false hlength)
    exact ⟨summedAndCounted_sentPay howed, .inl rfl⟩
  | chunkTag t0 t1 t2 t3 => exact absurd (of_decide_eq_true hphase) (inChunk_ne_tag hin)
  | _ => exact absurd (of_decide_eq_true hphase) (inChunk_ne_idle hin) -- the checksum commands and CHUNK_OPEN

/-- A command that leaves no fault has passed its checks, owed what it needed, and had its effect. -/
theorem exec_completed {i : Instr} {s t : State} (h : exec i s = .next t) (ht : t.fault = .none) :
    precheck i s = .none ∧ RowOwes i s ∧ t = advancePc (effect i s) := by
  rcases exec_next_cases h with ⟨h0, rfl⟩ | ⟨-, hc, rfl⟩ | ⟨-, hc, hn, rfl⟩ | ⟨-, -, k, -, -, hfault, -⟩
  · exact absurd ht h0
  · exact absurd ht hc
  · exact ⟨hc, hn, rfl⟩
  · simp [hfault] at ht

/-- Settles O52: a command without a fault has had its effect, and that has summed and counted its bytes. -/
theorem payloadIsSummedAndCounted : Obligations.PayloadIsSummedAndCounted := by
  intro i s t _ hin hi h ht
  obtain ⟨hc, hn, rfl⟩ := exec_completed h ht
  obtain ⟨⟨hcrc, hremain⟩, hin'⟩ := summedAndCounted_effect hin hi hc hn
  exact ⟨exec_completed_out h ht, hcrc, hremain, hin'⟩

end Sys2Proof.Machine
end

section
/-!
The driver's issue of a list of commands (R200, R276). With every earlier command completed, the step after an issued word
executes that word's command; the three lemmas on `issueInOrder` are inductions on the commands over that one step.
-/

namespace Sys2Proof.Machine

/-- Issued one word at a time: the command of that word is executed, over the longer stream (R51, R276). -/
theorem step_issued {s : State} (h0 : s.fault = .none) (hpc : s.pc = s.prog.length) (i : Instr) :
    step (hostIssue (encode i) s) = exec i (hostIssue (encode i) s) :=
  step_hostIssue h0 hpc (decode_encode i)

/-- What the step after an issued word leaves of the stream and of `pc`: a command that completed did so in `s` as well,
and the next word will again be word number `pc`; a command that faulted is the one `pc` names. -/
theorem step_issued_next {s v : State} (h0 : s.fault = .none) (hpc : s.pc = s.prog.length) {i : Instr}
    (h : step (hostIssue (encode i) s) = .next v) :
    v.prog = s.prog ++ [encode i] ∧
      (v.fault = .none → v.pc = v.prog.length ∧ exec i s = .next { v with prog := s.prog }) ∧
      (v.fault ≠ .none → v.pc = s.pc) := by
  rw [step_issued h0 hpc] at h
  obtain ⟨hprog, -⟩ := exec_prog_cfg h
  obtain ⟨hdone, hfaulted⟩ := pcCountsCompletedCommands i (hostIssue (encode i) s) v h0 h
  refine ⟨hprog, fun hv => ⟨?_, exec_withProg h hv s.prog⟩, hfaulted⟩
  rw [hdone hv, hprog, hostIssue_prog, hostIssue_pc, hpc, List.length_append, List.length_singleton]

/-- The driver has issued every command, and every one has completed. -/
def AllCompleted (cmds : List Instr) (s t : State) : Prop :=
  t.fault = .none ∧ t.prog = s.prog ++ wordsOf cmds ∧ t.pc = t.prog.length

/-- The driver has issued `done`, which completed, and then `i`, which raised the fault (R200 (c)). -/
def StoppedAfter (done : List Instr) (i : Instr) (s t : State) : Prop :=
  t.fault ≠ .none ∧ t.prog = s.prog ++ wordsOf (done ++ [i]) ∧ t.pc + 1 = t.prog.length ∧
    ∃ u, execAll done s = .next u ∧ u.fault = .none ∧ t.pc = u.pc

/-- What issuing a list of commands can answer. -/
theorem issueInOrder_cases {cmds : List Instr} {s t : State} (h0 : s.fault = .none) (hpc : s.pc = s.prog.length)
    (h : issueInOrder (wordsOf cmds) s = .next t) :
    AllCompleted cmds s t ∨ ∃ done i rest, cmds = done ++ i :: rest ∧ StoppedAfter done i s t := by
  induction cmds generalizing s with
  | nil =>
    cases h
    exact .inl ⟨h0, by simp, hpc⟩
  | cons i rest ih =>
    rw [wordsOf_cons] at h
    cases hv : step (hostIssue (encode i) s) with
    | fault r => simp [issueInOrder, hv] at h
    | refused r => simp [issueInOrder, hv] at h
    | next v =>
      obtain ⟨hprog, hdone, hfaulted⟩ := step_issued_next h0 hpc hv
      by_cases hf : v.fault = .none
      · obtain ⟨hvpc, hexec⟩ := hdone hf
        rw [issueInOrder_goes hv hf] at h
        rcases ih hf hvpc h with ⟨ht, htprog, htpc⟩ | ⟨done, j, rest', rfl, ht, htprog, htpc, u, hu, huf, hupc⟩
        · exact .inl ⟨ht, by simp [htprog, hprog], htpc⟩
        · refine .inr ⟨i :: done, j, rest', rfl, ht, by simp [htprog, hprog], htpc, { u with prog := s.prog }, ?_, huf, hupc⟩
          rw [execAll, hexec]
          exact execAll_withProg hu huf s.prog
      · cases h.symm.trans (issueInOrder_stops hv hf)
        refine .inr ⟨[], i, rest, rfl, hf, hprog, ?_, s, rfl, h0, hfaulted hf⟩
        rw [hfaulted hf, hprog, hpc, List.length_append, List.length_singleton]

theorem inv_hostIssue {s : State} (h : Inv s) (w : CmdWord) : Inv (hostIssue w s) :=
  ⟨h.adlerRange, h.segInRow, h.rowFits, h.noRowOpen, h.finalSeen, h.idleOwesNothing, by
    have := h.pcInStream
    rw [hostIssue_pc, hostIssue_prog, List.length_append]
    omega⟩

/-- Under the invariant the driver always ends in a next state, whatever words it issues. -/
theorem issueInOrder_answers {s : State} (h : Inv s) (ws : List CmdWord) : ∃ t, issueInOrder ws s = .next t := by
  induction ws generalizing s with
  | nil => exact ⟨s, rfl⟩
  | cons w ws ih =>
    have hissued := inv_hostIssue h w
    obtain ⟨t, ht⟩ := stepAlwaysAnswers _ hissued
    by_cases hf : t.fault = .none
    · rw [issueInOrder_goes ht hf]
      exact ih (invariantKeptByStep _ _ hissued ht)
    · exact ⟨t, issueInOrder_stops ht hf⟩

/-- Commands that complete in order complete when they are issued one at a time. -/
theorem issueInOrder_completes {cmds : List Instr} {s u : State} (h0 : s.fault = .none) (hpc : s.pc = s.prog.length)
    (h : execAll cmds s = .next u) (hu : u.fault = .none) :
    issueInOrder (wordsOf cmds) s = .next { u with prog := s.prog ++ wordsOf cmds } := by
  induction cmds generalizing s u with
  | nil =>
    cases h
    simp
  | cons i rest ih =>
    obtain ⟨v, hv, hvf, hrest⟩ := execAll_cons_completes h hu
    have hstep : step (hostIssue (encode i) s) = .next { v with prog := s.prog ++ [encode i] } :=
      (step_issued h0 hpc i).trans (exec_withProg hv hvf _)
    obtain ⟨-, hdone, -⟩ := step_issued_next h0 hpc hstep
    obtain ⟨hvpc, -⟩ := hdone hvf
    rw [wordsOf_cons, issueInOrder_goes hstep hvf]
    have hissue := ih (s := { v with prog := s.prog ++ [encode i] }) hvf hvpc (execAll_withProg hrest hu _) hu
    simpa using hissue

/-- Settles O60: the three lemmas on `issueInOrder`; the number of commands issued is all of them, or those done and the
one that faulted. -/
theorem driverStopsAtFirstFault : Obligations.DriverStopsAtFirstFault := by
  refine ⟨fun _ => rfl, fun s t cmds h0 hpc h => ?_, fun s cmds h => ?_, fun s u cmds h0 hpc h hu => ?_⟩
  · rcases issueInOrder_cases h0 hpc (Option.some.inj h) with ⟨ht, hprog, htpc⟩ |
      ⟨done, i, rest, rfl, ht, hprog, htpc, hexec⟩
    · exact ⟨cmds.length, le_rfl, by rwa [List.take_length], fun _ => ⟨rfl, htpc⟩, fun hf => absurd ht hf⟩
    · have htake : (done ++ i :: rest).take (done.length + 1) = done ++ [i] := by simp [List.take_append]
      refine ⟨done.length + 1, by simp, by rw [htake, hprog], fun hf => absurd hf ht, fun _ => ⟨htpc, ?_⟩⟩
      rwa [Nat.add_sub_cancel, List.take_left]
  · obtain ⟨t, ht⟩ := issueInOrder_answers h (wordsOf cmds)
    exact ⟨t, congrArg some ht⟩
  · exact congrArg some (issueInOrder_completes h0 hpc h hu)

end Sys2Proof.Machine
end

section
/-!
The encoding as a bijection between commands and well-formed words (R78, R86, R87), and the opcode map. Each format's
reserved operand bits are zero exactly when the operand is one that the format writes; the decoder, `wellFormedWord` and the
masks of the map all test this, so each is tied to `encode` and not to the other two.
-/

namespace Sys2Proof

/-! ### Operands and words -/

/-- A word is its opcode and its operand (R70). -/
theorem assembleWord_fields (w : CmdWord) : assembleWord (opcodeOf w) (operandOf w) = w :=
  BitVec.extractLsb'_append_extractLsb' (len := 32) (w := 8)

/-- A 32-bit operand is its upper 24 bits and its byte (R74). -/
theorem operand_upper_append_byte (operand : Word) : operand.extractLsb' 8 24 ++ byteOperand operand = operand :=
  BitVec.extractLsb'_append_extractLsb' (len := 8) (w := 24)

/-- The format-B operands are those with no bit of operand[31:8] set. -/
theorem operandB_byteOperand {operand : Word} (h : operand.extractLsb' 8 24 = 0#24) :
    operandB (byteOperand operand) = operand := by
  conv_rhs => rw [← operand_upper_append_byte operand, h]
  apply BitVec.eq_of_toNat_eq
  rw [operandB_toNat, append_toNat, BitVec.toNat_ofNat, Nat.zero_mod, Nat.zero_mul, Nat.zero_add]

/-- Every operand is a format-T operand, that of its four bytes (R76). -/
theorem operandT_tagOperand (operand : Word) :
    operandT (tagOperand operand 0) (tagOperand operand 1) (tagOperand operand 2) (tagOperand operand 3) = operand := by
  have := operand.isLt
  apply BitVec.eq_of_toNat_eq
  rw [operandT_toNat]
  simp only [tagOperand, extract_toNat]
  omega

theorem reservedZero_n_iff {operand : Word} : Format.n.reservedZero operand = true ↔ operand = 0#32 := by
  rw [Format.reservedZero, beq_iff_eq]
  exact ⟨fun h => BitVec.eq_of_toNat_eq h, fun h => congrArg BitVec.toNat h⟩

theorem reservedZero_b_iff {operand : Word} :
    Format.b.reservedZero operand = true ↔ operand.extractLsb' 8 24 = 0#24 := by
  have := operand.isLt
  rw [Format.reservedZero, decide_eq_true_eq, ← BitVec.toNat_inj, extract_toNat, BitVec.toNat_ofNat]
  omega

/-! ### A word that decodes is the word of its command -/

section
variable {w : CmdWord} {k : Nat} {i : Instr} (hop : (opcodeOf w).toNat = k)
include hop

theorem assembleWord_operandOf : assembleWord (BitVec.ofNat 8 k) (operandOf w) = w := by
  rw [← hop, BitVec.ofNat_toNat, BitVec.setWidth_eq, assembleWord_fields]

theorem encode_formatN {j : Instr} (hj : encode j = assembleWord (BitVec.ofNat 8 k) 0) (hz : operandOf w = 0#32) :
    encode j = w := by
  rw [hj, ← assembleWord_operandOf hop, hz]
  rfl

theorem encode_formatB {mk : Byte → Instr} (hmk : ∀ x, encode (mk x) = assembleWord (BitVec.ofNat 8 k) (operandB x))
    (hz : (operandOf w).extractLsb' 8 24 = 0#24) : encode (mk (byteOperand (operandOf w))) = w := by
  rw [hmk, operandB_byteOperand hz, assembleWord_operandOf hop]

theorem encode_formatW {mk : Word → Instr} (hmk : ∀ v, encode (mk v) = assembleWord (BitVec.ofNat 8 k) v) :
    encode (mk (operandOf w)) = w := by
  rw [hmk, assembleWord_operandOf hop]

theorem encode_formatT {mk : Byte → Byte → Byte → Byte → Instr}
    (hmk : ∀ t0 t1 t2 t3, encode (mk t0 t1 t2 t3) = assembleWord (BitVec.ofNat 8 k) (operandT t0 t1 t2 t3)) :
    encode (mk (tagOperand (operandOf w) 0) (tagOperand (operandOf w) 1) (tagOperand (operandOf w) 2)
      (tagOperand (operandOf w) 3)) = w := by
  rw [hmk, operandT_tagOperand, assembleWord_operandOf hop]

theorem encode_of_decodeN {j : Instr} (hj : encode j = assembleWord (BitVec.ofNat 8 k) 0)
    (h : decodeN (operandOf w) j = .ok i) : encode i = w := by
  unfold decodeN at h
  split at h
  next hz =>
    cases h
    exact encode_formatN hop hj hz
  next => cases h

theorem encode_of_decodeB {mk : Byte → Instr} (hmk : ∀ x, encode (mk x) = assembleWord (BitVec.ofNat 8 k) (operandB x))
    (h : decodeB (operandOf w) mk = .ok i) : encode i = w := by
  unfold decodeB at h
  split at h
  next hz =>
    cases h
    exact encode_formatB hop hmk hz
  next => cases h

theorem encode_of_decodeW {mk : Word → Instr} (hmk : ∀ v, encode (mk v) = assembleWord (BitVec.ofNat 8 k) v)
    (h : decodeW (operandOf w) mk = .ok i) : encode i = w := by
  cases h
  exact encode_formatW hop hmk

theorem encode_of_decodeT {mk : Byte → Byte → Byte → Byte → Instr}
    (hmk : ∀ t0 t1 t2 t3, encode (mk t0 t1 t2 t3) = assembleWord (BitVec.ofNat 8 k) (operandT t0 t1 t2 t3))
    (h : decodeT (operandOf w) mk = .ok i) : encode i = w := by
  cases h
  exact encode_formatT hop hmk

end

theorem decodeNamed_of_decode {w : CmdWord} {i : Instr} (h : decode w = some i) : decodeNamed w = .ok i := by
  unfold decode at h
  split at h
  next heq => rw [heq, Option.some.inj h]
  next => cases h

/-- The decoder inverted, row by row: the opcode names the row, the row's format gives the operand back. -/
theorem encode_of_decode {w : CmdWord} {i : Instr} (h : decode w = some i) : encode i = w := by
  have hnamed := decodeNamed_of_decode h
  unfold decodeNamed at hnamed
  split at hnamed
  next hop => exact encode_of_decodeN hop rfl hnamed
  next hop => exact encode_of_decodeB hop (fun _ => rfl) hnamed
  next hop => exact encode_of_decodeN hop rfl hnamed
  next hop => exact encode_of_decodeN hop rfl hnamed
  next hop => exact encode_of_decodeB hop (fun _ => rfl) hnamed
  next hop => exact encode_of_decodeN hop rfl hnamed
  next hop => exact encode_of_decodeB hop (fun _ => rfl) hnamed
  next hop => exact encode_of_decodeW hop (fun _ => rfl) hnamed
  next hop => exact encode_of_decodeW hop (fun _ => rfl) hnamed
  next hop => exact encode_of_decodeW hop (fun _ => rfl) hnamed
  next hop => exact encode_of_decodeT hop (fun _ _ _ _ => rfl) hnamed
  next hop => exact encode_of_decodeN hop rfl hnamed
  next hop => exact encode_of_decodeN hop rfl hnamed
  next hop => exact encode_of_decodeW hop (fun _ => rfl) hnamed
  next hop => exact encode_of_decodeW hop (fun _ => rfl) hnamed
  next hop => exact encode_of_decodeB hop (fun _ => rfl) hnamed
  next hop => exact encode_of_decodeN hop rfl hnamed
  next => cases hnamed

/-! ### Every well-formed word is the word of a command -/

theorem format_of_wellFormed {w : CmdWord} (h : wellFormedWord w = true) :
    ∃ f, formatOf (opcodeOf w) = some f ∧ f.reservedZero (operandOf w) = true := by
  unfold wellFormedWord at h
  split at h
  next f hf => exact ⟨f, hf, h⟩
  next => cases h

/-- Each row of the map has a constructor, and that is onto the operands the row's format allows. -/
theorem exists_encode_of_wellFormed {w : CmdWord} (h : wellFormedWord w = true) : ∃ i, encode i = w := by
  obtain ⟨f, hf, hz⟩ := format_of_wellFormed h
  unfold formatOf at hf
  split at hf <;> cases hf
  next hop => exact ⟨.crcInit, encode_formatN hop rfl (reservedZero_n_iff.1 hz)⟩
  next hop => exact ⟨.crcByte _, encode_formatB hop (fun _ => rfl) (reservedZero_b_iff.1 hz)⟩
  next hop => exact ⟨.crcFinal, encode_formatN hop rfl (reservedZero_n_iff.1 hz)⟩
  next hop => exact ⟨.adlerInit, encode_formatN hop rfl (reservedZero_n_iff.1 hz)⟩
  next hop => exact ⟨.adlerByte _, encode_formatB hop (fun _ => rfl) (reservedZero_b_iff.1 hz)⟩
  next hop => exact ⟨.adlerFinal, encode_formatN hop rfl (reservedZero_n_iff.1 hz)⟩
  next hop => exact ⟨.putByte _, encode_formatB hop (fun _ => rfl) (reservedZero_b_iff.1 hz)⟩
  next hop => exact ⟨.putBe32 _, encode_formatW hop fun _ => rfl⟩
  next hop => exact ⟨.putLen16c _, encode_formatW hop fun _ => rfl⟩
  next hop => exact ⟨.chunkOpen _, encode_formatW hop fun _ => rfl⟩
  next hop => exact ⟨.chunkTag _ _ _ _, encode_formatT hop fun _ _ _ _ => rfl⟩
  next hop => exact ⟨.chunkClose, encode_formatN hop rfl (reservedZero_n_iff.1 hz)⟩
  next hop => exact ⟨.zlibOpen, encode_formatN hop rfl (reservedZero_n_iff.1 hz)⟩
  next hop => exact ⟨.rowOpen _, encode_formatW hop fun _ => rfl⟩
  next hop => exact ⟨.rowOpenLast _, encode_formatW hop fun _ => rfl⟩
  next hop => exact ⟨.rowData _, encode_formatB hop (fun _ => rfl) (reservedZero_b_iff.1 hz)⟩
  next hop => exact ⟨.zlibClose, encode_formatN hop rfl (reservedZero_n_iff.1 hz)⟩

theorem wellFormedWord_encode (i : Instr) : wellFormedWord (encode i) = true := by
  cases i with
  | crcInit => exact Laws.EncodeLegal.crcInit
  | crcByte x => exact Laws.EncodeLegal.crcByte x
  | crcFinal => exact Laws.EncodeLegal.crcFinal
  | adlerInit => exact Laws.EncodeLegal.adlerInit
  | adlerByte x => exact Laws.EncodeLegal.adlerByte x
  | adlerFinal => exact Laws.EncodeLegal.adlerFinal
  | putByte x => exact Laws.EncodeLegal.putByte x
  | putBe32 v => exact Laws.EncodeLegal.putBe32 v
  | putLen16c v => exact Laws.EncodeLegal.putLen16c v
  | chunkOpen len => exact Laws.EncodeLegal.chunkOpen len
  | chunkTag t0 t1 t2 t3 => exact Laws.EncodeLegal.chunkTag t0 t1 t2 t3
  | chunkClose => exact Laws.EncodeLegal.chunkClose
  | zlibOpen => exact Laws.EncodeLegal.zlibOpen
  | rowOpen n => exact Laws.EncodeLegal.rowOpen n
  | rowOpenLast n => exact Laws.EncodeLegal.rowOpenLast n
  | rowData x => exact Laws.EncodeLegal.rowData x
  | zlibClose => exact Laws.EncodeLegal.zlibClose

/-- The decoder accepts exactly the well-formed words (R86). -/
theorem decode_isSome_iff {w : CmdWord} : (∃ i, decode w = some i) ↔ wellFormedWord w = true := by
  constructor
  · rintro ⟨i, h⟩
    rw [← encode_of_decode h]
    exact wellFormedWord_encode i
  · intro h
    obtain ⟨i, rfl⟩ := exists_encode_of_wellFormed h
    exact ⟨i, decode_encode i⟩

/-! ### The opcode map -/

/-- The operand bits a format fixes (R78). -/
def Format.mask (f : Format) : Word :=
  match f with
  | .n => 0xFFFFFFFF
  | .b => 0xFFFFFF00
  | .w => 0
  | .t => 0

theorem reservedZero_iff_mask (f : Format) (operand : Word) :
    f.reservedZero operand = true ↔ operand &&& f.mask = 0#32 := by
  cases f with
  | n => rw [reservedZero_n_iff, Format.mask, show (0xFFFFFFFF : Word) = BitVec.allOnes 32 from rfl, BitVec.and_allOnes]
  | b =>
    have hmask : Format.b.mask = BitVec.allOnes 24 ++ 0#8 := rfl
    conv_rhs => rw [hmask, ← operand_upper_append_byte operand, BitVec.and_append, BitVec.and_allOnes, BitVec.and_zero]
    rw [reservedZero_b_iff, ← BitVec.toNat_inj, ← BitVec.toNat_inj, append_toNat]
    simp
  | w => simp [Format.reservedZero, Format.mask]
  | t => simp [Format.reservedZero, Format.mask]

theorem assembleWord_inj {op op' : Byte} {v v' : Word} : assembleWord op v = assembleWord op' v' ↔ op = op' ∧ v = v' := by
  constructor
  · intro h
    refine ⟨?_, ?_⟩
    · rw [← opcodeOf_assembleWord op v, h, opcodeOf_assembleWord]
    · rw [← operandOf_assembleWord op v, h, operandOf_assembleWord]
  · rintro ⟨rfl, rfl⟩
    rfl

theorem assembleWord_and (op op' : Byte) (v v' : Word) :
    assembleWord op v &&& assembleWord op' v' = assembleWord (op &&& op') (v &&& v') :=
  BitVec.and_append

/-- The opcode a row selects (R78). -/
def OpcodeRow.opcode (r : OpcodeRow) : Byte := opcodeOf r.matchBits

/-- Each row matches its opcode with a zero operand, under the mask of its opcode's format. -/
theorem opcodeRows_shape : ∀ r ∈ opcodeRows, r.matchBits = assembleWord r.opcode 0 ∧
    (formatOf r.opcode).map (fun f => assembleWord 0xFF f.mask) = some r.maskBits := by
  decide

/-- A row covers the well-formed words of its opcode. -/
theorem covers_iff {r : OpcodeRow} (hr : r ∈ opcodeRows) (w : CmdWord) :
    r.covers w = true ↔ opcodeOf w = r.opcode ∧ wellFormedWord w = true := by
  obtain ⟨hmatch, hmask⟩ := opcodeRows_shape r hr
  obtain ⟨f, hf, hmask⟩ := Option.map_eq_some_iff.1 hmask
  rw [OpcodeRow.covers, beq_iff_eq, ← hmask, hmatch, ← assembleWord_fields w, assembleWord_and, assembleWord_inj,
    opcodeOf_assembleWord, show (0xFF : Byte) = BitVec.allOnes 8 from rfl, BitVec.and_allOnes]
  refine and_congr_right fun hop => ?_
  rw [hop, wellFormedWord_assembleWord hf, reservedZero_iff_mask]
  rfl

/-- The mnemonics and the opcodes of the map name the commands alike. -/
theorem mnemonic_iff_opcode (i : Instr) :
    ∀ r ∈ opcodeRows, mnemonicOf i = r.mnemonic ↔ opcodeOf (encode i) = r.opcode := by
  cases i <;> simp only [mnemonicOf, encode, opcodeOf_assembleWord] <;> decide

theorem opcodeRows_opcode_inj : ∀ r ∈ opcodeRows, ∀ q ∈ opcodeRows, r.opcode = q.opcode → r = q := by decide

theorem mnemonicOf_mem (i : Instr) : ∃ r ∈ opcodeRows, mnemonicOf i = r.mnemonic := by
  cases i <;> simp [opcodeRows, mnemonicOf]

/-- The commands of a row are those the words it covers decode to. -/
theorem covers_iff_decode {r : OpcodeRow} (hr : r ∈ opcodeRows) (w : CmdWord) :
    r.covers w = true ↔ ∃ i, decode w = some i ∧ mnemonicOf i = r.mnemonic := by
  have hname {i : Instr} (h : decode w = some i) : mnemonicOf i = r.mnemonic ↔ opcodeOf w = r.opcode := by
    rw [mnemonic_iff_opcode i r hr, encode_of_decode h]
  rw [covers_iff hr, ← decode_isSome_iff]
  constructor
  · rintro ⟨hop, i, h⟩
    exact ⟨i, h, (hname h).2 hop⟩
  · rintro ⟨i, h, hm⟩
    exact ⟨(hname h).1 hm, i, h⟩

end Sys2Proof

namespace Sys2Proof.Machine

/-- The number of bytes of a command is one of its emits column (R78). -/
theorem emittedBytes_length_mem (i : Instr) (s : State) : (emittedBytes i s).length ∈ emitCounts i := by
  cases i with
  | rowData x =>
    rw [emittedBytes]
    split
    · exact List.mem_cons_of_mem _ (List.mem_singleton.2 rfl)
    · exact List.mem_cons_self
  | _ => exact List.mem_singleton.2 rfl

/-- Settles O2. -/
theorem decodeOfEncode : Obligations.DecodeOfEncode := decode_encode

/-- Settles O3. -/
theorem encodeOfDecode : Obligations.EncodeOfDecode := fun _ _ => encode_of_decode

/-- Settles O4: a row covers the words that decode to its commands; every command has a row; rows differ in the opcode. -/
theorem decoderIsTheOpcodeMap : Obligations.DecoderIsTheOpcodeMap := by
  refine ⟨fun w r hr => covers_iff_decode hr w, fun w hnone => ?_, fun w r q hr hq hcr hcq => ?_, fun i s t _ h ht => ?_⟩
  · refine Option.eq_none_iff_forall_ne_some.2 fun i h => ?_
    obtain ⟨r, hr, hm⟩ := mnemonicOf_mem i
    have hcovers := (covers_iff_decode hr w).2 ⟨i, h, hm⟩
    simp [hnone r hr] at hcovers
  · obtain ⟨hopr, -⟩ := (covers_iff hr w).1 hcr
    obtain ⟨hopq, -⟩ := (covers_iff hq w).1 hcq
    exact opcodeRows_opcode_inj r hr q hq (hopr.symm.trans hopq)
  · exact ⟨_, emittedBytes_length_mem i s, by rw [exec_completed_out h ht, List.length_append]⟩

/-- Settles O5: the decoder accepts the well-formed words alone, and the step of an illegal word is `step_illegal`. -/
theorem illegalWords : Obligations.IllegalWords := by
  refine ⟨fun w => ?_, fun s w h0 hf hw => step_illegal h0 hf hw, by decide, by decide, by decide, by decide, by decide⟩
  rw [← Bool.not_eq_true, ← decode_isSome_iff, ← Option.isSome_iff_exists, Bool.not_eq_true, Option.isSome_eq_false_iff,
    Option.isNone_iff_eq_none]

/-- Settles O1. -/
theorem listedWordsDecode : Obligations.ListedWordsDecode := by
  unfold Obligations.ListedWordsDecode
  decide

end Sys2Proof.Machine
end

section
/-!
The stored blocks of a row (R82, R177). `rowBytes` is what a row of one block, or a full block and a shorter row, is emitted
as; every fact about rows is an induction over these two cases.
-/

namespace Sys2Proof.Machine

theorem rowBytes_oneBlock (last : Bool) {row : List Byte} (h1 : 1 ≤ row.length) (h : row.length ≤ 65535) :
    rowBytes last row = storedBlock last row := by
  obtain ⟨k, hk⟩ : ∃ k, rowBlocks row.length = k + 1 := ⟨0, by rw [rowBlocks_eq]; omega⟩
  rw [rowBytes, hk, rowBlocksBytes, if_pos (by exact h)]

theorem rowBytes_fullBlock (last : Bool) {row : List Byte} (h : 65535 < row.length) :
    rowBytes last row = storedBlock false (row.take 65535) ++ rowBytes last (row.drop 65535) := by
  have hblocks : rowBlocks row.length = rowBlocks (row.drop 65535).length + 1 := by
    rw [rowBlocks_eq, rowBlocks_eq, List.length_drop]
    omega
  rw [rowBytes, hblocks, rowBlocksBytes, if_neg (by exact not_le.2 h)]
  rfl

theorem one_le_length_drop {row : List Byte} (h : 65535 < row.length) : 1 ≤ (row.drop 65535).length := by
  rw [List.length_drop]
  omega

/-- Induction on a non-empty row by its blocks. -/
theorem row_induction {P : (row : List Byte) → 1 ≤ row.length → Prop}
    (oneBlock : ∀ row h1, row.length ≤ 65535 → P row h1)
    (fullBlock : ∀ row h1 (h : 65535 < row.length), P (row.drop 65535) (one_le_length_drop h) → P row h1)
    (row : List Byte) (h1 : 1 ≤ row.length) : P row h1 := by
  by_cases h : row.length ≤ 65535
  · exact oneBlock row h1 h
  · exact fullBlock row h1 (not_le.1 h) (row_induction oneBlock fullBlock _ _)
termination_by row.length
decreasing_by
  rw [List.length_drop]
  omega

@[simp] theorem storedBlock_length (final : Bool) (data : List Byte) :
    (storedBlock final data).length = data.length + 5 := by
  rw [storedBlock, List.length_append, blockHeader_length, Nat.add_comm]

theorem rowBytes_length (last : Bool) (row : List Byte) (h : 1 ≤ row.length) :
    (rowBytes last row).length = row.length + 5 * ((row.length + 65534) / 65535) := by
  induction row, h using row_induction with
  | oneBlock row h1 h =>
    rw [rowBytes_oneBlock last h1 h, storedBlock_length]
    omega
  | fullBlock row _ h ih =>
    rw [rowBytes_fullBlock last h, List.length_append, storedBlock_length, ih, List.length_take, List.length_drop]
    omega

/-- What R177 says of the blocks a row is emitted as: full ones, then a last one that is not empty. -/
def EmittedAs (last : Bool) (row : List Byte) (full : List (List Byte)) (tail : List Byte) : Prop :=
  full.length + 1 = (row.length + 65534) / 65535 ∧ (∀ seg ∈ full, seg.length = 65535) ∧ 1 ≤ tail.length ∧
    tail.length ≤ 65535 ∧ row = full.flatten ++ tail ∧
    rowBytes last row = (full.map (storedBlock false)).flatten ++ storedBlock last tail

theorem exists_emittedAs (last : Bool) (row : List Byte) (h : 1 ≤ row.length) :
    ∃ full tail, EmittedAs last row full tail := by
  induction row, h using row_induction with
  | oneBlock row h1 h =>
    exact ⟨[], row, by rw [List.length_nil]; omega, by simp, h1, h, rfl, rowBytes_oneBlock last h1 h⟩
  | fullBlock row _ h ih =>
    obtain ⟨full, tail, hcount, hfull, htail, htail', hrow, hbytes⟩ := ih
    refine ⟨row.take 65535 :: full, tail, ?_, ?_, htail, htail', ?_, ?_⟩
    · rw [List.length_cons, hcount, List.length_drop]
      omega
    · rw [List.forall_mem_cons, List.length_take]
      exact ⟨by omega, hfull⟩
    · rw [List.flatten_cons, List.append_assoc, ← hrow, List.take_append_drop]
    · rw [rowBytes_fullBlock last h, hbytes, List.map_cons, List.flatten_cons, List.append_assoc]

/-- Settles O56. -/
theorem rowBlocksShape : Obligations.RowBlocksShape :=
  fun last row h => ⟨rowBytes_length last row h, exists_emittedAs last row h⟩

end Sys2Proof.Machine
end

section
/-!
The segmentation law (R177, R178). `restBytes` is what an open row still emits; a row-open leaves it all but the first
header, and each ROW_DATA takes from its front what the command emits, so one induction over the row's bytes runs the row.
-/

namespace Sys2Proof.Machine

/-! ### Lists of commands that complete -/

/-- A command whose checks pass, in a core whose sink accepts, completes. -/
theorem exec_completes {i : Instr} {s : State} (h0 : s.fault = .none) (hsink : SinkTakesAll s) (hc : precheck i s = .none)
    (hn : RowOwes i s) : exec i s = .next (advancePc (effect i s)) := by
  cases exec_cases i h0 with
  | trap hc' => exact absurd hc hc'
  | done _ _ _ h => exact h
  | io _ k t hk hf => exact absurd hf (sinkTakes_not_fails (hsink _) hk)
  | stuck _ x hi hn' => exact absurd hn hn'

theorem execAll_cons {i : Instr} {s t : State} (h : exec i s = .next t) (rest : List Instr) :
    execAll (i :: rest) s = execAll rest t := by
  rw [execAll, h]

theorem execAll_append {xs : List Instr} {s t : State} (h : execAll xs s = .next t) (ys : List Instr) :
    execAll (xs ++ ys) s = execAll ys t := by
  induction xs generalizing s with
  | nil =>
    cases h
    rfl
  | cons i rest ih =>
    rw [List.cons_append]
    rw [execAll] at h ⊢
    cases he : exec i s with
    | next u =>
      simp only [he] at h ⊢
      exact ih h
    | fault r => simp [he] at h
    | refused r => simp [he] at h

/-- Where the sink accepts every byte, it still does after a command's effect. -/
theorem sinkTakesAll_effect {i : Instr} {s : State} (h : SinkTakesAll s) (hn : RowOwes i s) :
    SinkTakesAll (advancePc (effect i s)) :=
  sinkTakesAll_of h (effect_cfg i s) ⟨emittedBytes i s, (effect_out i s hn).symm⟩

/-! ### What an open row still emits -/

/-- The bytes to come in a row whose open block still owes `seg` of the bytes `rest`. -/
def restBytes (last : Bool) (seg : Nat) (rest : List Byte) : List Byte :=
  rest.take seg ++ if seg < rest.length then rowBytes last (rest.drop seg) else []

/-- After the first header of a row the open block owes what that header says. -/
theorem rowBytes_eq_header (last : Bool) {row : List Byte} (h1 : 1 ≤ row.length) :
    rowBytes last row = blockHeader (last && decide (row.length ≤ 65535)) (segLength row.length) ++
      restBytes last (segLength row.length) row := by
  by_cases h : row.length ≤ 65535
  · rw [rowBytes_oneBlock last h1 h, storedBlock, restBytes, segLength, maxBlock, min_eq_left h, List.take_length,
      if_neg (lt_irrefl _), List.append_nil, decide_eq_true h, Bool.and_true]
  · rw [rowBytes_fullBlock last (not_le.1 h), storedBlock, restBytes, segLength, maxBlock, min_eq_right (not_le.1 h).le,
      if_pos (not_le.1 h), decide_eq_false h, Bool.and_false, List.length_take, min_eq_left (not_le.1 h).le,
      List.append_assoc]

theorem restBytes_last (last : Bool) (x : Byte) : restBytes last 1 [x] = [x] := rfl

/-- The byte that fills a block of a row that goes on (R175). -/
theorem restBytes_full (last : Bool) (x : Byte) {rest : List Byte} (h : 1 ≤ rest.length) :
    restBytes last 1 (x :: rest) = x :: rowBytes last rest := by
  rw [restBytes, if_pos (by rw [List.length_cons]; omega)]
  rfl

theorem restBytes_inside (last : Bool) (seg : Nat) (x : Byte) (rest : List Byte) :
    restBytes last (seg + 1) (x :: rest) = x :: restBytes last seg rest := by
  simp [restBytes]

/-! ### The data of a row -/

/-- What a whole run of row commands leaves: `bytes` sent as payload, `data` summed, no row open, `n` commands counted. -/
def rowsSent (last : Bool) (bytes data : List Byte) (n : Nat) (s : State) : State :=
  { s with
    out := s.out ++ bytes
    crc := crcRun s.crc bytes
    a := (adlerRun (adlerOf s) data).a
    b := (adlerRun (adlerOf s) data).b
    remain := s.remain - BitVec.ofNat 32 bytes.length
    rowrem := 0#32
    segrem := 0#16
    rowlast := last
    zfinal := last
    phase := .zstream
    pc := s.pc + n }

theorem sub_ofNat_add (c : Word) (m n : Nat) :
    c - BitVec.ofNat 32 (m + n) = c - BitVec.ofNat 32 m - BitVec.ofNat 32 n := by
  rw [BitVec.ofNat_add, ← BitVec.sub_sub]

/-- The two runs of row commands make one. -/
theorem rowsSent_rowsSent (last last' : Bool) (bs bs' ds ds' : List Byte) (m n : Nat) (s : State) :
    rowsSent last' bs' ds' n (rowsSent last bs ds m s) = rowsSent last' (bs ++ bs') (ds ++ ds') (m + n) s := by
  simp only [rowsSent, adlerOf, crcRun_append, adlerRun_append, List.append_assoc, List.length_append, sub_ofNat_add,
    Nat.add_assoc]

theorem rowDataEffect_last (x : Byte) {s : State} (h : s.rowrem.toNat = 1) (hseg : s.segrem.toNat = 1) :
    rowDataEffect x s = setPhase .zstream (rowByteTaken x s) := by
  obtain ⟨hrow', -⟩ := rowByteTaken_counts (x := x) hseg.ge h.ge
  exact if_pos (word_eq_zero_iff.2 (by omega))

theorem rowDataEffect_full (x : Byte) {s : State} (h : 2 ≤ s.rowrem.toNat) (hseg : s.segrem.toNat = 1) :
    rowDataEffect x s = headed (rowByteTaken x s) := by
  obtain ⟨hrow', hseg'⟩ := rowByteTaken_counts (x := x) hseg.ge (by omega)
  rw [rowDataEffect, if_neg (word_ne_zero_iff.2 (by omega)), if_pos (half_eq_zero_iff.2 (by omega))]

theorem rowDataEffect_inside (x : Byte) {s : State} (h : 2 ≤ s.rowrem.toNat) (hseg : 2 ≤ s.segrem.toNat) :
    rowDataEffect x s = rowByteTaken x s := by
  obtain ⟨hrow', hseg'⟩ := rowByteTaken_counts (x := x) (one_le_two.trans hseg) (one_le_two.trans h)
  have hrow : (rowByteTaken x s).rowrem ≠ 0#32 := word_ne_zero_iff.2 (by omega)
  have hblock : (rowByteTaken x s).segrem ≠ 0#16 := mt half_eq_zero_iff.1 (by omega)
  rw [rowDataEffect, if_neg hrow, if_neg hblock]

theorem rowsSent_advancePc (last : Bool) (bytes data : List Byte) (n : Nat) (s : State) :
    rowsSent last bytes data n (advancePc s) = rowsSent last bytes data (n + 1) s := by
  simp [rowsSent, adlerOf, Nat.add_assoc, Nat.add_comm 1 n]

/-- A row byte is the first of the bytes that the row sends, and of its data. -/
theorem rowsSent_rowByteTaken (last : Bool) (x : Byte) (bytes data : List Byte) (n : Nat) (s : State) :
    rowsSent last bytes data n (rowByteTaken x s) = rowsSent last (x :: bytes) (x :: data) n s := by
  simp [rowsSent, rowByteTaken, adlerOf, Nat.add_comm _ 1, sub_ofNat_add]

/-- A header is the first of the bytes that the row sends from there on, and no part of its data. -/
theorem rowsSent_headed {row : List Byte} {s : State} (h1 : 1 ≤ row.length) (hlen : s.rowrem.toNat = row.length) (n : Nat) :
    rowsSent s.rowlast (restBytes s.rowlast (headed s).segrem.toNat row) row n (headed s) =
      rowsSent s.rowlast (rowBytes s.rowlast row) row n s := by
  have hseg : (headed s).segrem.toNat = segLength row.length := by rw [headed_segrem, segLength_toNat, hlen]
  have hflag : finalFlag s = (s.rowlast && decide (row.length ≤ 65535)) := by rw [finalFlag, hlen, maxBlock]
  rw [hseg, rowBytes_eq_header s.rowlast h1, ← hflag, headed, hlen]
  simp [rowsSent, adlerOf, openBlock, sentPay, crcRun_append, sub_ofNat_add]

/-- After the last byte of a row `zfinal` is already what the row-open said (R40 (v)). -/
theorem rowsSent_last (x : Byte) {s : State} (hrow : RowOwed s) (hlast : s.rowrem.toNat = 1) :
    rowsSent s.rowlast [x] [x] 1 s = advancePc (setPhase .zstream (rowByteTaken x s)) := by
  have hpos := hrow.segPos
  have hle := hrow.segLe
  obtain ⟨hrow', hseg'⟩ := rowByteTaken_counts (x := x) hpos (by omega)
  have hrowrem : s.rowrem - 1#32 = 0#32 := word_eq_zero_iff.2 (hrow'.trans (by omega))
  have hsegrem : s.segrem - 1#16 = 0#16 := half_eq_zero_iff.2 (hseg'.trans (by omega))
  have hzfinal : s.zfinal = s.rowlast := Bool.eq_iff_iff.2 (hrow.final.trans (and_iff_left (by omega)))
  simp [rowsSent, rowByteTaken, adlerOf, advancePc, setPhase, countRow, setAdler, sentPay, hrowrem, hsegrem, hzfinal]

theorem rowOwed_advancePc {s : State} (h : RowOwed s) : RowOwed (advancePc s) := ⟨h.segPos, h.segLe, h.fits, h.final⟩

/-- The data of an open row (R175, R177), by induction on the bytes it still owes. -/
theorem execAll_rowData {row : List Byte} {s : State} (h0 : s.fault = .none) (hp : s.phase = .row) (hrow : RowOwed s)
    (hsink : SinkTakesAll s) (hlen : s.rowrem.toNat = row.length) :
    execAll (row.map .rowData) s =
      .next (rowsSent s.rowlast (restBytes s.rowlast s.segrem.toNat row) row row.length s) := by
  have hpos := hrow.segPos
  have hle := hrow.segLe
  induction row generalizing s with
  | nil =>
    rw [List.length_nil] at hlen
    omega
  | cons x rest ih =>
    rw [List.length_cons] at hlen
    have hn : RowOwes (.rowData x) s := rowOwes_of_rowOwed hrow
    have hexec : exec (.rowData x) s = .next (advancePc (rowDataEffect x s)) :=
      exec_completes h0 hsink (precheck_none_iff.2 ⟨decide_eq_true hp, rfl, rfl⟩) hn
    obtain ⟨hrow', -⟩ := rowByteTaken_counts (x := x) hpos (by omega)
    rw [List.map_cons, execAll_cons hexec, List.length_cons]
    by_cases hlast : s.rowrem.toNat = 1
    · obtain rfl : rest = [] := List.length_eq_zero_iff.1 (by omega)
      have hseg : s.segrem.toNat = 1 := by omega
      rw [List.map_nil, execAll, rowDataEffect_last x hlast hseg, hseg, restBytes_last, List.length_nil,
        rowsSent_last x hrow hlast]
    -- the row goes on: it is open after this byte, and the induction runs the rest
    have hgoes (hp' : (rowDataEffect x s).phase = .row) (hlen' : (rowDataEffect x s).rowrem.toNat = rest.length) :
        execAll (rest.map .rowData) (advancePc (rowDataEffect x s)) =
          .next (rowsSent s.rowlast (restBytes s.rowlast (rowDataEffect x s).segrem.toNat rest) rest (rest.length + 1)
            (rowDataEffect x s)) := by
      have hopen := rowOwed_of_phase (rowState_rowData x hp hrow) hp'
      obtain ⟨-, hrowlast, -⟩ := rowDataEffect_frame x s
      rw [ih (s := advancePc (rowDataEffect x s)) ((effect_fault (.rowData x) s).trans h0) hp' (rowOwed_advancePc hopen)
        (sinkTakesAll_effect (i := .rowData x) hsink hn) hlen' hopen.segPos hopen.segLe, rowsSent_advancePc,
        advancePc_rowlast, advancePc_segrem, hrowlast]
    by_cases hfull : s.segrem.toNat = 1
    · rw [rowDataEffect_full x (by omega) hfull] at hgoes ⊢
      have hrest : (rowByteTaken x s).rowrem.toNat = rest.length := by omega
      rw [hgoes hp hrest, hfull, restBytes_full _ x (by omega), ← rowsSent_rowByteTaken]
      exact congrArg _ (rowsSent_headed (by omega) hrest _)
    · obtain ⟨seg, hseg⟩ : ∃ seg, s.segrem.toNat = seg + 1 := ⟨s.segrem.toNat - 1, by omega⟩
      obtain ⟨-, hseg'⟩ := rowByteTaken_counts (x := x) hpos (by omega)
      rw [rowDataEffect_inside x (by omega) (by omega)] at hgoes ⊢
      rw [hgoes hp (by omega), rowsSent_rowByteTaken, hseg', hseg, Nat.add_sub_cancel, restBytes_inside]

/-! ### A whole row -/

/-- What a row-open leaves, before `pc` advances (R172, R174). -/
def rowOpened (last : Bool) (n : Word) (s : State) : State := setPhase .row (headed (beginRow last n s))

/-- A row-open whose checks pass; the two commands differ in `last` alone. -/
theorem exec_rowOpen (last : Bool) {n : Word} {s : State} (h0 : s.fault = .none) (hp : s.phase = .zstream)
    (hz : s.zfinal = false) (hsink : SinkTakesAll s) (hn : ¬ n.toNat = 0)
    (hfits : ¬ s.remain.toNat < n.toNat + 5 * ceilDiv n.toNat 65535) :
    exec (if last then .rowOpenLast n else .rowOpen n) s = .next (advancePc (rowOpened last n s)) := by
  have hphase : decide (s.phase = .zstream ∧ s.zfinal = false) = true := decide_eq_true ⟨hp, hz⟩
  have hrange : decide (n.toNat = 0) = false := decide_eq_false hn
  have hlength : decide (s.remain.toNat < n.toNat + 5 * ceilDiv n.toNat 65535) = false := decide_eq_false hfits
  cases last with
  | false => exact exec_completes h0 hsink (precheck_none_iff.2 ⟨hphase, hrange, hlength⟩) (rowOwes_of_ne (by simp))
  | true => exact exec_completes h0 hsink (precheck_none_iff.2 ⟨hphase, hrange, hlength⟩) (rowOwes_of_ne (by simp))

/-- One row, from a state before the final block that owes it with its headers (R177, R178). -/
theorem execAll_row (last : Bool) {row : List Byte} {s : State} (h0 : s.fault = .none) (hp : s.phase = .zstream)
    (hz : s.zfinal = false) (hsink : SinkTakesAll s) (h1 : 1 ≤ row.length) (hlen : row.length ≤ 4294967295)
    (hfits : row.length + 5 * ((row.length + 65534) / 65535) ≤ s.remain.toNat) :
    execAll (rowCommands last row) s = .next (rowsSent last (rowBytes last row) row (row.length + 1) s) := by
  obtain ⟨n, hdef, hn⟩ : ∃ n : Word, n = BitVec.ofNat 32 row.length ∧ n.toNat = row.length :=
    ⟨_, rfl, by rw [BitVec.toNat_ofNat, Nat.mod_eq_of_lt (by omega)]⟩
  have hpos : ¬ n.toNat = 0 := by omega
  have hfits' : ¬ s.remain.toNat < n.toNat + 5 * ceilDiv n.toNat 65535 := by
    rw [ceilDiv_block, hn]
    exact not_lt.2 hfits
  have hrow : RowOwed (rowOpened last n s) := rowOwed_of_phase (rowState_openRow last hz hpos hfits') rfl
  have hsink' : SinkTakesAll (advancePc (rowOpened last n s)) := sinkTakesAll_of hsink rfl ⟨_, rfl⟩
  rw [rowCommands, ← hdef, execAll_cons (exec_rowOpen last h0 hp hz hsink hpos hfits'),
    execAll_rowData (s := advancePc (rowOpened last n s)) h0 rfl (rowOwed_advancePc hrow) hsink' hn, rowsSent_advancePc]
  exact congrArg _ (rowsSent_headed (s := beginRow last n s) h1 hn _)

/-- The number `remain` spells after payload bytes it owed, as a register. -/
theorem sub_ofNat_eq {c : Word} {n : Nat} (h : n ≤ c.toNat) : c - BitVec.ofNat 32 n = BitVec.ofNat 32 (c.toNat - n) := by
  apply BitVec.eq_of_toNat_eq
  rw [toNat_sub_ofNat h, BitVec.toNat_ofNat, Nat.mod_eq_of_lt (by omega)]

/-- Settles O55: `execAll_row` with its registers written out. -/
theorem rowLaw : Obligations.RowLaw := by
  intro s last row h0 hp hz hsink h1 hlen hfits
  rw [execAll_row last h0 hp hz hsink h1 hlen hfits, rowsSent, hp, sub_ofNat_eq (by rwa [rowBytes_length last row h1])]
  rfl

end Sys2Proof.Machine
end

section
/-!
The stream law (R179): ZLIB_OPEN, the rows, ZLIB_CLOSE. The rows are run one after another by `execAll_row`; the three parts
of the stream are summed and counted as one.
-/

namespace Sys2Proof.Machine

/-- Every row of a stream has a length that ROW_OPEN takes (R172). -/
def RowsFit (rows : List (List Byte)) : Prop := ∀ row ∈ rows, 1 ≤ row.length ∧ row.length ≤ 4294967295

/-! ### The rows of a stream -/

theorem rowsBytes_cons (row : List Byte) {rest : List (List Byte)} (h : rest ≠ []) :
    rowsBytes (row :: rest) = rowBytes false row ++ rowsBytes rest := by
  cases rest with
  | nil => exact absurd rfl h
  | cons r rest => rfl

theorem rowsCommands_cons (row : List Byte) {rest : List (List Byte)} (h : rest ≠ []) :
    rowsCommands (row :: rest) = rowCommands false row ++ rowsCommands rest := by
  cases rest with
  | nil => exact absurd rfl h
  | cons r rest => rfl

@[simp] theorem rowCommands_length (last : Bool) (row : List Byte) :
    (rowCommands last row).length = row.length + 1 := by
  rw [rowCommands, List.length_cons, List.length_map]

/-- Induction on a non-empty list of rows: the last row, or a row before others. -/
theorem rows_induction {P : (rows : List (List Byte)) → rows ≠ [] → Prop}
    (last : ∀ row, P [row] (List.cons_ne_nil _ _))
    (more : ∀ row rest (h : rest ≠ []), P rest h → P (row :: rest) (List.cons_ne_nil _ _))
    (rows : List (List Byte)) (h : rows ≠ []) : P rows h := by
  induction rows with
  | nil => exact absurd rfl h
  | cons row rest ih =>
    by_cases hrest : rest = []
    · subst hrest
      exact last row
    · exact more row rest hrest (ih hrest)

theorem rowsCommands_length {rows : List (List Byte)} (h : rows ≠ []) :
    (rowsCommands rows).length = (rows.map fun row => row.length + 1).sum := by
  induction rows, h using rows_induction with
  | last row => rw [rowsCommands, rowCommands_length, List.map_singleton, List.sum_singleton]
  | more row rest hrest ih =>
    rw [rowsCommands_cons row hrest, List.length_append, rowCommands_length, ih, List.map_cons, List.sum_cons]

theorem rowsBytes_length {rows : List (List Byte)} (h : rows ≠ []) (hfit : RowsFit rows) :
    (rowsBytes rows).length = (rows.map fun row => row.length + 5 * ((row.length + 65534) / 65535)).sum := by
  induction rows, h using rows_induction with
  | last row =>
    obtain ⟨h1, -⟩ := hfit row (List.mem_singleton.2 rfl)
    rw [rowsBytes, rowBytes_length true row h1, List.map_singleton, List.sum_singleton]
  | more row rest hrest ih =>
    obtain ⟨⟨h1, -⟩, hfit'⟩ := List.forall_mem_cons.1 hfit
    rw [rowsBytes_cons row hrest, List.length_append, rowBytes_length false row h1, ih hfit', List.map_cons, List.sum_cons]

theorem zlibBytes_length (z0 z1 : Byte) {rows : List (List Byte)} (h : rows ≠ []) (hfit : RowsFit rows) :
    (zlibBytes z0 z1 rows).length =
      2 + (rows.map fun row => row.length + 5 * ((row.length + 65534) / 65535)).sum + 4 := by
  rw [zlibBytes, List.length_append, List.length_append, rowsBytes_length h hfit]
  rfl

/-- The rows of a stream, from a state before the final block that owes them with their headers. -/
theorem execAll_rows {rows : List (List Byte)} (hrows : rows ≠ []) {s : State} (h0 : s.fault = .none)
    (hp : s.phase = .zstream) (hz : s.zfinal = false) (hsink : SinkTakesAll s) (hfit : RowsFit rows)
    (hroom : (rowsBytes rows).length ≤ s.remain.toNat) :
    execAll (rowsCommands rows) s =
      .next (rowsSent true (rowsBytes rows) rows.flatten (rowsCommands rows).length s) := by
  induction rows, hrows using rows_induction generalizing s with
  | last row =>
    obtain ⟨h1, hlen⟩ := hfit row (List.mem_singleton.2 rfl)
    rw [rowsBytes, rowBytes_length true row h1] at hroom
    rw [rowsCommands, rowCommands_length, rowsBytes, List.flatten_singleton, execAll_row true h0 hp hz hsink h1 hlen hroom]
  | more row rest hrest ih =>
    obtain ⟨⟨h1, hlen⟩, hfit'⟩ := List.forall_mem_cons.1 hfit
    rw [rowsBytes_cons row hrest, List.length_append] at hroom
    have hrow := execAll_row false h0 hp hz hsink h1 hlen (by rw [← rowBytes_length false row h1]; omega)
    have hroom' : (rowsBytes rest).length ≤ (s.remain - BitVec.ofNat 32 (rowBytes false row).length).toNat := by
      rw [toNat_sub_ofNat (by omega)]
      omega
    have hsink' : SinkTakesAll (rowsSent false (rowBytes false row) row (row.length + 1) s) :=
      sinkTakesAll_of hsink rfl ⟨_, rfl⟩
    rw [rowsCommands_cons row hrest, execAll_append hrow, ih (s := rowsSent _ _ _ _ s) h0 rfl rfl hsink' hfit' hroom',
      rowsSent_rowsSent, rowsBytes_cons row hrest, List.flatten_cons, List.length_append, rowCommands_length]

/-! ### The whole stream -/

theorem summedAndCounted_rowsSent (last : Bool) {bytes : List Byte} (data : List Byte) (n : Nat) {s : State}
    (h : bytes.length ≤ s.remain.toNat) : SummedAndCounted bytes s (rowsSent last bytes data n s) :=
  summedAndCounted_sentPay h

theorem exec_zlibOpen {s : State} (h0 : s.fault = .none) (hp : s.phase = .payload) (hsink : SinkTakesAll s)
    (hroom : 2 ≤ s.remain.toNat) : exec .zlibOpen s = .next (advancePc (effect .zlibOpen s)) :=
  exec_completes h0 hsink (precheck_none_iff.2 ⟨decide_eq_true hp, rfl, decide_eq_false (not_lt.2 hroom)⟩)
    (rowOwes_of_ne (by simp))

theorem exec_zlibClose {s : State} (h0 : s.fault = .none) (hp : s.phase = .zstream) (hz : s.zfinal = true)
    (hsink : SinkTakesAll s) (hroom : 4 ≤ s.remain.toNat) :
    exec .zlibClose s = .next (advancePc (effect .zlibClose s)) :=
  exec_completes h0 hsink (precheck_none_iff.2 ⟨decide_eq_true ⟨hp, hz⟩, rfl, decide_eq_false (not_lt.2 hroom)⟩)
    (rowOwes_of_ne (by simp))

theorem summedAndCounted_zlibOpen {s : State} (h : 2 ≤ s.remain.toNat) :
    SummedAndCounted [s.cfg.zhdr0, s.cfg.zhdr1] s (advancePc (effect .zlibOpen s)) :=
  summedAndCounted_sentPay (s := beginStream s) (bytes := [s.cfg.zhdr0, s.cfg.zhdr1]) h

/-- What ZLIB_OPEN and the rows leave. -/
def rowsDone (rows : List (List Byte)) (s : State) : State :=
  rowsSent true (rowsBytes rows) rows.flatten (rowsCommands rows).length (advancePc (effect .zlibOpen s))

theorem rowsDone_out (rows : List (List Byte)) (s : State) :
    (rowsDone rows s).out = s.out ++ ([s.cfg.zhdr0, s.cfg.zhdr1] ++ rowsBytes rows) :=
  List.append_assoc _ _ _

theorem rowsDone_pc (rows : List (List Byte)) (s : State) :
    (rowsDone rows s).pc = s.pc + 1 + (rowsCommands rows).length := rfl

/-- The sums of the rows are those of their bytes from the seeds that ZLIB_OPEN writes (R171). -/
theorem rowsDone_adler (rows : List (List Byte)) (s : State) :
    adlerPack (adlerOf (rowsDone rows s)) = adler32 rows.flatten := rfl

theorem summedAndCounted_rowsDone {rows : List (List Byte)} {s : State} (h : 2 + (rowsBytes rows).length ≤ s.remain.toNat) :
    SummedAndCounted ([s.cfg.zhdr0, s.cfg.zhdr1] ++ rowsBytes rows) s (rowsDone rows s) := by
  have hopen := summedAndCounted_zlibOpen (s := s) (by omega)
  have hremain := hopen.2
  rw [List.length_cons, List.length_singleton] at hremain
  exact hopen.append (summedAndCounted_rowsSent true _ _ (by omega))

theorem execAll_zlibOpen_rows {rows : List (List Byte)} {s : State} (h0 : s.fault = .none) (hp : s.phase = .payload)
    (hsink : SinkTakesAll s) (hrows : rows ≠ []) (hfit : RowsFit rows)
    (hroom : 2 + (rowsBytes rows).length ≤ s.remain.toNat) :
    execAll (.zlibOpen :: rowsCommands rows) s = .next (rowsDone rows s) := by
  obtain ⟨-, hremain⟩ := summedAndCounted_zlibOpen (s := s) (by omega)
  rw [List.length_cons, List.length_singleton] at hremain
  rw [execAll_cons (exec_zlibOpen h0 hp hsink (by omega))]
  exact execAll_rows hrows h0 rfl rfl (sinkTakesAll_effect hsink (rowOwes_of_ne (by simp))) hfit (by omega)

/-- Settles O57: the trailer after `rowsDone`. -/
theorem streamLaw : Obligations.StreamLaw := by
  intro s rows h0 hp hsink hrows hfit hroom
  rw [← rowsBytes_length hrows hfit] at hroom
  have hrun := execAll_zlibOpen_rows h0 hp hsink hrows hfit (by omega)
  have hsum := summedAndCounted_rowsDone (rows := rows) (s := s) (by omega)
  have hremain := hsum.2
  rw [List.length_append, List.length_cons, List.length_singleton] at hremain
  have hsink' : SinkTakesAll (rowsDone rows s) := sinkTakesAll_of hsink rfl ⟨_, (rowsDone_out rows s).symm⟩
  have hclose := exec_zlibClose (s := rowsDone rows s) h0 rfl rfl hsink' (by omega)
  have htrailer : SummedAndCounted (be32 (adler32 rows.flatten)) (rowsDone rows s)
      (advancePc (effect .zlibClose (rowsDone rows s))) := by
    rw [← rowsDone_adler rows s]
    exact summedAndCounted_sentPay (by rw [be32_length]; omega)
  obtain ⟨hcrc, hcount⟩ := hsum.append htrailer
  refine ⟨advancePc (effect .zlibClose (rowsDone rows s)), ?_, h0, rfl, ?_, hcrc, hcount, ?_⟩
  · rw [streamCommands, execAll_append hrun, execAll_cons hclose, execAll]
  · rw [advancePc_out, effect_out _ _ (rowOwes_of_ne (by simp)), rowsDone_out, List.append_assoc]
    rfl
  · rw [advancePc_pc, effect_pc, rowsDone_pc, streamCommands, List.length_append, List.length_cons, List.length_singleton]
    omega

end Sys2Proof.Machine
end

section
/-!
The image (R203 to R213). `Live` is a core without a fault, in a given phase, whose sink accepts; `Pays` says of commands
inside a chunk, and `Appends` of commands outside, what they append. A chunk is appended by the commands that pay its
payload; the image is appended part by part.
-/

namespace Sys2Proof.Machine

/-- A core that stands in phase `p` without a fault, with parameters `c` and a sink that accepts every byte. -/
structure Live (c : Config) (p : Phase) (s : State) : Prop where
  fault : s.fault = .none
  phase : s.phase = p
  cfg : s.cfg = c
  sink : SinkTakesAll s

/-- A command that completes in a live core leaves it live, in the phase of its effect. -/
theorem live_completed {c : Config} {p p' : Phase} {s : State} {i : Instr} (h : Live c p s) (hi : ∀ x, i ≠ .rowData x)
    (hp : (effect i s).phase = p') : Live c p' (advancePc (effect i s)) :=
  ⟨(effect_fault i s).trans h.fault, hp, (effect_cfg i s).trans h.cfg, sinkTakesAll_effect h.sink (rowOwes_of_ne hi)⟩

/-! ### Payload -/

/-- Inside a chunk that owes `bytes`, the commands send exactly them as payload (R154). -/
def Pays (c : Config) (cmds : List Instr) (bytes : List Byte) : Prop :=
  ∀ s, Live c .payload s → bytes.length ≤ s.remain.toNat →
    ∃ t, execAll cmds s = .next t ∧ Live c .payload t ∧ t.out = s.out ++ bytes ∧ SummedAndCounted bytes s t

theorem pays_nil (c : Config) : Pays c [] [] := fun s h _ => ⟨s, rfl, h, (List.append_nil _).symm, rfl, rfl⟩

theorem Pays.append {c : Config} {xs ys : List Instr} {bs cs : List Byte} (hx : Pays c xs bs) (hy : Pays c ys cs) :
    Pays c (xs ++ ys) (bs ++ cs) := by
  intro s hs hroom
  rw [List.length_append] at hroom
  obtain ⟨t, hrun, ht, hout, hsum⟩ := hx s hs (by omega)
  have hremain := hsum.2
  obtain ⟨u, hrun', hu, hout', hsum'⟩ := hy t ht (by omega)
  exact ⟨u, by rw [execAll_append hrun, hrun'], hu, by rw [hout', hout, List.append_assoc], hsum.append hsum'⟩

/-- A PUT command of `bytes`: its checks, where there is room for them, and its effect (R135). -/
theorem pays_put (c : Config) {i : Instr} {bytes : List Byte} (hi : ∀ x, i ≠ .rowData x)
    (hphase : ∀ s : State, phaseAllows i s.phase s.zfinal = decide (s.phase = .idle ∨ s.phase = .payload))
    (hrange : rangeRefuses i = false)
    (hlength : ∀ s, lengthRefuses i s = decide (s.phase = .payload ∧ s.remain.toNat < bytes.length))
    (heffect : ∀ s, effect i s = putEffect bytes s) : Pays c [i] bytes := by
  intro s hs hroom
  have hc : precheck i s = .none :=
    precheck_none_iff.2 ⟨(hphase s).trans (decide_eq_true (.inr hs.phase)), hrange, by simp [hlength, hroom]⟩
  have hsent : effect i s = sentPay bytes s := by rw [heffect, putEffect, if_neg (by simp [hs.phase])]
  have hexec := exec_completes hs.fault hs.sink hc (rowOwes_of_ne hi)
  refine ⟨advancePc (effect i s), by rw [execAll_cons hexec, execAll], live_completed hs hi ?_, ?_, ?_⟩ <;> rw [hsent]
  · exact hs.phase
  · rfl
  · exact summedAndCounted_sentPay hroom

theorem pays_putByte (c : Config) (x : Byte) : Pays c [.putByte x] [x] :=
  pays_put c (by simp) (fun _ => rfl) rfl (fun _ => rfl) fun _ => rfl

theorem pays_putBe32 (c : Config) (v : Word) : Pays c [.putBe32 v] (be32 v) :=
  pays_put c (by simp) (fun _ => rfl) rfl (fun _ => rfl) fun _ => rfl

theorem pays_putBytes (c : Config) (bytes : List Byte) : Pays c (bytes.map .putByte) bytes := by
  induction bytes with
  | nil => exact pays_nil c
  | cons x rest ih => exact (pays_putByte c x).append ih

theorem execAll_cfg {cmds : List Instr} {s t : State} (h : execAll cmds s = .next t) : t.cfg = s.cfg := by
  induction cmds generalizing s with
  | nil =>
    cases h
    rfl
  | cons i rest ih =>
    rw [execAll] at h
    cases he : exec i s with
    | next u =>
      simp only [he] at h
      obtain ⟨-, hcfg⟩ := exec_prog_cfg he
      exact (ih h).trans hcfg
    | fault r => simp [he] at h
    | refused r => simp [he] at h

/-- The stream law as payload (R179). -/
theorem pays_stream (c : Config) {rows : List (List Byte)} (hrows : rows ≠ []) (hfit : RowsFit rows) :
    Pays c (streamCommands rows) (zlibBytes c.zhdr0 c.zhdr1 rows) := by
  rintro s ⟨h0, hp, rfl, hsink⟩ hroom
  rw [zlibBytes_length _ _ hrows hfit] at hroom
  obtain ⟨t, hrun, ht, htp, hout, hcrc, hremain, -⟩ := streamLaw s rows h0 hp hsink hrows hfit hroom
  have hcfg := execAll_cfg hrun
  exact ⟨t, hrun, ⟨ht, htp, hcfg, sinkTakesAll_of hsink hcfg ⟨_, hout.symm⟩⟩, hout, hcrc, hremain⟩

/-! ### Chunks -/

/-- The commands of a chunk with tag `tag` and `len` payload bytes that `cmds` pay (R203). -/
def chunkAround (tag : Tag) (len : Nat) (cmds : List Instr) : List Instr :=
  .chunkOpen (BitVec.ofNat 32 len) :: .chunkTag tag.t0 tag.t1 tag.t2 tag.t3 :: (cmds ++ [.chunkClose])

/-- The state in which the payload of a chunk begins (R151, R152). -/
def chunkBegun (tag : Tag) (len : Nat) (s : State) : State :=
  advancePc (effect (.chunkTag tag.t0 tag.t1 tag.t2 tag.t3) (advancePc (effect (.chunkOpen (BitVec.ofNat 32 len)) s)))

theorem execAll_chunkBegin {c : Config} {s : State} (hs : Live c .idle s) (tag : Tag) (len : Nat) (rest : List Instr) :
    execAll (.chunkOpen (BitVec.ofNat 32 len) :: .chunkTag tag.t0 tag.t1 tag.t2 tag.t3 :: rest) s =
      execAll rest (chunkBegun tag len s) := by
  have hopen := exec_completes hs.fault hs.sink (i := .chunkOpen (BitVec.ofNat 32 len))
    (precheck_none_iff.2 ⟨decide_eq_true hs.phase, rfl, rfl⟩) (rowOwes_of_ne (by simp))
  have hopened : Live c .tag (advancePc (effect (.chunkOpen (BitVec.ofNat 32 len)) s)) := live_completed hs (by simp) rfl
  have htag := exec_completes hopened.fault hopened.sink (i := .chunkTag tag.t0 tag.t1 tag.t2 tag.t3)
    (precheck_none_iff.2 ⟨decide_eq_true hopened.phase, rfl, rfl⟩) (rowOwes_of_ne (by simp))
  rw [execAll_cons hopen, execAll_cons htag, chunkBegun]

theorem live_chunkBegun {c : Config} {s : State} (hs : Live c .idle s) (tag : Tag) (len : Nat) :
    Live c .payload (chunkBegun tag len s) :=
  live_completed (live_completed hs (p' := .tag) (by simp) rfl) (by simp) rfl

theorem chunkBegun_out (tag : Tag) (len : Nat) (s : State) :
    (chunkBegun tag len s).out = s.out ++ be32 (BitVec.ofNat 32 len) ++ tag.bytes := rfl

theorem chunkBegun_crc (tag : Tag) (len : Nat) (s : State) : (chunkBegun tag len s).crc = crcRun crcSeed tag.bytes := rfl

theorem chunkBegun_remain (tag : Tag) {len : Nat} (h : len ≤ maxWord) (s : State) :
    (chunkBegun tag len s).remain.toNat = len := by
  show (BitVec.ofNat 32 len).toNat = len
  rw [BitVec.toNat_ofNat, Nat.mod_eq_of_lt (by rw [maxWord] at h; omega)]

/-- A chunk whose payload is paid (R155, R203). -/
theorem execAll_chunk {c : Config} {tag : Tag} {cmds : List Instr} {payload : List Byte} (hpays : Pays c cmds payload)
    (hlen : payload.length ≤ maxWord) {s : State} (hs : Live c .idle s) :
    ∃ t, execAll (chunkAround tag payload.length cmds) s = .next t ∧ Live c .idle t ∧
      t.out = s.out ++ chunkBytes tag payload ∧ t.remain = 0#32 ∧ t.crc = crcRun crcSeed (tag.bytes ++ payload) := by
  have hremain := chunkBegun_remain tag hlen s
  obtain ⟨u, hrun, hu, hout, hcrc, hcount⟩ := hpays _ (live_chunkBegun hs tag payload.length) hremain.ge
  have hzero : u.remain.toNat = 0 := by omega
  have hclose := exec_completes hu.fault hu.sink (i := .chunkClose)
    (precheck_none_iff.2 ⟨decide_eq_true hu.phase, rfl, decide_eq_false (not_not.2 hzero)⟩) (rowOwes_of_ne (by simp))
  rw [chunkBegun_crc, ← crcRun_append] at hcrc
  refine ⟨advancePc (effect .chunkClose u), ?_, live_completed hu (by simp) rfl, ?_, word_eq_zero_iff.2 hzero, hcrc⟩
  · rw [chunkAround, execAll_chunkBegin hs, execAll_append hrun, execAll_cons hclose, execAll]
  · rw [advancePc_out, effect_out _ _ (rowOwes_of_ne (by simp)), hout, chunkBegun_out, emittedBytes, hcrc]
    simp only [chunkBytes, crc32, crcFinalize, List.append_assoc]

/-! ### Between chunks -/

/-- Outside any chunk the commands append `bytes`. -/
def Appends (c : Config) (cmds : List Instr) (bytes : List Byte) : Prop :=
  ∀ s, Live c .idle s → ∃ t, execAll cmds s = .next t ∧ Live c .idle t ∧ t.out = s.out ++ bytes

theorem Appends.append {c : Config} {xs ys : List Instr} {bs cs : List Byte} (hx : Appends c xs bs)
    (hy : Appends c ys cs) : Appends c (xs ++ ys) (bs ++ cs) := by
  intro s hs
  obtain ⟨t, hrun, ht, hout⟩ := hx s hs
  obtain ⟨u, hrun', hu, hout'⟩ := hy t ht
  exact ⟨u, by rw [execAll_append hrun, hrun'], hu, by rw [hout', hout, List.append_assoc]⟩

theorem appends_putByte (c : Config) (x : Byte) : Appends c [.putByte x] [x] := by
  intro s hs
  have heffect : effect (.putByte x) s = sentRaw [x] s := putEffect_idle [x] hs.phase
  have hexec := exec_completes hs.fault hs.sink (i := .putByte x)
    (precheck_none_iff.2 ⟨decide_eq_true (.inl hs.phase), rfl, decide_eq_false (by simp [hs.phase])⟩)
    (rowOwes_of_ne (by simp))
  refine ⟨advancePc (effect (.putByte x) s), by rw [execAll_cons hexec, execAll], live_completed hs (by simp) ?_, ?_⟩ <;>
    rw [heffect]
  · exact hs.phase
  · rfl

theorem appends_putBytes (c : Config) (bytes : List Byte) : Appends c (bytes.map .putByte) bytes := by
  induction bytes with
  | nil => exact fun s hs => ⟨s, rfl, hs, (List.append_nil _).symm⟩
  | cons x rest ih => exact (appends_putByte c x).append ih

theorem appends_chunk {c : Config} (tag : Tag) {cmds : List Instr} {payload : List Byte} (hpays : Pays c cmds payload)
    (hlen : payload.length ≤ maxWord) : Appends c (chunkAround tag payload.length cmds) (chunkBytes tag payload) := by
  intro s hs
  obtain ⟨t, hrun, ht, hout, -⟩ := execAll_chunk hpays hlen hs
  exact ⟨t, hrun, ht, hout⟩

theorem appends_chunkCommands (c : Config) (tag : Tag) {payload : List Byte} (hlen : payload.length ≤ maxWord) :
    Appends c (chunkCommands tag payload) (chunkBytes tag payload) :=
  appends_chunk tag (pays_putBytes c payload) hlen

theorem ihdrPayload_length (width height : Nat) : (ihdrPayload width height).length = 13 := rfl

/-- The IHDR chunk (R210). -/
theorem appends_ihdr (c : Config) (width height : Nat) :
    Appends c (ihdrCommands width height) (chunkBytes tagIHDR (ihdrPayload width height)) := by
  have hpays : Pays c (.putBe32 (BitVec.ofNat 32 width) :: .putBe32 (BitVec.ofNat 32 height) ::
      [8, 6, 0, 0, 0].map .putByte) (ihdrPayload width height) :=
    ((pays_putBe32 c _).append (pays_putBe32 c _)).append (pays_putBytes c [8, 6, 0, 0, 0])
  have hlen := ihdrPayload_length width height
  have hchunk := appends_chunk tagIHDR hpays (hlen.trans_le (by decide))
  rw [hlen] at hchunk
  exact hchunk

/-! ### The raster -/

/-- The preconditions of the driver as propositions (R205, R208). -/
theorem accepted_iff {r : Raster} : r.accepted = true ↔
    1 ≤ r.width ∧ 1 ≤ r.height ∧ r.flat.length = 4 * r.width * r.height ∧ r.bytesPerRow ≤ maxWord ∧
      r.idatLength ≤ maxWord := by
  simp [Raster.accepted, Raster.contiguous, bytesPerPixel, and_assoc]

theorem pixel_length {r : Raster} (hflat : r.flat.length = 4 * r.width * r.height) {row col : Nat} (hrow : row < r.height)
    (hcol : col < r.width) : (r.pixel row col).length = 4 := by
  have hinside : row * r.width + col + 1 ≤ r.width * r.height :=
    calc row * r.width + col + 1 ≤ row * r.width + r.width := by omega
      _ = (row + 1) * r.width := (Nat.succ_mul row r.width).symm
      _ ≤ r.height * r.width := Nat.mul_le_mul_right _ hrow
      _ = r.width * r.height := Nat.mul_comm _ _
  rw [Raster.pixel, bytesPerPixel, List.length_take, List.length_drop, hflat, Nat.mul_assoc]
  omega

theorem rowBuffer_length {r : Raster} (hflat : r.flat.length = 4 * r.width * r.height) {row : Nat} (hrow : row < r.height) :
    (r.rowBuffer row).length = r.bytesPerRow := by
  have hpixels : ((List.range r.width).map fun col => (r.pixel row col).length) = List.replicate r.width 4 := by
    refine List.eq_replicate_iff.2 ⟨by simp, fun n hn => ?_⟩
    obtain ⟨col, hcol, rfl⟩ := List.mem_map.1 hn
    exact pixel_length hflat hrow (List.mem_range.1 hcol)
  rw [Raster.rowBuffer, List.length_cons, List.length_flatMap, hpixels, List.sum_replicate, Raster.bytesPerRow,
    bytesPerPixel, smul_eq_mul, Nat.mul_comm]

theorem rowBuffers_uniform {r : Raster} (hflat : r.flat.length = 4 * r.width * r.height) :
    ∀ row ∈ r.rowBuffers, row.length = r.bytesPerRow := by
  intro row hmem
  obtain ⟨k, hk, rfl⟩ := List.mem_map.1 hmem
  exact rowBuffer_length hflat (List.mem_range.1 hk)

theorem rowBuffers_length (r : Raster) : r.rowBuffers.length = r.height := by
  rw [Raster.rowBuffers, List.length_map, List.length_range]

/-- A sum over the rows of a raster of what depends on their length alone. -/
theorem rowBuffers_sum {r : Raster} (hflat : r.flat.length = 4 * r.width * r.height) (f : Nat → Nat) :
    (r.rowBuffers.map fun row => f row.length).sum = r.height * f r.bytesPerRow := by
  have hconst : (r.rowBuffers.map fun row => f row.length) = List.replicate r.height (f r.bytesPerRow) := by
    refine List.eq_replicate_iff.2 ⟨by rw [List.length_map, rowBuffers_length], fun n hn => ?_⟩
    obtain ⟨row, hrow, rfl⟩ := List.mem_map.1 hn
    rw [rowBuffers_uniform hflat row hrow]
  rw [hconst, List.sum_replicate, smul_eq_mul]

section
variable {r : Raster} (hr : r.accepted = true)
include hr

theorem rowBuffers_ne_nil : r.rowBuffers ≠ [] := by
  obtain ⟨-, hheight, -⟩ := accepted_iff.1 hr
  intro h
  have := rowBuffers_length r
  rw [h, List.length_nil] at this
  omega

theorem rowBuffers_fit : RowsFit r.rowBuffers := by
  obtain ⟨-, -, hflat, hbpr, -⟩ := accepted_iff.1 hr
  intro row hrow
  rw [rowBuffers_uniform hflat row hrow]
  exact ⟨Nat.le_add_left 1 _, hbpr⟩

/-- The payload of IDAT has the length that the driver declares (R204, R207). -/
theorem zlibBytes_rowBuffers_length (z0 z1 : Byte) : (zlibBytes z0 z1 r.rowBuffers).length = r.idatLength := by
  obtain ⟨-, -, hflat, -⟩ := accepted_iff.1 hr
  rw [zlibBytes_length z0 z1 (rowBuffers_ne_nil hr) (rowBuffers_fit hr),
    rowBuffers_sum hflat (fun n => n + 5 * ((n + 65534) / 65535)), Raster.idatLength, Raster.blocksPerRow, rowBlocks_eq,
    blockOverhead]

theorem idatCommands_length : (idatCommands r).length = 5 + r.height * (r.bytesPerRow + 1) := by
  obtain ⟨-, -, hflat, -⟩ := accepted_iff.1 hr
  have hrows := (rowsCommands_length (rowBuffers_ne_nil hr)).trans (rowBuffers_sum hflat (· + 1))
  simp only [idatCommands, streamCommands, List.length_append, List.length_cons, List.length_nil, hrows]
  omega

/-- The IDAT chunk (R206, R207). -/
theorem appends_idat (c : Config) : Appends c (idatCommands r) (idatBytes c.zhdr0 c.zhdr1 r) := by
  obtain ⟨-, -, -, -, hlen⟩ := accepted_iff.1 hr
  have hpayload := zlibBytes_rowBuffers_length hr c.zhdr0 c.zhdr1
  have hchunk := appends_chunk tagIDAT (pays_stream c (rowBuffers_ne_nil hr) (rowBuffers_fit hr)) (hpayload.trans_le hlen)
  rw [hpayload] at hchunk
  exact hchunk

theorem height_le_maxWord : r.height ≤ maxWord := by
  obtain ⟨-, -, -, -, hlen⟩ := accepted_iff.1 hr
  have hrow : 1 ≤ r.bytesPerRow + blockOverhead * r.blocksPerRow :=
    (Nat.le_add_left 1 (bytesPerPixel * r.width)).trans (Nat.le_add_right _ _)
  have := Nat.le_mul_of_pos_right r.height hrow
  rw [Raster.idatLength] at hlen
  omega

end

/-! ### The image -/

@[simp] theorem chunkBytes_length (tag : Tag) (payload : List Byte) :
    (chunkBytes tag payload).length = 12 + payload.length := by
  simp only [chunkBytes, Tag.bytes, List.length_append, be32_length, List.length_cons, List.length_nil]
  omega

@[simp] theorem chunkCommands_length (tag : Tag) (payload : List Byte) :
    (chunkCommands tag payload).length = 3 + payload.length := by
  simp only [chunkCommands, List.length_append, List.length_cons, List.length_map, List.length_nil]
  omega

theorem encodeCommands_length (k : Bkgd) {r : Raster} (hr : r.accepted = true) :
    (encodeCommands k r).length = 39 + r.height * (r.bytesPerRow + 1) := by
  simp only [encodeCommands, List.length_append, List.length_map, chunkCommands_length, idatCommands_length hr, signature,
    ihdrCommands, bkgdBytes, List.length_cons, List.length_nil]
  omega

theorem imageBytes_length (z0 z1 : Byte) (k : Bkgd) {r : Raster} (hr : r.accepted = true) :
    (imageBytes z0 z1 k r).length = 88 + r.idatLength := by
  simp only [imageBytes, idatBytes, List.length_append, chunkBytes_length, zlibBytes_rowBuffers_length hr, signature,
    ihdrPayload_length, bkgdBytes, List.length_cons, List.length_nil]
  omega

/-- All of the image but its last chunk (R209). -/
theorem appends_beforeIend (c : Config) (k : Bkgd) {r : Raster} (hr : r.accepted = true) :
    Appends c
      (signature.map .putByte ++ ihdrCommands r.width r.height ++ chunkCommands tagSRGB [0] ++
        chunkCommands tagBKGD (bkgdBytes k) ++ idatCommands r)
      (signature ++ chunkBytes tagIHDR (ihdrPayload r.width r.height) ++ chunkBytes tagSRGB [0] ++
        chunkBytes tagBKGD (bkgdBytes k) ++ idatBytes c.zhdr0 c.zhdr1 r) :=
  ((((appends_putBytes c signature).append (appends_ihdr c r.width r.height)).append
    (appends_chunkCommands c tagSRGB (by decide))).append
    (appends_chunkCommands c tagBKGD (payload := bkgdBytes k) (by show 6 ≤ maxWord; decide))).append (appends_idat hr c)

/-- The running state that the last chunk leaves (R213): IEND has no payload. -/
theorem crcRun_iend : crcRun crcSeed (tagIEND.bytes ++ []) = 0x51BD9F7D#32 := by decide

/-- Settles O59: the image before IEND, then IEND, whose running state is the same for every image. -/
theorem encodeMacroProducesTheImage : Obligations.EncodeMacroProducesTheImage := by
  intro s k r h0 hp hsink hr
  refine ⟨?_, encodeCommands_length k hr, imageBytes_length _ _ k hr, ?_⟩
  · rw [encodeMacro, hr, decide_eq_true (height_le_maxWord hr)]
    rfl
  · obtain ⟨t, hrun, ht, hout⟩ := appends_beforeIend s.cfg k hr s ⟨h0, hp, rfl, hsink⟩
    obtain ⟨u, hrun', hu, hout', hremain, hcrc⟩ := execAll_chunk (tag := tagIEND) (pays_nil s.cfg) (Nat.zero_le _) ht
    refine ⟨u, (execAll_append hrun _).trans hrun', hu.fault, hu.phase, hremain, hcrc.trans crcRun_iend, ?_⟩
    rw [hout', hout, List.append_assoc]
    rfl

end Sys2Proof.Machine
end

section
/-!
The CRC-32 engine (R101 to R103). The conditional shift is linear for exclusive-or, and on a state whose low bits are
zero it is the plain shift; so eight of them are the table's entry for the low byte and a shift of the rest.
-/

namespace Sys2Proof.Machine

/-- Settles O13: the 256 entries, each against the loop. -/
theorem tableIsDerived : Obligations.TableIsDerived := by
  unfold Obligations.TableIsDerived
  decide

/-- The conditional shift as a plain shift and a feedback that the low bit turns on. -/
theorem crcShift_eq (c : Word) : crcShift c = (c >>> 1) ^^^ (if c.getLsbD 0 then crcPoly else 0#32) := by
  rw [crcShift]
  split
  · rfl
  · rw [BitVec.xor_zero]

theorem crcShift_xor (c d : Word) : crcShift (c ^^^ d) = crcShift c ^^^ crcShift d := by
  have hfeedback (a b : Bool) : (if a ^^ b then crcPoly else 0#32) =
      (if a then crcPoly else 0#32) ^^^ (if b then crcPoly else 0#32) := by
    cases a <;> cases b <;> rfl
  simp only [crcShift_eq, BitVec.getLsbD_xor, hfeedback, BitVec.ushiftRight_xor_distrib]
  ac_rfl

theorem crcShifts_xor (n : Nat) (c d : Word) : crcShifts n (c ^^^ d) = crcShifts n c ^^^ crcShifts n d := by
  induction n generalizing c d with
  | zero => rfl
  | succ n ih => rw [crcShifts, crcShift_xor, ih, ← crcShifts, ← crcShifts]

/-- Where the `n` low bits are zero, the polynomial never enters. -/
theorem crcShifts_of_low_zero (n : Nat) {c : Word} (h : ∀ i < n, c.getLsbD i = false) : crcShifts n c = c >>> n := by
  induction n generalizing c with
  | zero => rw [crcShifts, BitVec.ushiftRight_zero]
  | succ n ih =>
    have hshift : crcShift c = c >>> 1 := by rw [crcShift, h 0 n.succ_pos, if_neg Bool.false_ne_true]
    rw [crcShifts, hshift, ih fun i hi => ?_, ← BitVec.shiftRight_add, Nat.add_comm]
    rw [BitVec.getLsbD_ushiftRight, h _ (by omega)]

/-- A byte is shifted out whole. -/
theorem byte_ushiftRight_eight (x : Byte) : (x.setWidth 32 : Word) >>> 8 = 0#32 := by
  have := x.isLt
  apply BitVec.eq_of_toNat_eq
  rw [BitVec.toNat_ushiftRight, BitVec.toNat_setWidth, Nat.shiftRight_eq_div_pow, BitVec.toNat_ofNat]
  omega

/-- Eight conditional shifts, by the table: the low byte meets the polynomial, the rest is shifted (R103). -/
theorem crcShifts_eight (c : Word) : crcShifts 8 c = tableEntry (c.setWidth 8) ^^^ (c >>> 8) := by
  have hrest : ∀ i < 8, (c ^^^ (c.setWidth 8).setWidth 32).getLsbD i = false := by
    intro i hi
    simp [hi, show i < 32 by omega]
  calc crcShifts 8 c
      = crcShifts 8 ((c.setWidth 8).setWidth 32 ^^^ (c ^^^ (c.setWidth 8).setWidth 32)) := by
        rw [BitVec.xor_comm c, ← BitVec.xor_assoc, BitVec.xor_self, BitVec.zero_xor]
    _ = derivedEntry (c.setWidth 8) ^^^ ((c ^^^ (c.setWidth 8).setWidth 32) >>> 8) := by
        rw [crcShifts_xor, crcShifts_of_low_zero 8 hrest, derivedEntry]
    _ = tableEntry (c.setWidth 8) ^^^ (c >>> 8) := by
        rw [BitVec.ushiftRight_xor_distrib, byte_ushiftRight_eight, BitVec.xor_zero, tableIsDerived]

theorem low_byte_xor (c : Word) (x : Byte) : (c ^^^ x.setWidth 32).setWidth 8 = c.setWidth 8 ^^^ x := by
  rw [BitVec.setWidth_xor, BitVec.setWidth_setWidth_of_le _ (by decide), BitVec.setWidth_eq]

/-- The table step of R103, with the low byte taken by truncation. -/
theorem crcStep_eq (c : Word) (x : Byte) : crcStep c x = tableEntry (c.setWidth 8 ^^^ x) ^^^ (c >>> 8) := by
  rw [crcStep, ← low_byte_xor, ← BitVec.setWidth_eq_extractLsb' (by decide)]

theorem crcStep_eq_crcShifts (c : Word) (x : Byte) : crcStep c x = crcShifts 8 (c ^^^ x.setWidth 32) := by
  rw [crcShifts_eight, BitVec.ushiftRight_xor_distrib, byte_ushiftRight_eight, BitVec.xor_zero, low_byte_xor,
    crcStep_eq]

/-- Settles O14: both formulas of R103 and its examples. -/
theorem crcStepWithoutTable : Obligations.CrcStepWithoutTable :=
  ⟨crcStep_eq, crcStep_eq_crcShifts, by decide, by decide, by decide, by decide, by decide, by decide⟩

end Sys2Proof.Machine
end

section
/-!
The Adler-32 engine (R111, R112, R116). A step is said on natural numbers modulo 65521; the closed form of the two sums
is an induction over the bytes with congruences, for every pair of sums to begin with.
-/

namespace Sys2Proof.Machine

theorem adlerStep_a_toNat (p : AdlerPair) (x : Byte) : (adlerStep p x).a.toNat = (p.a.toNat + x.toNat) % 65521 :=
  Nat.mod_eq_of_lt ((Nat.mod_lt _ (by decide)).trans (by decide))

theorem adlerStep_b_toNat (p : AdlerPair) (x : Byte) :
    (adlerStep p x).b.toNat = (p.b.toNat + (adlerStep p x).a.toNat) % 65521 := by
  rw [adlerStep_a_toNat]
  exact Nat.mod_eq_of_lt ((Nat.mod_lt _ (by decide)).trans (by decide))

theorem adlerStep_a_modEq (p : AdlerPair) (x : Byte) : (adlerStep p x).a.toNat ≡ p.a.toNat + x.toNat [MOD 65521] := by
  rw [adlerStep_a_toNat]
  exact Nat.mod_modEq _ _

theorem adlerStep_b_modEq (p : AdlerPair) (x : Byte) :
    (adlerStep p x).b.toNat ≡ p.b.toNat + (p.a.toNat + x.toNat) [MOD 65521] := by
  rw [adlerStep_b_toNat]
  exact (Nat.mod_modEq _ _).trans ((adlerStep_a_modEq p x).add_left _)

/-- Settles O16: the values and their range are those of every step; with the sums in range nothing wraps. -/
theorem adlerStepInRange : Obligations.AdlerStepInRange := by
  intro a b x ha hb
  have := x.isLt
  obtain ⟨hlow, hhigh⟩ := adlerStep_range ⟨a, b⟩ x
  exact ⟨adlerStep_a_toNat _ x, adlerStep_b_toNat _ x, hlow, hhigh, by omega, by omega, by decide, by decide⟩

theorem adlerRun_range {p : AdlerPair} (bytes : List Byte) (ha : p.a.toNat ≤ 65520) (hb : p.b.toNat ≤ 65520) :
    (adlerRun p bytes).a.toNat ≤ 65520 ∧ (adlerRun p bytes).b.toNat ≤ 65520 := by
  induction bytes generalizing p with
  | nil => exact ⟨ha, hb⟩
  | cons x rest ih =>
    obtain ⟨ha', hb'⟩ := adlerStep_range p x
    exact ih ha' hb'

/-- The bytes, each weighted by how many are left with it (R116). -/
def weightedSum (bytes : List Byte) : Nat :=
  ((List.range bytes.length).map fun k => (bytes.length - k) * (bytes.getD k 0#8).toNat).sum

theorem weightedSum_cons (x : Byte) (rest : List Byte) :
    weightedSum (x :: rest) = (rest.length + 1) * x.toNat + weightedSum rest := by
  simp [weightedSum, List.range_succ_eq_map, Function.comp_def]

/-- The low sum after any bytes, from any pair of sums. -/
theorem adlerRun_a_modEq (p : AdlerPair) (bytes : List Byte) :
    (adlerRun p bytes).a.toNat ≡ p.a.toNat + (bytes.map BitVec.toNat).sum [MOD 65521] := by
  induction bytes generalizing p with
  | nil => exact Nat.ModEq.refl _
  | cons x rest ih =>
    rw [adlerRun_cons, List.map_cons, List.sum_cons, ← Nat.add_assoc]
    exact (ih _).trans ((adlerStep_a_modEq p x).add_right _)

/-- The high sum after any bytes, from any pair of sums: each step adds the low sum once more. -/
theorem adlerRun_b_modEq (p : AdlerPair) (bytes : List Byte) :
    (adlerRun p bytes).b.toNat ≡ p.b.toNat + bytes.length * p.a.toNat + weightedSum bytes [MOD 65521] := by
  induction bytes generalizing p with
  | nil => simp [weightedSum, Nat.ModEq.refl]
  | cons x rest ih =>
    rw [adlerRun_cons, weightedSum_cons, List.length_cons]
    calc (adlerRun (adlerStep p x) rest).b.toNat
        ≡ (adlerStep p x).b.toNat + rest.length * (adlerStep p x).a.toNat + weightedSum rest [MOD 65521] := ih _
      _ ≡ p.b.toNat + (p.a.toNat + x.toNat) + rest.length * (p.a.toNat + x.toNat) + weightedSum rest [MOD 65521] :=
        ((adlerStep_b_modEq p x).add ((adlerStep_a_modEq p x).mul_left _)).add_right _
      _ = p.b.toNat + (rest.length + 1) * p.a.toNat + ((rest.length + 1) * x.toNat + weightedSum rest) := by ring

/-- Packed sums in range do not overlap (R115). -/
theorem adlerPack_toNat {p : AdlerPair} (ha : p.a.toNat ≤ 65520) (hb : p.b.toNat ≤ 65520) :
    (adlerPack p).toNat = 65536 * p.b.toNat + p.a.toNat := by
  have hshift : (p.b.toNat <<< 16) % 2 ^ 32 = p.b.toNat <<< 16 :=
    Nat.mod_eq_of_lt (by rw [Nat.shiftLeft_eq]; omega)
  rw [adlerPack, BitVec.toNat_or, BitVec.toNat_shiftLeft, hshift,
    ← Nat.shiftLeft_add_eq_or_of_lt (show p.a.toNat < 2 ^ 16 by omega), Nat.shiftLeft_eq, Nat.mul_comm]

end Sys2Proof.Machine
end

section
/-!
The direct checksum commands (R104 to R107, R113 to R115). All six have one flow, the IDLE check and then the command's
effect, so their answers are said once; likewise the words of the formats N and B.
-/

namespace Sys2Proof

/-- A word of a format-N opcode with an operand is illegal (R73). -/
theorem needsZeroOperand {opcode : Byte} (h : formatOf opcode = some .n) : NeedsZeroOperand opcode := by
  intro operand hoperand
  obtain ⟨hillegal, -⟩ := Machine.illegalWords
  refine (hillegal _).2 ((wellFormedWord_assembleWord h operand).trans ?_)
  rw [← Bool.not_eq_true, reservedZero_n_iff]
  exact hoperand

/-- A word of a format-B opcode with an operand above a byte is illegal (R74). -/
theorem needsByteOperand {opcode : Byte} (h : formatOf opcode = some .b) : NeedsByteOperand opcode := by
  intro operand hoperand
  obtain ⟨hillegal, -⟩ := Machine.illegalWords
  exact (hillegal _).2 ((wellFormedWord_assembleWord h operand).trans (decide_eq_false (not_lt.2 hoperand)))

/-- The word of a format-B command, field by field (R74). -/
theorem assembleWord_operandB (opcode x : Byte) : assembleWord opcode (operandB x) = opcode ++ 0#24 ++ x := by
  apply BitVec.eq_of_toNat_eq
  rw [assembleWord, append_toNat, operandB_toNat, append_toNat, append_toNat, BitVec.toNat_ofNat]
  omega

end Sys2Proof

namespace Sys2Proof.Machine

/-- The flow of the direct checksum commands: legal in IDLE only, then the effect, with nothing emitted (R104). -/
def DirectChecksum (i : Instr) : Prop :=
  ∀ s, exec i s = command s fun s => (check (inIdle s) .phase s).andThen fun s => .go (effect i s)

theorem directChecksum_crcInit : DirectChecksum .crcInit := fun _ => rfl
theorem directChecksum_crcByte (x : Byte) : DirectChecksum (.crcByte x) := fun _ => rfl
theorem directChecksum_crcFinal : DirectChecksum .crcFinal := fun _ => rfl
theorem directChecksum_adlerInit : DirectChecksum .adlerInit := fun _ => rfl
theorem directChecksum_adlerByte (x : Byte) : DirectChecksum (.adlerByte x) := fun _ => rfl
theorem directChecksum_adlerFinal : DirectChecksum .adlerFinal := fun _ => rfl

theorem DirectChecksum.exec_idle {i : Instr} (hi : DirectChecksum i) {s : State} (h0 : s.fault = .none)
    (hp : s.phase = .idle) : exec i s = .next (advancePc (effect i s)) := by
  rw [hi, command_live h0, inIdle, decide_eq_true hp, check_true, andThen_go, finish_go]

theorem DirectChecksum.exec_not_idle {i : Instr} (hi : DirectChecksum i) {s : State} (h0 : s.fault = .none)
    (hp : s.phase ≠ .idle) : exec i s = .next { s with fault := .phase } := by
  rw [hi, command_live h0, inIdle, decide_eq_false hp, check_false, raise_phase, andThen_raised, finish_raised, trapped]

/-- Settles O19. -/
theorem crcInitCommand : Obligations.CrcInitCommand :=
  ⟨rfl, decode_encode .crcInit, needsZeroOperand rfl, fun _ => directChecksum_crcInit.exec_idle,
    fun _ => directChecksum_crcInit.exec_not_idle⟩

/-- Settles O20. -/
theorem crcByteCommand : Obligations.CrcByteCommand :=
  ⟨fun x => ⟨assembleWord_operandB _ x, assembleWord_operandB 0x11 x ▸ decode_encode (.crcByte x)⟩,
    needsByteOperand rfl,
    fun _ x => (directChecksum_crcByte x).exec_idle, by decide, by decide,
    fun _ x => (directChecksum_crcByte x).exec_not_idle⟩

/-- Settles O21. -/
theorem crcFinalCommand : Obligations.CrcFinalCommand :=
  ⟨rfl, decode_encode .crcFinal, needsZeroOperand rfl, fun _ => directChecksum_crcFinal.exec_idle,
    fun _ => directChecksum_crcFinal.exec_not_idle⟩

/-- Settles O22. -/
theorem adlerInitCommand : Obligations.AdlerInitCommand :=
  ⟨rfl, decode_encode .adlerInit, needsZeroOperand rfl, fun _ => directChecksum_adlerInit.exec_idle,
    fun _ => directChecksum_adlerInit.exec_not_idle⟩

/-- Settles O23: the effect is `adlerStep`, whose sums are the numbers of R112. -/
theorem adlerByteCommand : Obligations.AdlerByteCommand :=
  ⟨fun x => ⟨assembleWord_operandB _ x, assembleWord_operandB 0x21 x ▸ decode_encode (.adlerByte x)⟩,
    needsByteOperand rfl,
    fun _ x h0 hp _ _ => (directChecksum_adlerByte x).exec_idle h0 hp,
    fun _ x => (directChecksum_adlerByte x).exec_not_idle⟩

/-- Settles O24. -/
theorem adlerFinalCommand : Obligations.AdlerFinalCommand :=
  ⟨rfl, decode_encode .adlerFinal, needsZeroOperand rfl, fun _ => directChecksum_adlerFinal.exec_idle,
    fun s => adlerPack_toNat (p := adlerOf s), fun _ => directChecksum_adlerFinal.exec_not_idle⟩

end Sys2Proof.Machine
end

section
/-!
The checksum of a byte sequence (R108, R116, R201, R202): an INIT, the bytes one command each, a FINAL. The commands of
the bytes run the engine over them, by induction; the two ends are put on after.
-/

namespace Sys2Proof.Machine

theorem execAll_crcBytes (bytes : List Byte) {s : State} (h0 : s.fault = .none) (hp : s.phase = .idle) :
    execAll (bytes.map .crcByte) s =
      .next { s with crc := crcRun s.crc bytes, pc := s.pc + bytes.length } := by
  induction bytes generalizing s with
  | nil => rfl
  | cons x rest ih =>
    rw [List.map_cons, execAll_cons ((directChecksum_crcByte x).exec_idle h0 hp), ih (by exact h0) (by exact hp),
      List.length_cons, Nat.add_comm rest.length, ← Nat.add_assoc]
    rfl

theorem execAll_adlerBytes (bytes : List Byte) {s : State} (h0 : s.fault = .none) (hp : s.phase = .idle) :
    execAll (bytes.map .adlerByte) s =
      .next (setAdler (adlerRun (adlerOf s) bytes) { s with pc := s.pc + bytes.length }) := by
  induction bytes generalizing s with
  | nil => rfl
  | cons x rest ih =>
    rw [List.map_cons, execAll_cons ((directChecksum_adlerByte x).exec_idle h0 hp), ih (by exact h0) (by exact hp),
      List.length_cons, Nat.add_comm rest.length, ← Nat.add_assoc]
    rfl

/-- The command list of CRC32 leaves the running state in `crc` and the checksum in `result` (R108). -/
theorem execAll_crc32Macro (bytes : List Byte) {s : State} (h0 : s.fault = .none) (hp : s.phase = .idle) :
    execAll (crc32Macro bytes) s =
      .next { s with crc := crcRun crcSeed bytes, result := crc32 bytes, pc := s.pc + bytes.length + 2 } := by
  rw [crc32Macro, List.cons_append, execAll_cons (directChecksum_crcInit.exec_idle h0 hp),
    execAll_append (execAll_crcBytes bytes (by exact h0) (by exact hp)),
    execAll_cons (directChecksum_crcFinal.exec_idle (by exact h0) (by exact hp)), execAll,
    show s.pc + bytes.length + 2 = s.pc + 1 + bytes.length + 1 by omega]
  rfl

/-- The command list of ADLER32 leaves the sums in `a` and `b` and the checksum in `result` (R116, R202). -/
theorem execAll_adler32Macro (bytes : List Byte) {s : State} (h0 : s.fault = .none) (hp : s.phase = .idle) :
    execAll (adler32Macro bytes) s =
      .next (setAdler (adlerRun adlerSeed bytes)
        { s with result := adler32 bytes, pc := s.pc + bytes.length + 2 }) := by
  rw [adler32Macro, List.cons_append, execAll_cons (directChecksum_adlerInit.exec_idle h0 hp),
    execAll_append (execAll_adlerBytes bytes (by exact h0) (by exact hp)),
    execAll_cons (directChecksum_adlerFinal.exec_idle (by exact h0) (by exact hp)), execAll,
    show s.pc + bytes.length + 2 = s.pc + 1 + bytes.length + 1 by omega]
  rfl

theorem crc32Macro_length (bytes : List Byte) : (crc32Macro bytes).length = bytes.length + 2 := by
  simp [crc32Macro]

/-- Settles O15. -/
theorem crc32OfByteSequence : Obligations.Crc32OfByteSequence :=
  ⟨fun _ bytes => execAll_crc32Macro bytes, crc32Macro_length, by decide, by decide, fun _ => rfl, crcRun_nil,
    crcRun_cons, crcRun_append⟩

/-- Settles O18: from the seeds (1, 0), whose sums stay in range, the congruences are the closed forms. -/
theorem adlerClosedForm : Obligations.AdlerClosedForm := by
  refine ⟨adlerRun_nil, adlerRun_cons, adlerRun_append,
    fun s bytes h0 hp => ⟨_, execAll_adler32Macro bytes h0 hp, rfl⟩, fun bytes => ?_⟩
  have ha := adlerRun_a_modEq ⟨1#32, 0#32⟩ bytes
  have hb := adlerRun_b_modEq ⟨1#32, 0#32⟩ bytes
  obtain ⟨hlow, hhigh⟩ := adlerRun_range (p := ⟨1#32, 0#32⟩) bytes (by decide) (by decide)
  refine ⟨?_, ?_, adlerPack_toNat hlow hhigh⟩
  · exact (Nat.mod_eq_of_lt (by omega)).symm.trans ha
  · refine (Nat.mod_eq_of_lt (by omega)).symm.trans (hb.trans ?_)
    simp [weightedSum, Nat.ModEq]

end Sys2Proof.Machine
end

section
/-!
The byte sequences of R80 and R81 as numbers, and how they read back (R134): each byte is a base-256 digit, and subtracting
a byte from 255 does not wrap.
-/

namespace Sys2Proof.Machine

theorem complement_toNat (x : Byte) : (255 - x).toNat = 255 - x.toNat :=
  BitVec.toNat_sub_of_le (Nat.le_of_lt_succ x.isLt)

/-- The bytes of `BE32` are the base-256 digits, most significant first (R80). -/
theorem be32_toNat (v : Word) : (be32 v).map BitVec.toNat =
    [v.toNat / 256 ^ 3 % 256, v.toNat / 256 ^ 2 % 256, v.toNat / 256 % 256, v.toNat % 256] := by
  simp only [be32, List.map_cons, List.map_nil, extract_toNat]
  norm_num

/-- The bytes of `LEN16C` are the two digits, least significant first, and their complements (R81). -/
theorem len16c_toNat (v : Half) : (len16c v).map BitVec.toNat =
    [v.toNat % 256, v.toNat / 256 % 256, 255 - v.toNat % 256, 255 - v.toNat / 256 % 256] := by
  simp only [len16c, List.map_cons, List.map_nil, complement_toNat, extract_toNat]
  norm_num

theorem be32_readBack {v : Word} {s0 s1 s2 s3 : Byte} (h : be32 v = [s0, s1, s2, s3]) :
    256 ^ 3 * s0.toNat + 256 ^ 2 * s1.toNat + 256 * s2.toNat + s3.toNat = v.toNat := by
  have hdigits := be32_toNat v
  simp only [h, List.map_cons, List.map_nil, List.cons.injEq] at hdigits
  have := v.isLt
  omega

theorem len16c_readBack {v : Half} {s0 s1 s2 s3 : Byte} (h : len16c v = [s0, s1, s2, s3]) :
    s0.toNat + 256 * s1.toNat = v.toNat ∧ s0.toNat + s2.toNat = 255 ∧ s1.toNat + s3.toNat = 255 := by
  have hdigits := len16c_toNat v
  simp only [h, List.map_cons, List.map_nil, List.cons.injEq] at hdigits
  have := v.isLt
  omega

/-- Settles O6. -/
theorem serializedBytes : Obligations.SerializedBytes :=
  ⟨be32_toNat, len16c_toNat, by decide, by decide, by decide, by decide, fun _ _ _ _ _ => be32_readBack,
    fun _ _ _ _ _ => len16c_readBack⟩

end Sys2Proof.Machine
end

section
/-!
The PUT commands (R131 to R133, R135). What a live command answers is decided by `precheck` and the sink; the three PUT
commands have one `precheck` and one effect, that of `put`, so what R135 says of them is proved once.
-/

namespace Sys2Proof.Machine

/-! ### A live command by its checks -/

/-- A check before emission that fails is answered by its precise fault (R239, R241). -/
theorem exec_trapped {i : Instr} {s : State} {c : FaultCode} (h0 : s.fault = .none) (hc : precheck i s = c)
    (hne : c ≠ .none) : exec i s = .next { s with fault := c } := by
  subst hc
  cases exec_cases i h0 with
  | trap _ h => exact h
  | done hc | io hc | stuck hc => exact absurd hc hne

/-- A command whose checks pass emits its bytes and has its effect, or is stopped by the sink (R62, R242). -/
theorem exec_emitsOrStops {i : Instr} {s : State} (h0 : s.fault = .none) (hc : precheck i s = .none) (hn : RowOwes i s) :
    EmitsOrStops i s (emittedBytes i s) (advancePc (effect i s)) := by
  cases exec_cases i h0 with
  | trap hc' => exact absurd hc hc'
  | done _ hsink _ h => exact ⟨fun _ => h, fun k hk hfail => absurd hfail (sinkTakes_not_fails hsink hk)⟩
  | io _ k t hk hfail h hstop =>
    refine ⟨fun hsink => absurd hfail (sinkTakes_not_fails hsink hk), fun j _ hfail' => ?_⟩
    cases sinkFailsAt_unique hfail' hfail
    exact ⟨t, h, hstop⟩
  | stuck _ x hi hn' => exact absurd hn hn'

/-! ### The commands that put a byte sequence -/

/-- The checks, the bytes and the effect of a command whose pseudocode ends in `put(bytes)` and that passes RANGE (R135). -/
structure IsPut (i : Instr) (bytes : List Byte) : Prop where
  notRowData : ∀ x, i ≠ .rowData x
  phase : ∀ s, phaseAllows i s.phase s.zfinal = mayPut s
  range : rangeRefuses i = false
  length : ∀ s, lengthRefuses i s = decide (s.phase = .payload ∧ s.remain.toNat < bytes.length)
  emits : ∀ s, emittedBytes i s = bytes
  effect : ∀ s, effect i s = putEffect bytes s

section
variable {i : Instr} {bytes : List Byte} (hput : IsPut i bytes) {s : State}
include hput

/-- In IDLE, and in PAYLOAD where the chunk owes the bytes, every check passes. -/
theorem IsPut.emitsOrStops (h0 : s.fault = .none)
    (hp : s.phase = .idle ∨ (s.phase = .payload ∧ bytes.length ≤ s.remain.toNat)) :
    EmitsOrStops i s bytes (advancePc (putEffect bytes s)) := by
  have hmay : s.phase = .idle ∨ s.phase = .payload := hp.imp_right And.left
  have hroom : ¬ (s.phase = .payload ∧ s.remain.toNat < bytes.length) := by
    rintro ⟨hpay, hlow⟩
    rcases hp with hidle | ⟨-, hroom⟩
    · simp [hidle] at hpay
    · omega
  have hc : precheck i s = .none := precheck_none_iff.2
    ⟨(hput.phase s).trans (decide_eq_true hmay), hput.range, (hput.length s).trans (decide_eq_false hroom)⟩
  rw [← hput.effect s, ← hput.emits s]
  exact exec_emitsOrStops h0 hc (rowOwes_of_ne hput.notRowData)

theorem IsPut.exec_length (h0 : s.fault = .none) (hp : s.phase = .payload) (hlow : s.remain.toNat < bytes.length) :
    exec i s = .next { s with fault := .length } :=
  exec_trapped h0 (precheck_length_iff.2
    ⟨(hput.phase s).trans (decide_eq_true (.inr hp)), hput.range, (hput.length s).trans (decide_eq_true ⟨hp, hlow⟩)⟩)
    (by decide)

/-- What R135 says of a PUT command follows from its checks, its bytes and its effect. -/
theorem IsPut.putsBytes : PutsBytes i bytes := by
  refine ⟨fun s h0 hp => ?_, fun s h0 hp hroom => ?_, fun s => hput.exec_length, fun s h0 hidle hpay => ?_⟩
  · have h := hput.emitsOrStops h0 (.inl hp)
    rwa [putEffect_idle bytes hp] at h
  · have h := hput.emitsOrStops h0 (.inr ⟨hp, hroom⟩)
    rwa [putEffect, if_neg (by simp [hp]), sentPay, sub_ofNat_eq hroom] at h
  · exact exec_trapped h0 (precheck_phase_iff.2 ((hput.phase s).trans (decide_eq_false (not_or.2 ⟨hidle, hpay⟩))))
      (by decide)

end

theorem isPut_putByte (x : Byte) : IsPut (.putByte x) [x] :=
  ⟨by simp, fun _ => rfl, rfl, fun _ => rfl, fun _ => rfl, fun _ => rfl⟩

theorem isPut_putBe32 (v : Word) : IsPut (.putBe32 v) (be32 v) :=
  ⟨by simp, fun _ => rfl, rfl, fun _ => rfl, fun _ => rfl, fun _ => rfl⟩

/-- PUT_LEN16C is a `put` where its operand passes RANGE (R133). -/
theorem isPut_putLen16c {v : Word} (hv : v.toNat ≤ 65535) : IsPut (.putLen16c v) (len16c (v.setWidth 16)) :=
  ⟨by simp, fun _ => rfl, decide_eq_false (not_lt.2 hv), fun _ => rfl, fun _ => rfl, fun _ => rfl⟩

/-- Both bytes of the length are bytes of the 32-bit operand (R133). -/
theorem len16c_setWidth (v : Word) : len16c (v.setWidth 16) =
    [v.extractLsb' 0 8, v.extractLsb' 8 8, 255#8 - v.extractLsb' 0 8, 255#8 - v.extractLsb' 8 8] := by
  rw [len16c, BitVec.extractLsb'_setWidth_of_le (by decide), BitVec.extractLsb'_setWidth_of_le (by decide)]
  rfl

/-- Settles O25. -/
theorem putByteCommand : Obligations.PutByteCommand :=
  ⟨fun x => ⟨assembleWord_operandB _ x, assembleWord_operandB 0x30 x ▸ decode_encode (.putByte x)⟩,
    needsByteOperand rfl, fun x => (isPut_putByte x).putsBytes⟩

/-- Settles O26. -/
theorem putBe32Command : Obligations.PutBe32Command :=
  ⟨fun v => ⟨rfl, decode_encode (.putBe32 v)⟩, fun v => (isPut_putBe32 v).putsBytes⟩

/-- Settles O27: a `put` up to 65535; the phase is checked before the range, whatever the operand. -/
theorem putLen16cCommand : Obligations.PutLen16cCommand := by
  refine ⟨fun v => ⟨rfl, decode_encode (.putLen16c v)⟩, fun v hv => ?_, fun s v h0 hp hv => ?_, fun s v h0 hidle hpay => ?_⟩
  · rw [← len16c_setWidth]
    exact (isPut_putLen16c hv).putsBytes
  · exact exec_trapped h0 (precheck_range_iff.2 ⟨decide_eq_true hp, decide_eq_true hv⟩) (by decide)
  · exact exec_trapped h0 (precheck_phase_iff.2 (decide_eq_false (not_or.2 ⟨hidle, hpay⟩))) (by decide)

end Sys2Proof.Machine
end

section
/-!
The chunk commands (R151 to R153) and the laws of a chunk (R155, R203). The commands follow from their checks and effects;
the chunk law takes a run without a fault apart command by command; the commands of CHUNK run their payload by `sentPay`.
-/

namespace Sys2Proof

/-- The word of CHUNK_TAG, byte by byte (R76). -/
theorem assembleWord_operandT (opcode t0 t1 t2 t3 : Byte) :
    assembleWord opcode (operandT t0 t1 t2 t3) = opcode ++ t0 ++ t1 ++ t2 ++ t3 := by
  apply BitVec.eq_of_toNat_eq
  rw [assembleWord, append_toNat, operandT_toNat]
  simp only [append_toNat]
  omega

end Sys2Proof

namespace Sys2Proof.Machine

/-! ### The commands -/

/-- A command that its phase check refuses (R233, R239). -/
theorem exec_phase {i : Instr} {s : State} (h0 : s.fault = .none) (hp : phaseAllows i s.phase s.zfinal = false) :
    exec i s = .next { s with fault := .phase } :=
  exec_trapped h0 (precheck_phase_iff.2 hp) (by decide)

/-- Settles O28: CHUNK_OPEN has a phase check alone. -/
theorem chunkOpenCommand : Obligations.ChunkOpenCommand :=
  ⟨fun len => ⟨rfl, decode_encode (.chunkOpen len)⟩,
    fun _ _ h0 hp => exec_emitsOrStops h0 (precheck_none_iff.2 ⟨decide_eq_true hp, rfl, rfl⟩) (rowOwes_of_ne (by simp)),
    fun _ _ h0 hp => exec_phase h0 (decide_eq_false hp)⟩

/-- Settles O29: CHUNK_TAG has a phase check alone. -/
theorem chunkTagCommand : Obligations.ChunkTagCommand :=
  ⟨fun t0 t1 t2 t3 => ⟨assembleWord_operandT _ t0 t1 t2 t3,
      assembleWord_operandT 0x41 t0 t1 t2 t3 ▸ decode_encode (.chunkTag t0 t1 t2 t3)⟩,
    fun _ _ _ _ _ h0 hp =>
      exec_emitsOrStops h0 (precheck_none_iff.2 ⟨decide_eq_true hp, rfl, rfl⟩) (rowOwes_of_ne (by simp)),
    fun _ _ _ _ _ h0 hp => exec_phase h0 (decide_eq_false hp)⟩

/-- Settles O30: the phase check, then the length check. -/
theorem chunkCloseCommand : Obligations.ChunkCloseCommand := by
  refine ⟨rfl, decode_encode .chunkClose, needsZeroOperand rfl, fun s h0 hp hr => ?_, fun s h0 hp hr => ?_,
    fun s h0 hp => exec_phase h0 (decide_eq_false hp)⟩
  · exact exec_emitsOrStops h0 (precheck_none_iff.2 ⟨decide_eq_true hp, rfl, decide_eq_false (not_not.2 hr)⟩)
      (rowOwes_of_ne (by simp))
  · exact exec_trapped h0 (precheck_length_iff.2 ⟨decide_eq_true hp, rfl, decide_eq_true hr⟩) (by decide)

/-! ### The chunk law -/

/-- A core that a command leaves without a fault had none before: a halted core stays as it is (R243). -/
theorem exec_live {i : Instr} {s t : State} (h : exec i s = .next t) (ht : t.fault = .none) : s.fault = .none := by
  by_contra h0
  cases h.symm.trans (exec_halted i h0)
  exact h0 ht

/-- A list of commands that completes has completed its first part, and then its second. -/
theorem execAll_append_completes {xs ys : List Instr} {s u : State} (h : execAll (xs ++ ys) s = .next u)
    (hu : u.fault = .none) : ∃ t, execAll xs s = .next t ∧ execAll ys t = .next u := by
  induction xs generalizing s with
  | nil => exact ⟨s, rfl, h⟩
  | cons i rest ih =>
    obtain ⟨v, hv, -, hrest⟩ := execAll_cons_completes h hu
    obtain ⟨t, ht, hys⟩ := ih hrest
    exact ⟨t, (execAll_cons hv rest).trans ht, hys⟩

/-- Inside a chunk, commands without a CHUNK_CLOSE that complete append payload, summed and counted, and stay inside
(R154). -/
theorem execAll_inChunk {cmds : List Instr} {s t : State} (hin : InChunk s) (hclose : .chunkClose ∉ cmds)
    (h : execAll cmds s = .next t) (ht : t.fault = .none) :
    ∃ payload, t.out = s.out ++ payload ∧ SummedAndCounted payload s t := by
  induction cmds generalizing s with
  | nil =>
    cases h
    exact ⟨[], (List.append_nil _).symm, rfl, rfl⟩
  | cons i rest ih =>
    obtain ⟨hi, hrest⟩ := not_or.1 (mt List.mem_cons.2 hclose)
    obtain ⟨u, hu, hf, hrun⟩ := execAll_cons_completes h ht
    obtain ⟨hc, hn, rfl⟩ := exec_completed hu hf
    obtain ⟨hsum, hin'⟩ := summedAndCounted_effect hin (Ne.symm hi) hc hn
    obtain ⟨payload, hout, hsum'⟩ := ih (s := advancePc (effect i s)) hin' hrest hrun
    exact ⟨emittedBytes i s ++ payload, by rw [hout, exec_completed_out hu hf, List.append_assoc], hsum.append hsum'⟩

/-- A CHUNK_CLOSE that completes found nothing owed; it appends the complement of `crc` and returns to IDLE (R153). -/
theorem exec_chunkClose_completed {s t : State} (h : exec .chunkClose s = .next t) (ht : t.fault = .none) :
    s.remain.toNat = 0 ∧ t.out = s.out ++ be32 (crcFinalize s.crc) ∧ t.phase = .idle ∧ t.remain = 0#32 := by
  obtain ⟨hc, -, rfl⟩ := exec_completed h ht
  obtain ⟨-, -, hlength⟩ := precheck_none_iff.1 hc
  have hremain : s.remain.toNat = 0 := not_not.1 (of_decide_eq_false hlength)
  exact ⟨hremain, rfl, rfl, word_eq_zero_iff.2 hremain⟩

/-- Settles O53: CHUNK_OPEN and CHUNK_TAG begin the count and the sum, the commands after them go on with both, and the
CHUNK_CLOSE found nothing owed. -/
theorem chunkLaw : Obligations.ChunkLaw := by
  intro s u len t0 t1 t2 t3 cmds _ _ hmem h hu
  obtain ⟨v, hopen, hv, h⟩ := execAll_cons_completes h hu
  obtain ⟨w, htag, hw, h⟩ := execAll_cons_completes h hu
  obtain ⟨x, hcmds, h⟩ := execAll_append_completes h hu
  obtain ⟨y, hclose, -, h⟩ := execAll_cons_completes h hu
  cases h
  obtain ⟨-, -, rfl⟩ := exec_completed hopen hv
  obtain ⟨-, -, rfl⟩ := exec_completed htag hw
  obtain ⟨hzero, hout, hphase, hremain⟩ := exec_chunkClose_completed hclose hu
  obtain ⟨payload, hpaid, hcrc, hcount⟩ := execAll_inChunk (.inl rfl) hmem hcmds (exec_live hclose hu)
  have hlen : x.remain.toNat + payload.length = len.toNat := hcount
  have hsum : x.crc = crcRun crcSeed ([t0, t1, t2, t3] ++ payload) := hcrc.trans (crcRun_append _ _ _).symm
  refine ⟨payload, by omega, ?_, hphase, hremain⟩
  rw [hout, hpaid, hsum]
  rfl

/-! ### The commands of CHUNK -/

/-- The PUT_BYTE commands of a payload that the chunk owes send it as payload, whole (R131, R203). -/
theorem execAll_putBytes {c : Config} (bytes : List Byte) {s : State} (hs : Live c .payload s)
    (hroom : bytes.length ≤ s.remain.toNat) :
    execAll (bytes.map .putByte) s = .next { sentPay bytes s with pc := s.pc + bytes.length } := by
  induction bytes generalizing s with
  | nil => simp [execAll]
  | cons x rest ih =>
    rw [List.length_cons] at hroom
    have hone : effect (.putByte x) s = sentPay [x] s := if_neg (by simp [hs.phase])
    have hexec := exec_completes hs.fault hs.sink (i := .putByte x)
      (precheck_none_iff.2 ⟨decide_eq_true (.inr hs.phase), rfl, decide_eq_false (by omega)⟩) (rowOwes_of_ne (by simp))
    have hlive : Live c .payload (advancePc (effect (.putByte x) s)) :=
      live_completed hs (by simp) (by rw [hone]; exact hs.phase)
    rw [hone] at hexec hlive
    have hleft : (advancePc (sentPay [x] s)).remain.toNat = s.remain.toNat - 1 :=
      toNat_sub_ofNat (n := 1) (by omega)
    rw [List.map_cons, execAll_cons hexec, ih hlive (by omega), sentPay_cons x rest s, List.length_cons,
      Nat.add_comm rest.length, ← Nat.add_assoc]
    rfl

/-- The state in which a chunk's payload has been paid whole: what is left to do is CHUNK_CLOSE. -/
def chunkPaid (tag : Tag) (payload : List Byte) (s : State) : State :=
  { sentPay payload (chunkBegun tag payload.length s) with pc := (chunkBegun tag payload.length s).pc + payload.length }

theorem live_chunkPaid {c : Config} {s : State} (hs : Live c .idle s) (tag : Tag) (payload : List Byte) :
    Live c .payload (chunkPaid tag payload s) := by
  have hbegun := live_chunkBegun hs tag payload.length
  exact ⟨hbegun.fault, hbegun.phase, hbegun.cfg, sinkTakesAll_of hbegun.sink rfl ⟨payload, rfl⟩⟩

/-- The payload was declared by its length, so nothing is owed once it is paid. -/
theorem chunkPaid_remain (tag : Tag) (payload : List Byte) (s : State) : (chunkPaid tag payload s).remain = 0#32 :=
  BitVec.sub_self _

theorem chunkPaid_crc (tag : Tag) (payload : List Byte) (s : State) :
    (chunkPaid tag payload s).crc = crcRun crcSeed (tag.bytes ++ payload) :=
  (crcRun_append _ _ _).symm

/-- The commands of CHUNK append the chunk, leave nothing owed, and leave in `crc` the running state of tag and payload; no
other register changes (R203). -/
theorem execAll_chunkCommands {c : Config} (tag : Tag) {payload : List Byte} (hlen : payload.length ≤ maxWord) {s : State}
    (hs : Live c .idle s) :
    execAll (chunkCommands tag payload) s =
      .next { s with
        out := s.out ++ chunkBytes tag payload
        crc := crcRun crcSeed (tag.bytes ++ payload)
        remain := 0#32
        phase := .idle
        pc := s.pc + payload.length + 3 } := by
  have hpaid := live_chunkPaid hs tag payload
  have hremain := chunkPaid_remain tag payload s
  have hclose := exec_completes hpaid.fault hpaid.sink (i := .chunkClose)
    (precheck_none_iff.2 ⟨decide_eq_true hpaid.phase, rfl, decide_eq_false (not_not.2 (word_eq_zero_iff.1 hremain))⟩)
    (rowOwes_of_ne (by simp))
  have hrun : execAll (chunkCommands tag payload) s = .next (advancePc (effect .chunkClose (chunkPaid tag payload s))) := by
    rw [chunkCommands, List.cons_append, List.cons_append, execAll_chunkBegin hs,
      execAll_append (execAll_putBytes payload (live_chunkBegun hs tag _) (chunkBegun_remain tag hlen s).ge)]
    exact execAll_cons hclose []
  rw [hrun, ← hremain, ← chunkPaid_crc tag payload s, chunkBytes, crc32, ← chunkPaid_crc tag payload s,
    show s.pc + payload.length + 3 = s.pc + 1 + 1 + payload.length + 1 by omega]
  simp only [← List.append_assoc]
  rfl

/-- Settles O54. -/
theorem chunkMacroCompletes : Obligations.ChunkMacroCompletes :=
  fun _ t _ h0 hp hsink =>
    ⟨fun hlen => ⟨if_pos hlen, execAll_chunkCommands t hlen ⟨h0, hp, rfl, hsink⟩⟩, fun hlen => if_neg (not_le.2 hlen)⟩

end Sys2Proof.Machine
end

section
/-!
The stream commands (R171 to R176). Each answers by its checks, its bytes and its effect; the two row-opens differ in `last`
alone, so what R172 and R174 say is proved once; ROW_DATA has one register update and then three ends.
-/

namespace Sys2Proof.Machine

/-- A command that its range check refuses (R234, R239). -/
theorem exec_range {i : Instr} {s : State} (h0 : s.fault = .none) (hp : phaseAllows i s.phase s.zfinal = true)
    (hr : rangeRefuses i = true) : exec i s = .next { s with fault := .range } :=
  exec_trapped h0 (precheck_range_iff.2 ⟨hp, hr⟩) (by decide)

/-- A command that its length check refuses (R235, R239). -/
theorem exec_length {i : Instr} {s : State} (h0 : s.fault = .none) (hp : phaseAllows i s.phase s.zfinal = true)
    (hr : rangeRefuses i = false) (hl : lengthRefuses i s = true) : exec i s = .next { s with fault := .length } :=
  exec_trapped h0 (precheck_length_iff.2 ⟨hp, hr, hl⟩) (by decide)

/-! ### The envelope -/

/-- Settles O31: the effect counts the two header bytes in `remain`, which owes them. -/
theorem zlibOpenCommand : Obligations.ZlibOpenCommand := by
  refine ⟨rfl, decode_encode .zlibOpen, needsZeroOperand rfl, fun s h0 hp hroom => ?_, fun s h0 hp hlow => ?_,
    fun s h0 hp => exec_phase h0 (decide_eq_false hp)⟩
  · rw [← sub_ofNat_eq hroom]
    exact exec_emitsOrStops h0 (precheck_none_iff.2 ⟨decide_eq_true hp, rfl, decide_eq_false (not_lt.2 hroom)⟩)
      (rowOwes_of_ne (by simp))
  · exact exec_length h0 (decide_eq_true hp) rfl (decide_eq_true hlow)

/-- Settles O35: `zfinal` is part of the phase check, so it comes before LENGTH. -/
theorem zlibCloseCommand : Obligations.ZlibCloseCommand := by
  refine ⟨rfl, decode_encode .zlibClose, needsZeroOperand rfl, fun s h0 hp hz hroom => ?_, fun s h0 hp hz hlow => ?_,
    fun s h0 hshut => ?_⟩
  · rw [← sub_ofNat_eq hroom]
    exact exec_emitsOrStops h0 (precheck_none_iff.2 ⟨decide_eq_true ⟨hp, hz⟩, rfl, decide_eq_false (not_lt.2 hroom)⟩)
      (rowOwes_of_ne (by simp))
  · exact exec_length h0 (decide_eq_true ⟨hp, hz⟩) rfl (decide_eq_true hlow)
  · exact exec_phase h0 (decide_eq_false (not_and_or.2 (hshut.imp_right ne_true_of_eq_false)))

/-! ### Opening a row -/

/-- The checks, the bytes and the effect of a row-open (R172, R174). -/
structure IsRowOpen (i : Instr) (last : Bool) (n : Word) : Prop where
  notRowData : ∀ x, i ≠ .rowData x
  phase : ∀ s, phaseAllows i s.phase s.zfinal = mayOpenRow s
  range : rangeRefuses i = decide (n.toNat = 0)
  length : ∀ s, lengthRefuses i s = decide (s.remain.toNat < rowNeed n.toNat)
  emits : ∀ s, emittedBytes i s = blockHeader (last && decide (n.toNat ≤ 65535)) (min n.toNat 65535)
  effect : ∀ s, effect i s = rowOpened last n s

theorem isRowOpen_rowOpen (n : Word) : IsRowOpen (.rowOpen n) false n :=
  ⟨by simp, fun _ => rfl, rfl, fun _ => rfl, fun _ => rfl, fun _ => rfl⟩

theorem isRowOpen_rowOpenLast (n : Word) : IsRowOpen (.rowOpenLast n) true n :=
  ⟨by simp, fun _ => rfl, rfl, fun _ => rfl, fun _ => rfl, fun _ => rfl⟩

/-- A block opened before the final one: the flag of its header is what `zfinal` becomes (R173). -/
theorem headed_of_zfinal_false {s : State} (hz : s.zfinal = false) :
    headed s =
      { sentPay (blockHeader (finalFlag s) (segLength s.rowrem.toNat)) s with
        segrem := BitVec.ofNat 16 (segLength s.rowrem.toNat)
        zfinal := finalFlag s } := by
  simp [headed, openBlock, hz]

/-- A row-open before the final block, register by register (R172, R174). -/
theorem rowOpened_eq (last : Bool) (n : Word) {s : State} (hz : s.zfinal = false) (hroom : 5 ≤ s.remain.toNat) :
    rowOpened last n s =
      { s with
        out := s.out ++ blockHeader (last && decide (n.toNat ≤ 65535)) (min n.toNat 65535)
        crc := crcRun s.crc (blockHeader (last && decide (n.toNat ≤ 65535)) (min n.toNat 65535))
        remain := BitVec.ofNat 32 (s.remain.toNat - 5)
        rowrem := n
        rowlast := last
        segrem := BitVec.ofNat 16 (min n.toNat 65535)
        zfinal := last && decide (n.toNat ≤ 65535)
        phase := .row } := by
  rw [rowOpened, headed_of_zfinal_false (s := beginRow last n s) hz, ← sub_ofNat_eq hroom]
  rfl

/-- What R172 and R174 say of a row-open follows from its checks, its bytes and its effect. -/
theorem IsRowOpen.opensRow {i : Instr} {last : Bool} {n : Word} (hi : IsRowOpen i last n) : OpensRow i last n := by
  have hpass {s : State} (hp : s.phase = .zstream) (hz : s.zfinal = false) : phaseAllows i s.phase s.zfinal = true :=
    (hi.phase s).trans (decide_eq_true ⟨hp, hz⟩)
  have hrange (hn : n.toNat ≠ 0) : rangeRefuses i = false := hi.range.trans (decide_eq_false hn)
  refine ⟨fun s h0 hp hz hn hroom => ?_, fun s h0 hp hz hn hlow => ?_, fun s h0 hp hz hn => ?_, fun s h0 hshut => ?_⟩
  · have hlength : lengthRefuses i s = false := by
      rw [hi.length, rowNeed_eq]
      exact decide_eq_false (not_lt.2 hroom)
    have h := exec_emitsOrStops h0 (precheck_none_iff.2 ⟨hpass hp hz, hrange hn, hlength⟩) (rowOwes_of_ne hi.notRowData)
    rwa [hi.emits, hi.effect, rowOpened_eq last n hz (by omega)] at h
  · refine exec_length h0 (hpass hp hz) (hrange hn) ?_
    rw [hi.length, rowNeed_eq]
    exact decide_eq_true hlow
  · exact exec_range h0 (hpass hp hz) (hi.range.trans (decide_eq_true hn))
  · exact exec_phase h0 ((hi.phase s).trans (decide_eq_false (not_and_or.2 (hshut.imp_right ne_false_of_eq_true))))

/-- Settles O32. -/
theorem rowOpenCommand : Obligations.RowOpenCommand :=
  ⟨fun n => ⟨rfl, decode_encode (.rowOpen n)⟩, fun n => (isRowOpen_rowOpen n).opensRow⟩

/-- Settles O33. -/
theorem rowOpenLastCommand : Obligations.RowOpenLastCommand :=
  ⟨fun n => ⟨rfl, decode_encode (.rowOpenLast n)⟩, fun n => (isRowOpen_rowOpenLast n).opensRow⟩

/-! ### The bytes of a row -/

/-- The number `segrem` spells after a block byte it owed, as a register. -/
theorem half_sub_one_eq {c : Half} (h : 1 ≤ c.toNat) : c - 1#16 = BitVec.ofNat 16 (c.toNat - 1) := by
  rw [← half_toNat_sub_one h, BitVec.ofNat_toNat, BitVec.setWidth_eq]

/-- A row byte that every counter owes, register by register (R112, R175). -/
theorem rowByteTaken_eq (x : Byte) {s : State} (hremain : 1 ≤ s.remain.toNat) (hrow : 1 ≤ s.rowrem.toNat)
    (hseg : 1 ≤ s.segrem.toNat) :
    rowByteTaken x s =
      { s with
        out := s.out ++ [x]
        crc := crcStep s.crc x
        a := BitVec.ofNat 32 ((s.a.toNat + x.toNat) % 65521)
        b := BitVec.ofNat 32 ((s.b.toNat + (s.a.toNat + x.toNat) % 65521) % 65521)
        remain := BitVec.ofNat 32 (s.remain.toNat - 1)
        rowrem := BitVec.ofNat 32 (s.rowrem.toNat - 1)
        segrem := BitVec.ofNat 16 (s.segrem.toNat - 1) } := by
  rw [← sub_ofNat_eq hremain, ← sub_ofNat_eq hrow, ← half_sub_one_eq hseg]
  rfl

/-- A block that the row outlives was not opened with the final flag (R40 (v)). -/
theorem RowOwed.zfinal_false {s : State} (h : RowOwed s) (hlt : s.segrem.toNat < s.rowrem.toNat) : s.zfinal = false := by
  rw [← Bool.not_eq_true, h.final]
  omega

/-- The row byte that fills a block, with the header after it, register by register (R173, R175). -/
theorem headed_rowByteTaken_eq (x : Byte) {s : State} (hrow : RowOwed s) (hlt : s.segrem.toNat < s.rowrem.toNat)
    (hroom : 6 ≤ s.remain.toNat) :
    headed (rowByteTaken x s) =
      { s with
        out := s.out ++ x :: nextHeader s
        crc := crcRun s.crc (x :: nextHeader s)
        a := BitVec.ofNat 32 ((s.a.toNat + x.toNat) % 65521)
        b := BitVec.ofNat 32 ((s.b.toNat + (s.a.toNat + x.toNat) % 65521) % 65521)
        remain := BitVec.ofNat 32 (s.remain.toNat - 6)
        rowrem := BitVec.ofNat 32 (s.rowrem.toNat - 1)
        segrem := BitVec.ofNat 16 (min (s.rowrem.toNat - 1) 65535)
        zfinal := s.rowlast && decide (s.rowrem.toNat - 1 ≤ 65535) } := by
  have hpos := hrow.segPos
  have hrow1 : 1 ≤ s.rowrem.toNat := by omega
  obtain ⟨hrow', -⟩ := rowByteTaken_counts (x := x) hpos hrow1
  have hflag : finalFlag (rowByteTaken x s) = (s.rowlast && decide (s.rowrem.toNat - 1 ≤ 65535)) := by
    rw [finalFlag, hrow']
    rfl
  have hremain : s.remain - 6#32 = s.remain - 1#32 - 5#32 := sub_ofNat_add _ 1 5
  rw [headed_of_zfinal_false (s := rowByteTaken x s) (hrow.zfinal_false hlt), blockHeader_rowByteTaken x hrow1 hpos,
    hrow', hflag, ← sub_ofNat_eq hroom, hremain, ← sub_ofNat_eq hrow1, List.append_cons]
  rfl

/-- In an open row ROW_DATA passes every check and owes what it takes (R40, R175). -/
theorem rowData_emitsOrStops (x : Byte) {s : State} (h0 : s.fault = .none) (hp : s.phase = .row) (hrow : RowOwed s) :
    EmitsOrStops (.rowData x) s (emittedBytes (.rowData x) s) (advancePc (rowDataEffect x s)) :=
  exec_emitsOrStops h0 (precheck_none_iff.2 ⟨decide_eq_true hp, rfl, rfl⟩) (rowOwes_of_rowOwed hrow)

/-- A row byte that opens no block is the only byte of its command (R175). -/
theorem emittedBytes_rowData_single (x : Byte) {s : State} (h : ¬ (2 ≤ s.rowrem.toNat ∧ s.segrem.toNat = 1)) :
    emittedBytes (.rowData x) s = [x] := by
  rw [emittedBytes, if_neg h]

theorem emittedBytes_rowData_full (x : Byte) {s : State} (h : 2 ≤ s.rowrem.toNat ∧ s.segrem.toNat = 1) :
    emittedBytes (.rowData x) s = x :: nextHeader s := by
  rw [emittedBytes, if_pos h]

/-- The invariant gives what an open row owes. -/
theorem rowOwed_of_inv {s : State} (h : Inv s) (h0 : s.fault = .none) (hp : s.phase = .row) : RowOwed s := by
  obtain ⟨-, hrow, -⟩ := (inv_iff (by simp [h0])).1 h
  exact rowOwed_of_phase hrow hp

/-- An open row owes payload bytes, and a block that the row outlives owes the next header too (R40 (iii)). -/
theorem RowOwed.one_le_remain {s : State} (h : RowOwed s) : 1 ≤ s.remain.toNat := by
  have hpos := h.segPos
  have hle := h.segLe
  have hfits := h.fits
  omega

theorem RowOwed.six_le_remain {s : State} (h : RowOwed s) (hlt : s.segrem.toNat < s.rowrem.toNat) :
    6 ≤ s.remain.toNat := by
  have hpos := h.segPos
  have hfits := h.fits
  rw [ceilDiv_block] at hfits
  omega

/-- Settles O34: the row byte by `rowByteTaken_eq`, then the row goes on, ends, or opens its next block. -/
theorem rowDataCommand : Obligations.RowDataCommand := by
  refine ⟨fun x => ⟨assembleWord_operandB _ x, assembleWord_operandB 0x53 x ▸ decode_encode (.rowData x)⟩,
    needsByteOperand rfl, fun s x hinv h0 hp hmore hopen => ?_, fun s x hinv h0 hp hlast => ?_,
    fun s x hinv h0 hp hmore hfull => ?_, fun s x h0 hp => exec_phase h0 (decide_eq_false hp)⟩
  all_goals
    have hrow := rowOwed_of_inv hinv h0 hp
    have hpos := hrow.segPos
    have hle := hrow.segLe
    have h := rowData_emitsOrStops x h0 hp hrow
  · rwa [emittedBytes_rowData_single x (by omega), rowDataEffect_inside x hmore hopen,
      rowByteTaken_eq x hrow.one_le_remain (by omega) hpos] at h
  · have hseg : s.segrem.toNat = 1 := by omega
    rwa [emittedBytes_rowData_single x (by omega), rowDataEffect_last x hlast hseg,
      rowByteTaken_eq x hrow.one_le_remain (by omega) hpos, hlast, hseg] at h
  · have hlt : s.segrem.toNat < s.rowrem.toNat := by omega
    rwa [emittedBytes_rowData_full x ⟨hmore, hfull⟩, rowDataEffect_full x hmore hfull,
      headed_rowByteTaken_eq x hrow hlt (hrow.six_le_remain hlt)] at h

end Sys2Proof.Machine
end

section
/-!
The macro-operations ADLER32 and IDAT of the driver (R202, R204 to R207), by the runs of their command lists: ADLER32 is the
Adler engine between its two ends, IDAT is a chunk around the zlib stream of the row buffers.
-/

namespace Sys2Proof.Machine

/-! ### ADLER32 -/

theorem adler32Macro_length (bytes : List Byte) : (adler32Macro bytes).length = bytes.length + 2 := by
  rw [adler32Macro, List.length_append, List.length_cons, List.length_map, List.length_singleton]

/-- Settles O17: `execAll_adler32Macro`, and the example of R202. -/
theorem adler32OfByteSequence : Obligations.Adler32OfByteSequence :=
  ⟨fun _ bytes => execAll_adler32Macro bytes, adler32Macro_length, by decide, by decide⟩

/-! ### IDAT -/

/-- The IDAT chunk of an accepted raster: appended whole, and nothing more is owed (R206, R207). -/
theorem execAll_idatCommands {r : Raster} (hr : r.accepted = true) {c : Config} {s : State} (hs : Live c .idle s) :
    ∃ t, execAll (idatCommands r) s = .next t ∧ Live c .idle t ∧ t.remain = 0#32 ∧
      t.out = s.out ++ idatBytes c.zhdr0 c.zhdr1 r := by
  obtain ⟨-, -, -, -, hlen⟩ := accepted_iff.1 hr
  have hpays := pays_stream c (rowBuffers_ne_nil hr) (rowBuffers_fit hr)
  have hpayload := zlibBytes_rowBuffers_length hr c.zhdr0 c.zhdr1
  obtain ⟨t, hrun, ht, hout, hremain, -⟩ := execAll_chunk (tag := tagIDAT) hpays (hpayload.trans_le hlen) hs
  rw [hpayload] at hrun
  exact ⟨t, hrun, ht, hremain, hout⟩

theorem idatBytes_length (z0 z1 : Byte) {r : Raster} (hr : r.accepted = true) :
    (idatBytes z0 z1 r).length = 12 + r.idatLength := by
  rw [idatBytes, chunkBytes_length, zlibBytes_rowBuffers_length hr]

/-- Settles O58: the count of commands, the count of bytes, and the run `execAll_idatCommands`. -/
theorem idatMacroCompletes : Obligations.IdatMacroCompletes := by
  intro s r h0 hp hsink hr
  obtain ⟨t, hrun, ht, hremain, hout⟩ := execAll_idatCommands hr (c := s.cfg) ⟨h0, hp, rfl, hsink⟩
  exact ⟨if_pos hr, idatCommands_length hr, idatBytes_length _ _ hr, t, hrun, ht.fault, ht.phase, hremain, hout⟩

end Sys2Proof.Machine
end

section
/-!
The fault rules (R233 to R243). A command that the sink has not stopped records the code of its checks, so the tables of
PHASE, RANGE and LENGTH are read off `precheck`; the halted, precise and IO cases are those of `step` and `exec`.
-/

namespace Sys2Proof.Machine

/-- Settles O8. -/
theorem haltedCoreIgnoresCommands : Obligations.HaltedCoreIgnoresCommands :=
  fun _ h0 => ⟨step_halted h0, fun i => exec_halted i h0⟩

/-! ### The code a live command records -/

/-- Only the sink can make a command record another code than its checks report (R239). -/
theorem exec_fault_eq_precheck {i : Instr} {s t : State} (h0 : s.fault = .none) (h : exec i s = .next t)
    (hio : t.fault ≠ .io) : t.fault = precheck i s := by
  rcases exec_next_cases h with ⟨hs, -⟩ | ⟨-, -, rfl⟩ | ⟨-, hc, -, rfl⟩ | ⟨-, -, k, -, -, hstop⟩
  · exact absurd h0 hs
  · rfl
  · rw [hc, advancePc_fault, effect_fault, h0]
  · obtain ⟨hfault, -⟩ := hstop
    exact absurd hfault hio

/-- A code other than IO that a command records is the code its checks report. -/
theorem precheck_of_exec_fault {i : Instr} {s t : State} {c : FaultCode} (h0 : s.fault = .none)
    (h : exec i s = .next t) (ht : t.fault = c) (hc : c ≠ .io) : precheck i s = c := by
  subst ht
  exact (exec_fault_eq_precheck h0 h hc).symm

/-- Settles O36: the code PHASE is that of the checks, which report it where the matrix does not allow the command. -/
theorem phaseMatrix : Obligations.PhaseMatrix := by
  refine fun i s h0 => ⟨exec_phase h0, fun hp t h ht => ?_⟩
  have hrefused := precheck_phase_iff.1 (precheck_of_exec_fault h0 h ht (by decide))
  exact absurd hp (by simp [hrefused])

/-- Settles O37: the code RANGE is that of the checks, which report it in the two cases of R234 alone. -/
theorem rangeFaults : Obligations.RangeFaults := by
  refine fun i s h0 => ⟨exec_range h0, fun hr t h ht => ?_⟩
  obtain ⟨-, hrefused⟩ := precheck_range_iff.1 (precheck_of_exec_fault h0 h ht (by decide))
  exact absurd hr (by simp [hrefused])

/-- Settles O38: the code LENGTH is that of the checks, which report it where the table of R235 does. -/
theorem lengthFaults : Obligations.LengthFaults := by
  refine fun i s h0 => ⟨exec_length h0, fun hl t h ht => ?_⟩
  obtain ⟨-, -, hrefused⟩ := precheck_length_iff.1 (precheck_of_exec_fault h0 h ht (by decide))
  exact absurd hl (by simp [hrefused])

/-- Settles O39: each clause is a branch of the step, the last two for a live core with a legal word. -/
theorem checksInOrder : Obligations.ChecksInOrder := by
  refine fun s w hf => ⟨step_halted, fun h0 hw => step_illegal h0 hf hw, fun i h0 hw hc => ?_, fun i t h0 hw hc h => ?_⟩
  · rw [step_command h0 hf hw, exec_trapped h0 rfl hc]
  · rw [step_command h0 hf hw] at h
    by_cases hio : t.fault = .io
    · exact .inr hio
    · exact .inl ((exec_fault_eq_precheck h0 h hio).trans hc)

/-! ### What a fault leaves -/

/-- Settles O40: a step with a fault of its own is an illegal word's, or a command's that the sink has not stopped. -/
theorem preciseFaults : Obligations.PreciseFaults := by
  intro s t h0 h ht hio
  rcases step_next_cases h with rfl | ⟨-, rfl⟩ | ⟨i, -, -, he⟩
  · exact absurd h0 ht
  · rfl
  · exact exec_halted_or_precise he (.inr ⟨ht, hio⟩)

/-- Settles O41. -/
theorem ioFaults : Obligations.IoFaults := fun _ _ _ h0 h ht => exec_io_stopped h h0 ht

end Sys2Proof.Machine
end
